-- ==== Sys2Proof/Word.lean ====
section
/-! DEFINITION. The word types of the block: bytes on the wire and in font memory, 16-bit colours and
window bounds, 32-bit request fields (spec/00_scope.md R16, spec/30_encoding.md R91). -/

namespace Sys2Proof

/-- `u8`: a wire, request or font byte. -/
abbrev Byte := BitVec 8

/-- `u16`: a packed colour, a margin, a window bound. -/
abbrev Half := BitVec 16

/-- A 32-bit request field, `u32` or `s32`. -/
abbrev Word := BitVec 32

end Sys2Proof
end

