-- ==== Sys2Proof/Config.lean ====
section
/-! DEFINITION. The parameters of a run (spec/00_scope.md R7 to R15), as plain data, and the OPEN ones as opaque
constants: nothing in Lean can know their values. Every parameter is an argument of the model: it stands in `State`
(field `par`), no step writes it, and a claim about every state is a claim about every parameter. -/

namespace Sys2Proof

/-- The 24 controller commands, by name (R104). Rules name commands by name, never by code. -/
inductive WireName where
  | swreset | slpout | noron | invoff | invon | dispoff | dispon
  | caset | raset | ramwr | madctl | colmod
  | frmctr1 | frmctr2 | frmctr3 | invctr
  | pwctr1 | pwctr2 | pwctr3 | pwctr4 | pwctr5 | vmctr1
  | gmctrp1 | gmctrn1
  deriving DecidableEq, Repr, Inhabited

/-- `CMD`, the command-code table: one code for each of the 24 names (R9, R104). -/
structure CmdTable where
  swreset : Byte
  slpout : Byte
  noron : Byte
  invoff : Byte
  invon : Byte
  dispoff : Byte
  dispon : Byte
  caset : Byte
  raset : Byte
  ramwr : Byte
  madctl : Byte
  colmod : Byte
  frmctr1 : Byte
  frmctr2 : Byte
  frmctr3 : Byte
  invctr : Byte
  pwctr1 : Byte
  pwctr2 : Byte
  pwctr3 : Byte
  pwctr4 : Byte
  pwctr5 : Byte
  vmctr1 : Byte
  gmctrp1 : Byte
  gmctrn1 : Byte
  deriving DecidableEq, Repr, Inhabited

/-- `INIT_PARAMS`: the parameter bytes of each bring-up step that has OPEN ones (R10, R136). -/
structure InitParams where
  frmctr1 : List Byte
  frmctr2 : List Byte
  frmctr3 : List Byte
  invctr : List Byte
  pwctr1 : List Byte
  pwctr2 : List Byte
  pwctr3 : List Byte
  pwctr4 : List Byte
  pwctr5 : List Byte
  vmctr1 : List Byte
  colmod : List Byte
  caset : List Byte
  raset : List Byte
  gmctrp1 : List Byte
  gmctrn1 : List Byte
  deriving DecidableEq, Repr, Inhabited

/-- `(GRAM_COLS, GRAM_ROWS)`: the frame memory's address range under one orientation (R12). -/
structure Extent where
  cols : Nat
  rows : Nat
  deriving DecidableEq, Repr, Inhabited

/-- `GRAM_LIMIT(o)` for the four orientation indices (R12). -/
structure GramLimits where
  o0 : Extent
  o1 : Extent
  o2 : Extent
  o3 : Extent
  deriving DecidableEq, Repr, Inhabited

/-- `CLIP_POLICY` (R14). -/
inductive ClipPolicy where
  /-- Out-of-range draws are clipped or skipped: the default. -/
  | silent
  /-- Each such clip or skip raises `OutOfRange`. -/
  | fault
  deriving DecidableEq, Repr, Inhabited

/-- `RESET_HOLD[0..2]`, in milliseconds (R11). No rule depends on a duration. -/
structure ResetHolds where
  hold0 : Nat
  hold1 : Nat
  hold2 : Nat
  deriving DecidableEq, Repr, Inhabited

/-- `SPI_BIT_ORDER` (R13). -/
inductive BitOrder where
  | msbFirst
  | lsbFirst
  deriving DecidableEq, Repr, Inhabited

/-- The SPI link parameters (R13): carried, and read by no rule (log 14). -/
structure SpiLink where
  bitOrder : BitOrder
  mode : Fin 4
  clock : Nat
  deriving DecidableEq, Repr, Inhabited

/-- Everything fixed for a run before it starts, but for font memory (R7 to R15, R315). -/
structure Params where
  /-- `CMD` (R9). -/
  cmd : CmdTable
  /-- `INIT_PARAMS` (R10). -/
  init : InitParams
  /-- `INIT_DELAY[k]` for k = 1, 2, ...: a missing entry is `none` (R10). -/
  initDelay : List (Option Nat)
  /-- `RESET_HOLD` (R11). -/
  resetHold : ResetHolds
  /-- `GRAM_LIMIT` (R12). -/
  gramLimit : GramLimits
  /-- `CLIP_POLICY` (R14). -/
  clip : ClipPolicy
  /-- The SPI link (R13). -/
  spi : SpiLink
  /-- `BUS_OK`, as the numbers of the transfers that fail (R15): DESIGN CHOICE, log 5. A run of finitely many
  steps starts finitely many transfers, so every oracle agrees with some such list on it. -/
  busFails : List Nat
  deriving DecidableEq, Repr, Inhabited

/-! The OPEN parameters of the machine at reset: constants with no body, so that no proof about the reset state
can lean on a value (log 4). -/

opaque Config.initParams : InitParams
opaque Config.initDelay : List (Option Nat)
opaque Config.resetHold : ResetHolds
opaque Config.gramLimit : GramLimits
opaque Config.spiClock : Nat
opaque Config.busFails : List Nat

end Sys2Proof
end

