-- ==== Sys2Proof/Syntax.lean ====
section
/-! DEFINITION. The instructions of the block: one constructor for each row of spec/opcode_table.json, that is the 20
requests (format REQ, spec/30_encoding.md R95, R96) and the 24 controller commands (format WIRE, R103, R104); and
the messages they arrive in. -/

namespace Sys2Proof

/-- One instruction. The `s32` fields (coordinates, extents, radius) are kept as their 32-bit words; their meaning
`sext_32` is taken once, where the operands are assembled (R92). `quads` is the `u8` mask of R93. A WIRE
constructor is the command frame alone: the bytes that follow it travel in data frames of their own (R103). -/
inductive Instr where
  /-- op 0x00, R130 -/
  | create (rowMargin colMargin : Half) (blPresent : Bool)
  /-- op 0x01, R138 -/
  | reset
  /-- op 0x02, INITIALIZE, R135 -/
  | initialise (width height : Half) (orient : Byte)
  /-- op 0x03, R133 -/
  | writeCommand (code : Byte)
  /-- op 0x04, R134 -/
  | writeData (data : List Byte)
  /-- op 0x05, R139 -/
  | setAddressWindow (x0 y0 x1 y1 : Word)
  /-- op 0x06, R140 -/
  | power (on : Bool)
  /-- op 0x07, R141 -/
  | backlight (on : Bool)
  /-- op 0x08, R142 -/
  | backlightQuery
  /-- op 0x09, R143 -/
  | invert (on : Bool)
  /-- op 0x0A, R221 -/
  | packColor (r g b : Byte)
  /-- op 0x10, R222 -/
  | setPixel (x y : Word) (color : Half)
  /-- op 0x11, R223 -/
  | fillRect (x y w h : Word) (color : Half)
  /-- op 0x12, R224 -/
  | hline (x y len : Word) (color : Half)
  /-- op 0x13, R225 -/
  | vline (x y len : Word) (color : Half)
  /-- op 0x14, R226 -/
  | line (x0 y0 x1 y1 : Word) (color : Half)
  /-- op 0x15, R231 -/
  | circle (cx cy r : Word) (color : Half)
  /-- op 0x16, R232 -/
  | circleFilled (cx cy r : Word) (color : Half) (hasFill : Bool) (fillColor : Half)
  /-- op 0x17, R233 -/
  | circleSegment (cx cy r : Word) (color : Half) (quads : Byte) (fill hasFill : Bool) (fillColor : Half)
  /-- op 0x18, R261 -/
  | text (x y : Word) (color : Half) (scale fontW fontH fontStart fontEnd : Byte) (fontBase : Word) (codes : List Byte)
  /-- software reset, R182 -/
  | swreset
  /-- sleep out, R183 -/
  | slpout
  /-- normal display mode on, R201 -/
  | noron
  /-- display inversion off, R195 -/
  | invoff
  /-- display inversion on, R196 -/
  | invon
  /-- display off, R203 -/
  | dispoff
  /-- display on, R202 -/
  | dispon
  /-- column address set, R175 -/
  | caset
  /-- row address set, R176 -/
  | raset
  /-- memory write, R177 -/
  | ramwr
  /-- memory-access control, R197 -/
  | madctl
  /-- pixel-format select, R198 -/
  | colmod
  /-- frame-rate control, normal mode, R185 -/
  | frmctr1
  /-- frame-rate control, idle mode, R186 -/
  | frmctr2
  /-- frame-rate control, partial mode, R187 -/
  | frmctr3
  /-- display inversion control, R188 -/
  | invctr
  /-- power control 1, R189 -/
  | pwctr1
  /-- power control 2, R190 -/
  | pwctr2
  /-- power control 3, R191 -/
  | pwctr3
  /-- power control 4, R192 -/
  | pwctr4
  /-- power control 5, R193 -/
  | pwctr5
  /-- VCOM control, R194 -/
  | vmctr1
  /-- gamma correction, first table, R199 -/
  | gmctrp1
  /-- gamma correction, second table, R200 -/
  | gmctrn1
  deriving DecidableEq, Repr

/-- What the machine can be given, one at a time (log 1, log 2). -/
inductive Inbound where
  /-- The bytes of a host request (R90). -/
  | request (bytes : List Byte)
  /-- A command frame `C(b)` on the wire (R103). -/
  | command (b : Byte)
  /-- A data frame `D(b1 ... bn)` on the wire (R103). -/
  | data (bytes : List Byte)
  deriving DecidableEq, Repr

end Sys2Proof
end

