-- ==== Sys2Proof/WellFormed.lean ====
section
/-! DEFINITION. Which instructions have an encoding: the checks of spec/30_encoding.md R91 to R94 that the types of
the operands do not already make. -/

namespace Sys2Proof

/-- `n` of `bytes[n]` is a `u16` (R91, R94), and bits 7:4 of `quads` are 0 (R93). Nothing else is checked: every
other field's type is its encoding's. -/
def Instr.wf : Instr → Bool
  | .create _ _ _ => true
  | .reset => true
  | .initialise _ _ _ => true
  | .writeCommand _ => true
  | .writeData data => decide (data.length < 2 ^ 16)
  | .setAddressWindow _ _ _ _ => true
  | .power _ => true
  | .backlight _ => true
  | .backlightQuery => true
  | .invert _ => true
  | .packColor _ _ _ => true
  | .setPixel _ _ _ => true
  | .fillRect _ _ _ _ _ => true
  | .hline _ _ _ _ => true
  | .vline _ _ _ _ => true
  | .line _ _ _ _ _ => true
  | .circle _ _ _ _ => true
  | .circleFilled _ _ _ _ _ _ => true
  | .circleSegment _ _ _ _ quads _ _ _ => decide (quads.toNat < 16)
  | .text _ _ _ _ _ _ _ _ _ codes => decide (codes.length < 2 ^ 16)
  | .swreset => true
  | .slpout => true
  | .noron => true
  | .invoff => true
  | .invon => true
  | .dispoff => true
  | .dispon => true
  | .caset => true
  | .raset => true
  | .ramwr => true
  | .madctl => true
  | .colmod => true
  | .frmctr1 => true
  | .frmctr2 => true
  | .frmctr3 => true
  | .invctr => true
  | .pwctr1 => true
  | .pwctr2 => true
  | .pwctr3 => true
  | .pwctr4 => true
  | .pwctr5 => true
  | .vmctr1 => true
  | .gmctrp1 => true
  | .gmctrn1 => true

end Sys2Proof
end

