-- ==== Sys2Proof/Decode.lean ====
section
/-! DEFINITION. The encodings of spec/30_encoding.md: the byte order and the field readers (R91), the request format
(R90 to R98), the command-code table (R104) and the orientation bytes (R8, R107); the decoder, total on any message; the
encoder, written from the same tables; and the host's reading of a table word. -/

namespace Sys2Proof

/-! ### Byte order (R16, R64, R65, R91) -/

/-- `hi8(v) = v[15:8]` (R16). -/
def hi8 (v : Half) : Byte := v.extractLsb' 8 8

/-- `lo8(v) = v[7:0]` (R16). -/
def lo8 (v : Half) : Byte := v.extractLsb' 0 8

/-- A 16-bit value from its two bytes, high byte first (R64, R65, R91). -/
def be16 (hi lo : Byte) : Half := BitVec.ofNat 16 (hi.toNat * 256 + lo.toNat)

/-- A 32-bit value from its two halves, most significant first (R91). -/
def be32 (hi lo : Half) : Word := BitVec.ofNat 32 (hi.toNat * 65536 + lo.toNat)

/-- `u16` as two bytes, high byte first (R91). -/
def putHalf (v : Half) : List Byte := [hi8 v, lo8 v]

/-- `u32` or `s32` as four bytes, most significant first (R91). -/
def putWord (v : Word) : List Byte := putHalf (v.extractLsb' 16 16) ++ putHalf (v.extractLsb' 0 16)

/-- `bool` as one byte, 0 or 1 (R91). -/
def putBool (b : Bool) : Byte := if b then 1 else 0

/-! ### Field readers: the field and the bytes after it, or `none` when the string ends first (R94) -/

/-- `u8` (R91). -/
def readByte : List Byte → Option (Byte × List Byte)
  | a :: rest => some (a, rest)
  | [] => none

/-- `u16`, high byte first (R91). -/
def readHalf : List Byte → Option (Half × List Byte)
  | a :: b :: rest => some (be16 a b, rest)
  | _ => none

/-- `u32` or `s32`, most significant byte first (R91). -/
def readWord : List Byte → Option (Word × List Byte)
  | a :: b :: c :: d :: rest => some (be32 (be16 a b) (be16 c d), rest)
  | _ => none

/-- `bytes[n]` (R91, R94). -/
def readBytes (n : Nat) (bs : List Byte) : Option (List Byte × List Byte) :=
  if n ≤ bs.length then some (bs.take n, bs.drop n) else none

/-- A `bool` field's value; `none` for any byte but 0 and 1 (R92, R98). -/
def asBool (b : Byte) : Option Bool :=
  if b = 0 then some false else if b = 1 then some true else none

/-- Whether a `quads` field's bits 7:4 are 0 (R93, R98). -/
def quadsLegal (q : Byte) : Bool := decide (q.toNat < 16)

/-! ### The command-code table (R104) and the orientation table (R8) -/

/-- `CMD[name]`. -/
def CmdTable.code (t : CmdTable) : WireName → Byte
  | .swreset => t.swreset
  | .slpout => t.slpout
  | .noron => t.noron
  | .invoff => t.invoff
  | .invon => t.invon
  | .dispoff => t.dispoff
  | .dispon => t.dispon
  | .caset => t.caset
  | .raset => t.raset
  | .ramwr => t.ramwr
  | .madctl => t.madctl
  | .colmod => t.colmod
  | .frmctr1 => t.frmctr1
  | .frmctr2 => t.frmctr2
  | .frmctr3 => t.frmctr3
  | .invctr => t.invctr
  | .pwctr1 => t.pwctr1
  | .pwctr2 => t.pwctr2
  | .pwctr3 => t.pwctr3
  | .pwctr4 => t.pwctr4
  | .pwctr5 => t.pwctr5
  | .vmctr1 => t.vmctr1
  | .gmctrp1 => t.gmctrp1
  | .gmctrn1 => t.gmctrn1

/-- The default codes of R104 (PRESUMED: the ST7735 family's, log 11). -/
def CmdTable.default : CmdTable where
  swreset := 0x01
  slpout := 0x11
  noron := 0x13
  invoff := 0x20
  invon := 0x21
  dispoff := 0x28
  dispon := 0x29
  caset := 0x2A
  raset := 0x2B
  ramwr := 0x2C
  madctl := 0x36
  colmod := 0x3A
  frmctr1 := 0xB1
  frmctr2 := 0xB2
  frmctr3 := 0xB3
  invctr := 0xB4
  pwctr1 := 0xC0
  pwctr2 := 0xC1
  pwctr3 := 0xC2
  pwctr4 := 0xC3
  pwctr5 := 0xC4
  vmctr1 := 0xC5
  gmctrp1 := 0xE0
  gmctrn1 := 0xE1

/-- The 24 names. -/
def WireName.all : List WireName :=
  [.swreset, .slpout, .noron, .invoff, .invon, .dispoff, .dispon, .caset, .raset, .ramwr, .madctl, .colmod]
  ++ [.frmctr1, .frmctr2, .frmctr3, .invctr, .pwctr1, .pwctr2, .pwctr3, .pwctr4, .pwctr5, .vmctr1, .gmctrp1, .gmctrn1]

/-- "the name with `CMD[name] = b`" (R172), the first of them; none when `b` is no command's code (R204). -/
def CmdTable.nameOf (t : CmdTable) (b : Byte) : Option WireName :=
  WireName.all.find? fun n => t.code n == b

/-- `MAD_TABLE` (R8, R107). -/
def madTable : Fin 4 → Byte
  | 0 => 0x00
  | 1 => 0x60
  | 2 => 0xC0
  | 3 => 0xA0

/-- The orientation index whose memory-access-control byte is `b`, where there is one (R179). -/
def madIndex (b : Byte) : Option (Fin 4) :=
  [0, 1, 2, 3].find? fun o => madTable o == b

/-- The instruction a command frame with that name is. -/
def WireName.instr : WireName → Instr
  | .swreset => .swreset
  | .slpout => .slpout
  | .noron => .noron
  | .invoff => .invoff
  | .invon => .invon
  | .dispoff => .dispoff
  | .dispon => .dispon
  | .caset => .caset
  | .raset => .raset
  | .ramwr => .ramwr
  | .madctl => .madctl
  | .colmod => .colmod
  | .frmctr1 => .frmctr1
  | .frmctr2 => .frmctr2
  | .frmctr3 => .frmctr3
  | .invctr => .invctr
  | .pwctr1 => .pwctr1
  | .pwctr2 => .pwctr2
  | .pwctr3 => .pwctr3
  | .pwctr4 => .pwctr4
  | .pwctr5 => .pwctr5
  | .vmctr1 => .vmctr1
  | .gmctrp1 => .gmctrp1
  | .gmctrn1 => .gmctrn1

/-- The controller command an instruction is, if its format is WIRE. -/
def Instr.wireName : Instr → Option WireName
  | .create _ _ _ => none
  | .reset => none
  | .initialise _ _ _ => none
  | .writeCommand _ => none
  | .writeData _ => none
  | .setAddressWindow _ _ _ _ => none
  | .power _ => none
  | .backlight _ => none
  | .backlightQuery => none
  | .invert _ => none
  | .packColor _ _ _ => none
  | .setPixel _ _ _ => none
  | .fillRect _ _ _ _ _ => none
  | .hline _ _ _ _ => none
  | .vline _ _ _ _ => none
  | .line _ _ _ _ _ => none
  | .circle _ _ _ _ => none
  | .circleFilled _ _ _ _ _ _ => none
  | .circleSegment _ _ _ _ _ _ _ _ => none
  | .text _ _ _ _ _ _ _ _ _ _ => none
  | .swreset => some .swreset
  | .slpout => some .slpout
  | .noron => some .noron
  | .invoff => some .invoff
  | .invon => some .invon
  | .dispoff => some .dispoff
  | .dispon => some .dispon
  | .caset => some .caset
  | .raset => some .raset
  | .ramwr => some .ramwr
  | .madctl => some .madctl
  | .colmod => some .colmod
  | .frmctr1 => some .frmctr1
  | .frmctr2 => some .frmctr2
  | .frmctr3 => some .frmctr3
  | .invctr => some .invctr
  | .pwctr1 => some .pwctr1
  | .pwctr2 => some .pwctr2
  | .pwctr3 => some .pwctr3
  | .pwctr4 => some .pwctr4
  | .pwctr5 => some .pwctr5
  | .vmctr1 => some .vmctr1
  | .gmctrp1 => some .gmctrp1
  | .gmctrn1 => some .gmctrn1

/-! ### Requests -/

/-- The fields of one request format: `none` when the string ends before them; the instruction, or `none` where a
field's value is illegal (R98), and the bytes after it. The length is decided before the legality: a string that
ends early is not a request (R94; log 17). -/
abbrev Fields := Option (Option Instr × List Byte)

/-- CREATE's fields (R96). -/
def fieldsCreate (bs : List Byte) : Fields := do
  let (rowMargin, bs) ← readHalf bs
  let (colMargin, bs) ← readHalf bs
  let (blPresent, bs) ← readByte bs
  some ((asBool blPresent).map fun blPresent => .create rowMargin colMargin blPresent, bs)

/-- INITIALIZE's fields (R96). -/
def fieldsInitialise (bs : List Byte) : Fields := do
  let (width, bs) ← readHalf bs
  let (height, bs) ← readHalf bs
  let (orient, bs) ← readByte bs
  some (some (.initialise width height orient), bs)

/-- WRITE_COMMAND's fields (R96). -/
def fieldsWriteCommand (bs : List Byte) : Fields := do
  let (code, bs) ← readByte bs
  some (some (.writeCommand code), bs)

/-- WRITE_DATA's fields (R96). -/
def fieldsWriteData (bs : List Byte) : Fields := do
  let (n, bs) ← readHalf bs
  let (data, bs) ← readBytes n.toNat bs
  some (some (.writeData data), bs)

/-- SET_ADDRESS_WINDOW's fields (R96). -/
def fieldsSetAddressWindow (bs : List Byte) : Fields := do
  let (x0, bs) ← readWord bs
  let (y0, bs) ← readWord bs
  let (x1, bs) ← readWord bs
  let (y1, bs) ← readWord bs
  some (some (.setAddressWindow x0 y0 x1 y1), bs)

/-- POWER's fields (R96). -/
def fieldsPower (bs : List Byte) : Fields := do
  let (on, bs) ← readByte bs
  some ((asBool on).map fun on => .power on, bs)

/-- BACKLIGHT's fields (R96). -/
def fieldsBacklight (bs : List Byte) : Fields := do
  let (on, bs) ← readByte bs
  some ((asBool on).map fun on => .backlight on, bs)

/-- INVERT's fields (R96). -/
def fieldsInvert (bs : List Byte) : Fields := do
  let (on, bs) ← readByte bs
  some ((asBool on).map fun on => .invert on, bs)

/-- PACK_COLOR's fields (R96). -/
def fieldsPackColor (bs : List Byte) : Fields := do
  let (r, bs) ← readByte bs
  let (g, bs) ← readByte bs
  let (b, bs) ← readByte bs
  some (some (.packColor r g b), bs)

/-- SET_PIXEL's fields (R96). -/
def fieldsSetPixel (bs : List Byte) : Fields := do
  let (x, bs) ← readWord bs
  let (y, bs) ← readWord bs
  let (color, bs) ← readHalf bs
  some (some (.setPixel x y color), bs)

/-- FILL_RECT's fields (R96). -/
def fieldsFillRect (bs : List Byte) : Fields := do
  let (x, bs) ← readWord bs
  let (y, bs) ← readWord bs
  let (w, bs) ← readWord bs
  let (h, bs) ← readWord bs
  let (color, bs) ← readHalf bs
  some (some (.fillRect x y w h color), bs)

/-- HLINE's fields (R96). -/
def fieldsHline (bs : List Byte) : Fields := do
  let (x, bs) ← readWord bs
  let (y, bs) ← readWord bs
  let (len, bs) ← readWord bs
  let (color, bs) ← readHalf bs
  some (some (.hline x y len color), bs)

/-- VLINE's fields (R96). -/
def fieldsVline (bs : List Byte) : Fields := do
  let (x, bs) ← readWord bs
  let (y, bs) ← readWord bs
  let (len, bs) ← readWord bs
  let (color, bs) ← readHalf bs
  some (some (.vline x y len color), bs)

/-- LINE's fields (R96). -/
def fieldsLine (bs : List Byte) : Fields := do
  let (x0, bs) ← readWord bs
  let (y0, bs) ← readWord bs
  let (x1, bs) ← readWord bs
  let (y1, bs) ← readWord bs
  let (color, bs) ← readHalf bs
  some (some (.line x0 y0 x1 y1 color), bs)

/-- CIRCLE's fields (R96). -/
def fieldsCircle (bs : List Byte) : Fields := do
  let (cx, bs) ← readWord bs
  let (cy, bs) ← readWord bs
  let (r, bs) ← readWord bs
  let (color, bs) ← readHalf bs
  some (some (.circle cx cy r color), bs)

/-- CIRCLE_FILLED's fields (R96). -/
def fieldsCircleFilled (bs : List Byte) : Fields := do
  let (cx, bs) ← readWord bs
  let (cy, bs) ← readWord bs
  let (r, bs) ← readWord bs
  let (color, bs) ← readHalf bs
  let (hasFill, bs) ← readByte bs
  let (fillColor, bs) ← readHalf bs
  some ((asBool hasFill).map fun hasFill => .circleFilled cx cy r color hasFill fillColor, bs)

/-- CIRCLE_SEGMENT's fields (R96). -/
def fieldsCircleSegment (bs : List Byte) : Fields := do
  let (cx, bs) ← readWord bs
  let (cy, bs) ← readWord bs
  let (r, bs) ← readWord bs
  let (color, bs) ← readHalf bs
  let (quads, bs) ← readByte bs
  let (fill, bs) ← readByte bs
  let (hasFill, bs) ← readByte bs
  let (fillColor, bs) ← readHalf bs
  some (if quadsLegal quads then (asBool fill).bind fun fill => (asBool hasFill).map fun hasFill => .circleSegment cx cy r color quads fill hasFill fillColor else none, bs)

/-- TEXT's fields (R96). -/
def fieldsText (bs : List Byte) : Fields := do
  let (x, bs) ← readWord bs
  let (y, bs) ← readWord bs
  let (color, bs) ← readHalf bs
  let (scale, bs) ← readByte bs
  let (fontW, bs) ← readByte bs
  let (fontH, bs) ← readByte bs
  let (fontStart, bs) ← readByte bs
  let (fontEnd, bs) ← readByte bs
  let (fontBase, bs) ← readWord bs
  let (n, bs) ← readHalf bs
  let (codes, bs) ← readBytes n.toNat bs
  some (some (.text x y color scale fontW fontH fontStart fontEnd fontBase codes), bs)

/-- The fields of the request with operation code `op` (R95, R96); `some (none, bs)` where `op` is unassigned (R97). -/
def decodeFields (op : Nat) (bs : List Byte) : Fields :=
  match op with
  | 0x00 => fieldsCreate bs
  | 0x01 => some (some .reset, bs)
  | 0x02 => fieldsInitialise bs
  | 0x03 => fieldsWriteCommand bs
  | 0x04 => fieldsWriteData bs
  | 0x05 => fieldsSetAddressWindow bs
  | 0x06 => fieldsPower bs
  | 0x07 => fieldsBacklight bs
  | 0x08 => some (some .backlightQuery, bs)
  | 0x09 => fieldsInvert bs
  | 0x0A => fieldsPackColor bs
  | 0x10 => fieldsSetPixel bs
  | 0x11 => fieldsFillRect bs
  | 0x12 => fieldsHline bs
  | 0x13 => fieldsVline bs
  | 0x14 => fieldsLine bs
  | 0x15 => fieldsCircle bs
  | 0x16 => fieldsCircleFilled bs
  | 0x17 => fieldsCircleSegment bs
  | 0x18 => fieldsText bs
  | _ => some (none, bs)

/-- What a message decodes to. -/
inductive Decoded where
  /-- An instruction, and the request bytes after it. -/
  | instr (i : Instr) (rest : List Byte)
  /-- A data frame on the wire. -/
  | dataFrame (bytes : List Byte)
  /-- A complete request that is illegal: R97, R98. -/
  | illegal
  /-- A byte string that ends before the request is complete: R94. -/
  | incomplete
  /-- A command frame whose byte is no command's code: R204. -/
  | unassigned
  deriving DecidableEq, Repr

/-- The request decoder (R90, R94, R97, R98), total on any bytes. -/
def decodeRequest : List Byte → Decoded
  | [] => .incomplete
  | op :: bs =>
    match decodeFields op.toNat bs with
    | none => .incomplete
    | some (none, _) => .illegal
    | some (some i, rest) => .instr i rest

/-- The decoder, total on any message: requests by R90 to R98, command frames by the table `cmd` (R103, R104). -/
def decode (cmd : CmdTable) : Inbound → Decoded
  | .request bytes => decodeRequest bytes
  | .command b =>
    match cmd.nameOf b with
    | some name => .instr name.instr []
    | none => .unassigned
  | .data bytes => .dataFrame bytes

/-- The bytes of a request (R95, R96); a WIRE instruction is no request and has none. -/
def encodeRequest : Instr → List Byte
  | .create rowMargin colMargin blPresent => 0x00 :: (putHalf rowMargin ++ putHalf colMargin ++ [putBool blPresent])
  | .reset => 0x01 :: []
  | .initialise width height orient => 0x02 :: (putHalf width ++ putHalf height ++ [orient])
  | .writeCommand code => 0x03 :: ([code])
  | .writeData data => 0x04 :: (putHalf (BitVec.ofNat 16 data.length) ++ data)
  | .setAddressWindow x0 y0 x1 y1 => 0x05 :: (putWord x0 ++ putWord y0 ++ putWord x1 ++ putWord y1)
  | .power on => 0x06 :: ([putBool on])
  | .backlight on => 0x07 :: ([putBool on])
  | .backlightQuery => 0x08 :: []
  | .invert on => 0x09 :: ([putBool on])
  | .packColor r g b => 0x0A :: ([r, g, b])
  | .setPixel x y color => 0x10 :: (putWord x ++ putWord y ++ putHalf color)
  | .fillRect x y w h color => 0x11 :: (putWord x ++ putWord y ++ putWord w ++ putWord h ++ putHalf color)
  | .hline x y len color => 0x12 :: (putWord x ++ putWord y ++ putWord len ++ putHalf color)
  | .vline x y len color => 0x13 :: (putWord x ++ putWord y ++ putWord len ++ putHalf color)
  | .line x0 y0 x1 y1 color => 0x14 :: (putWord x0 ++ putWord y0 ++ putWord x1 ++ putWord y1 ++ putHalf color)
  | .circle cx cy r color => 0x15 :: (putWord cx ++ putWord cy ++ putWord r ++ putHalf color)
  | .circleFilled cx cy r color hasFill fillColor =>
    0x16 :: (putWord cx ++ putWord cy ++ putWord r ++ putHalf color ++ [putBool hasFill] ++ putHalf fillColor)
  | .circleSegment cx cy r color quads fill hasFill fillColor =>
    0x17 :: (putWord cx ++ putWord cy ++ putWord r ++ putHalf color ++ [quads, putBool fill, putBool hasFill] ++ putHalf fillColor)
  | .text x y color scale fontW fontH fontStart fontEnd fontBase codes =>
    0x18 :: (putWord x ++ putWord y ++ putHalf color ++ [scale, fontW, fontH, fontStart, fontEnd] ++ putWord fontBase ++ putHalf (BitVec.ofNat 16 codes.length) ++ codes)
  | .swreset => []
  | .slpout => []
  | .noron => []
  | .invoff => []
  | .invon => []
  | .dispoff => []
  | .dispon => []
  | .caset => []
  | .raset => []
  | .ramwr => []
  | .madctl => []
  | .colmod => []
  | .frmctr1 => []
  | .frmctr2 => []
  | .frmctr3 => []
  | .invctr => []
  | .pwctr1 => []
  | .pwctr2 => []
  | .pwctr3 => []
  | .pwctr4 => []
  | .pwctr5 => []
  | .vmctr1 => []
  | .gmctrp1 => []
  | .gmctrn1 => []

/-- The encoder: the message an instruction is sent as, under the command table `cmd`. -/
def encode (cmd : CmdTable) (i : Instr) : Inbound :=
  match i.wireName with
  | some name => .command (cmd.code name)
  | none => .request (encodeRequest i)

/-- The lengths of R94, in bytes; a command frame carries one. -/
def Instr.length : Instr → Nat
  | .create _ _ _ => 6
  | .reset => 1
  | .initialise _ _ _ => 6
  | .writeCommand _ => 2
  | .writeData data => 3 + data.length
  | .setAddressWindow _ _ _ _ => 17
  | .power _ => 2
  | .backlight _ => 2
  | .backlightQuery => 1
  | .invert _ => 2
  | .packColor _ _ _ => 4
  | .setPixel _ _ _ => 11
  | .fillRect _ _ _ _ _ => 19
  | .hline _ _ _ _ => 15
  | .vline _ _ _ _ => 15
  | .line _ _ _ _ _ => 19
  | .circle _ _ _ _ => 15
  | .circleFilled _ _ _ _ _ _ => 18
  | .circleSegment _ _ _ _ _ _ _ _ => 20
  | .text _ _ _ _ _ _ _ _ _ codes => 22 + codes.length
  | .swreset => 1
  | .slpout => 1
  | .noron => 1
  | .invoff => 1
  | .invon => 1
  | .dispoff => 1
  | .dispon => 1
  | .caset => 1
  | .raset => 1
  | .ramwr => 1
  | .madctl => 1
  | .colmod => 1
  | .frmctr1 => 1
  | .frmctr2 => 1
  | .frmctr3 => 1
  | .invctr => 1
  | .pwctr1 => 1
  | .pwctr2 => 1
  | .pwctr3 => 1
  | .pwctr4 => 1
  | .pwctr5 => 1
  | .vmctr1 => 1
  | .gmctrp1 => 1
  | .gmctrn1 => 1

/-! ### The host's reading of an opcode-table word -/

/-- The first `n` bytes of a word: bit 0 of `w` is the least significant bit of the first byte. -/
def wordBytes : Nat → Nat → List Byte
  | 0, _ => []
  | n + 1, w => BitVec.ofNat 8 w :: wordBytes n (w / 256)

/-- A request's bytes from a word: the 22 bytes of the longest fixed part, and a zero for each operand byte that the
length field of WRITE_DATA or TEXT announces. -/
def requestBytes (w : Nat) : List Byte :=
  let head := wordBytes 22 w
  let n :=
    match w % 256 with
    | 0x04 => (be16 (head.getD 1 0) (head.getD 2 0)).toNat
    | 0x18 => (be16 (head.getD 20 0) (head.getD 21 0)).toNat
    | _ => 0
  head ++ List.replicate n 0

/-- The message of a table word. A word of one byte is a command frame where its byte is a default command code (0x11 and
0x13 too, which also begin the longer requests FILL_RECT and VLINE), but for 0x01, which is also the whole request RESET and
is read as that; any other word is a request (log 3). The request is cut to the bytes its instruction takes. -/
def tableMessage (nbits w : Nat) : Inbound :=
  let b : Byte := BitVec.ofNat 8 w
  if nbits ≤ 8 ∧ b ≠ 0x01 ∧ (CmdTable.default.nameOf b).isSome then .command b
  else
    let bytes := requestBytes (w % 2 ^ nbits)
    match decodeRequest bytes with
    | .instr _ rest => .request (bytes.take (bytes.length - rest.length))
    | _ => .request bytes

/-- The instruction the decoder reads from a word of spec/opcode_table.json. -/
def decodeTableWord (nbits w : Nat) : Option Instr :=
  match decode CmdTable.default (tableMessage nbits w) with
  | .instr i _ => some i
  | _ => none

end Sys2Proof
end

