-- ==== Sys2Proof/Machine/State.lean ====
section
/-! DEFINITION. The state of the machine (spec/10_state.md R22, R33): the block's session, lines, trace and
bookkeeping, the display controller, font memory, the run's parameters and the queue of what the machine has been
given. Plain data, every field at its value of R42 in `State.reset`. -/

namespace Sys2Proof.Machine

/-- A sparse store: keys strictly rising, an unlisted key holds nothing. -/
abbrev Sparse (α : Type) := List (Nat × α)

/-- Font memory `FONT_MEM` (R61): an unlisted address holds no byte (log 6). -/
abbrev Memory := List Host.Cell

/-- Frame memory (R40, R62): for each written row, its written columns. -/
abbrev Frame := Sparse (Sparse Half)

/-- `s.life` (R24). -/
inductive Lifecycle where
  | uninitialized
  | resetting
  | configuring
  | ready
  | failed
  deriving DecidableEq, Repr

/-- The GPIO lines (R28). -/
inductive Line where
  | dc
  | cs
  | rst
  | bl
  deriving DecidableEq, Repr

/-- A line level, 0 (`false`) or 1 (`true`) (R28). -/
abbrev Level := Bool

/-- `s.lvl`: the last level driven on each line, `none` where it was never driven (R28). -/
structure Levels where
  dc : Option Level
  cs : Option Level
  rst : Option Level
  bl : Option Level
  deriving DecidableEq, Repr

/-- The events of the trace (R29). -/
inductive Event where
  /-- line driven to a level -/
  | drive (line : Line) (level : Level)
  /-- one byte shifted out, with the level of DC at that time -/
  | byte (dc : Level) (b : Byte)
  /-- the k-th reset hold -/
  | hold (k : Nat)
  /-- the settle delay after bring-up step k -/
  | settle (k : Nat)
  /-- a bus transfer failed -/
  | busFail
  deriving DecidableEq, Repr

/-- The fault codes of R281. -/
inductive FaultCode where
  | illegalRequest
  | badSessionParameters
  | notReady
  | sessionUnusable
  | alreadyInitialized
  | resetNotAllowed
  | negativeCoordinate
  | nonPositiveExtent
  | negativeRadius
  | badScale
  | badFont
  | fontMemoryUnreadable
  | invalidWindow
  | outOfRange
  | busFailure
  | unknownWireCommand
  | backlightUnknown
  | windowOverrun
  | partialPixel
  | dataWithoutCommand
  | excessParameter
  | incompleteParameters
  | windowUnset
  | outOfGram
  deriving DecidableEq, Repr

/-- The state BACKLIGHT_QUERY reports (R32). -/
inductive BacklightReport where
  | on
  | off
  | unsupported
  deriving DecidableEq, Repr

/-- `s.ret`, the result of the last completed request (R32). -/
inductive Result where
  | unit
  /-- from INITIALIZE -/
  | status (ok : Bool)
  /-- from BACKLIGHT -/
  | backlight (supported : Bool)
  /-- from BACKLIGHT_QUERY -/
  | backlightState (report : BacklightReport)
  /-- from PACK_COLOR -/
  | color (v : Half)
  deriving DecidableEq, Repr

/-- The display controller's state `d` (R33). -/
structure Dev where
  /-- latched wire command (R37) -/
  cmd : Option Byte
  /-- data bytes since the latch (R37) -/
  params : List Byte
  /-- window columns and rows (R34) -/
  colS : Option Half
  colE : Option Half
  rowS : Option Half
  rowE : Option Half
  /-- a memory write is open (R35) -/
  ramwr : Bool
  /-- write pointer (R35) -/
  ptrC : Nat
  ptrR : Nat
  /-- high byte of a half-received pixel (R36) -/
  pend : Option Byte
  /-- mode registers (R38) -/
  sleepOut : Option Bool
  dispOn : Option Bool
  invOn : Option Bool
  normal : Option Bool
  madctl : Option Byte
  /-- opaque configuration registers, keyed by command code (R39) -/
  cfg : Sparse (List Byte)
  /-- frame memory (R40) -/
  gram : Frame
  deriving DecidableEq, Repr

/-- The block state `s` (R22), with font memory (R61), the run's parameters (R7 to R15) and the queue (log 1). -/
structure State where
  /-- lifecycle (R24) -/
  life : Lifecycle
  /-- ROW_MARGIN, COL_MARGIN (R23) -/
  rm : Option Half
  cm : Option Half
  /-- a backlight line is wired (R23) -/
  blPresent : Option Bool
  /-- panel size and orientation (R23) -/
  W : Option Nat
  H : Option Nat
  orient : Option (Fin 4)
  /-- session flags (R26) -/
  powerOn : Option Bool
  inverted : Option Bool
  blOn : Option Bool
  /-- line levels (R28) -/
  lvl : Levels
  /-- events emitted, oldest first (R29) -/
  trace : List Event
  /-- transfers started (R30) -/
  xfers : Nat
  /-- faults raised (R31) -/
  faults : List FaultCode
  /-- result of the last completed request (R32) -/
  ret : Result
  /-- the controller (R33) -/
  dev : Dev
  /-- font memory (R61) -/
  font : Memory
  /-- the run's parameters (R7 to R15; log 4) -/
  par : Params
  /-- given to the machine and not yet run, oldest first: the model's own field (log 1) -/
  pending : List Inbound
  deriving DecidableEq, Repr

/-- Why the machine stops. -/
inductive Fault where
  /-- `step` on a state whose `faults` is not empty: "a block with a fault recorded takes no step" (R280). The spec's
  own stop, so safe. -/
  | blockStopped
  deriving DecidableEq, Repr

/-- Why no step is taken. -/
inductive Refusal where
  /-- An arm of `exec` that has no meaning yet. No arm raises it. Safe. -/
  | notModelled (mnemonic : String)
  /-- `step` with nothing pending: the block waits for a request (R310, R292). Safe (log 16). -/
  | noRequest
  /-- `step` on a byte string that ends before the request is complete: "the decoder refuses it and the block takes no
  step" (R94). Safe (log 16). -/
  | incompleteRequest
  /-- `step` on a command frame whose byte is no command's code: the model defines no controller behaviour for it (R204).
  Safe (log 16). -/
  | unassignedWireCommand
  deriving DecidableEq, Repr

/-- The controller at power-up: the "power-up" column of R42. The write pointer is "not read" there: 0 is the
model's choice (DESIGN CHOICE, log 7). -/
def Dev.powerUp : Dev where
  cmd := none
  params := []
  colS := none
  colE := none
  rowS := none
  rowE := none
  ramwr := false
  ptrC := 0
  ptrR := 0
  pend := none
  sleepOut := none
  dispOn := none
  invOn := none
  normal := none
  madctl := none
  cfg := []
  gram := []

/-- The block at power-up (R42, R310), for the run parameters and the font memory given. -/
def State.powerUp (par : Params) (font : Memory) : State where
  life := .uninitialized
  rm := none
  cm := none
  blPresent := none
  W := none
  H := none
  orient := none
  powerOn := none
  inverted := none
  blOn := none
  lvl := { dc := none, cs := none, rst := none, bl := none }
  trace := []
  xfers := 0
  faults := []
  ret := .unit
  dev := Dev.powerUp
  font := font
  par := par
  pending := []

/-- The parameters at reset: the spec's defaults where it gives one (`CMD` R9, `CLIP_POLICY` R14, bit order and mode of
the SPI link R13), an opaque constant where it leaves the parameter OPEN (log 4). -/
def resetParams : Params where
  cmd := CmdTable.default
  init := Config.initParams
  initDelay := Config.initDelay
  resetHold := Config.resetHold
  gramLimit := Config.gramLimit
  clip := .silent
  spi := { bitOrder := .msbFirst, mode := 0, clock := Config.spiClock }
  busFails := Config.busFails

/-- The machine right after reset: power-up with nothing in font memory (R42, R310; log 4, log 6). -/
def State.reset : State := State.powerUp resetParams []

end Sys2Proof.Machine
end

