-- ==== Sys2Proof/Machine/Memory.lean ====
section
/-! DEFINITION. The operations over the address spaces (spec/20_memory.md R60 to R62): sparse stores in one canonical form,
font memory, and the controller's frame memory. -/

namespace Sys2Proof.Machine

/-! ### Sparse stores -/

/-- What a key holds. -/
def Sparse.get {α : Type} (key : Nat) : Sparse α → Option α
  | [] => none
  | (k, a) :: rest => if key < k then none else if key = k then some a else Sparse.get key rest

/-- Give a key a value; the keys stay strictly rising. -/
def Sparse.set {α : Type} (key : Nat) (v : α) : Sparse α → Sparse α
  | [] => [(key, v)]
  | (k, a) :: rest =>
    if key < k then (key, v) :: (k, a) :: rest
    else if key = k then (key, v) :: rest
    else (k, a) :: Sparse.set key v rest

/-- Take a key's value away. -/
def Sparse.remove {α : Type} (key : Nat) : Sparse α → Sparse α
  | [] => []
  | (k, a) :: rest =>
    if key < k then (k, a) :: rest
    else if key = k then rest
    else (k, a) :: Sparse.remove key rest

/-- Every key is above `low` and the keys rise strictly. -/
def Sparse.above {α : Type} (low : Nat) : Sparse α → Bool
  | [] => true
  | (k, _) :: rest => decide (low < k) && Sparse.above k rest

/-- The canonical form: keys strictly rising. -/
def Sparse.wf {α : Type} : Sparse α → Bool
  | [] => true
  | (k, _) :: rest => Sparse.above k rest

/-! ### Font memory (R61) -/

/-- The canonical form of font memory: addresses strictly rising; no entry reads as an unlisted address does, because
an unlisted address holds no byte. -/
def Memory.wf (m : Memory) : Bool := Sparse.wf m

/-- `MemRead(a, 1)` (R61, R17): the byte, or `none` where the address cannot be read. No side effect. -/
def Memory.read (m : Memory) (a : Nat) : Option Byte := Sparse.get a m

/-- The host puts a byte into font memory, or takes it away, before the run (R315); the block never writes it. -/
def Memory.place (m : Memory) (a : Nat) : Option Byte → Memory
  | some b => Sparse.set a b m
  | none => Sparse.remove a m

/-! ### Frame memory (R40, R62) -/

/-- `d.gram(c, r)` (R40). -/
def Frame.get (g : Frame) (c r : Nat) : Option Half :=
  match Sparse.get r g with
  | some row => Sparse.get c row
  | none => none

/-- `GramWrite(c, r, v)` (R62). -/
def Frame.write (g : Frame) (c r : Nat) (v : Half) : Frame :=
  Sparse.set r (Sparse.set c v ((Sparse.get r g).getD [])) g

/-- The canonical form of frame memory: rows strictly rising, each listed row non-empty with columns strictly rising. -/
def Frame.wf (g : Frame) : Bool :=
  Sparse.wf g && g.all fun row => Sparse.wf row.2 && !row.2.isEmpty

end Sys2Proof.Machine
end

