-- ==== Sys2Proof/Machine/Controller.lean ====
section
/-! DEFINITION. The display controller (spec/41_device_controller.md): what each byte of the wire and the reset line do
to the controller's state. Every function answers the new state, or the fault with the state at the fault: nothing is
rolled back (spec/60_exceptions.md R280). -/

namespace Sys2Proof.Machine

/-- The controller after a byte, or the fault it raises and the controller then. -/
abbrev DevRun := Except (FaultCode × Dev) Dev

/-- `DevUnknown` (R171): every field the rule names holds nothing. The write pointer is not named, so it is kept; it
is not read until the next RAMWR (R35; log 7). -/
def Dev.forget (d : Dev) : Dev :=
  { d with
    cmd := none, params := [], colS := none, colE := none, rowS := none, rowE := none, ramwr := false, pend := none,
    sleepOut := none, dispOn := none, invOn := none, normal := none, madctl := none, cfg := [], gram := [] }

/-- `GRAM_LIMIT(o)` (R12). -/
def gramLimitOf (l : GramLimits) : Fin 4 → Extent
  | 0 => l.o0
  | 1 => l.o1
  | 2 => l.o2
  | 3 => l.o3

/-- A 16-bit bound from two parameter bytes, high byte first (R175, R176). -/
def paramBound (params : List Byte) (k : Nat) : Half := be16 (params.getD k 0) (params.getD (k + 1) 0)

/-! ### What each command does when its byte arrives ("on latch"), after the steps of R172 -/

/-- R182: `DevUnknown`, then the command is latched again. -/
def latchSwreset (b : Byte) (d : Dev) : DevRun := .ok { d.forget with cmd := some b, params := [] }

/-- R183. -/
def latchSlpout (d : Dev) : DevRun := .ok { d with sleepOut := some true }

/-- R201. -/
def latchNoron (d : Dev) : DevRun := .ok { d with normal := some true }

/-- R195. -/
def latchInvoff (d : Dev) : DevRun := .ok { d with invOn := some false }

/-- R196. -/
def latchInvon (d : Dev) : DevRun := .ok { d with invOn := some true }

/-- R203. -/
def latchDispoff (d : Dev) : DevRun := .ok { d with dispOn := some false }

/-- R202. -/
def latchDispon (d : Dev) : DevRun := .ok { d with dispOn := some true }

/-- R177: the window must be set and in order; the pointer goes to its first corner. -/
def latchRamwr (d : Dev) : DevRun :=
  match d.colS, d.colE, d.rowS, d.rowE with
  | some colS, some colE, some rowS, some rowE =>
    if colE.toNat < colS.toNat ∨ rowE.toNat < rowS.toNat then .error (.windowUnset, d)
    else .ok { d with ramwr := true, ptrC := colS.toNat, ptrR := rowS.toNat, pend := none }
  | _, _, _, _ => .error (.windowUnset, d)

/-- R184: `d.cfg(b) <- []`. -/
def latchOpaque (b : Byte) (d : Dev) : DevRun := .ok { d with cfg := Sparse.set b.toNat [] d.cfg }

/-- `OnLatch(name)` (R172): CASET (R175), RASET (R176) and MADCTL (R197) do nothing beyond R172. -/
def onLatch (b : Byte) (d : Dev) : WireName → DevRun
  | .swreset => latchSwreset b d
  | .slpout => latchSlpout d
  | .noron => latchNoron d
  | .invoff => latchInvoff d
  | .invon => latchInvon d
  | .dispoff => latchDispoff d
  | .dispon => latchDispon d
  | .caset => .ok d
  | .raset => .ok d
  | .ramwr => latchRamwr d
  | .madctl => .ok d
  | .colmod => latchOpaque b d
  | .frmctr1 => latchOpaque b d
  | .frmctr2 => latchOpaque b d
  | .frmctr3 => latchOpaque b d
  | .invctr => latchOpaque b d
  | .pwctr1 => latchOpaque b d
  | .pwctr2 => latchOpaque b d
  | .pwctr3 => latchOpaque b d
  | .pwctr4 => latchOpaque b d
  | .pwctr5 => latchOpaque b d
  | .vmctr1 => latchOpaque b d
  | .gmctrp1 => latchOpaque b d
  | .gmctrn1 => latchOpaque b d

/-! ### What each command does with a parameter byte, which stands last in `d.params` already (R173) -/

/-- R182, R183, R195, R196, R201 to R203: the command takes no parameter. Also the answer for a RAMWR that is not open,
which only a block that has stopped can hold (log 10). -/
def paramNone (d : Dev) : DevRun := .error (.excessParameter, d)

/-- R175. -/
def paramCaset (d : Dev) : DevRun :=
  if d.params.length = 4 then
    .ok { d with colS := some (paramBound d.params 0), colE := some (paramBound d.params 2) }
  else if 4 < d.params.length then .error (.excessParameter, d)
  else .ok d

/-- R176. -/
def paramRaset (d : Dev) : DevRun :=
  if d.params.length = 4 then
    .ok { d with rowS := some (paramBound d.params 0), rowE := some (paramBound d.params 2) }
  else if 4 < d.params.length then .error (.excessParameter, d)
  else .ok d

/-- R197. -/
def paramMadctl (d : Dev) : DevRun :=
  if d.params.length = 1 then .ok { d with madctl := d.params.head? }
  else if 1 < d.params.length then .error (.excessParameter, d)
  else .ok d

/-- R184: `d.cfg(b) <- d.params`. -/
def paramOpaque (b : Byte) (d : Dev) : DevRun := .ok { d with cfg := Sparse.set b.toNat d.params d.cfg }

/-- `OnParam(name)` (R173), for the latched code `b`. -/
def onParam (b : Byte) (d : Dev) : WireName → DevRun
  | .swreset => paramNone d
  | .slpout => paramNone d
  | .noron => paramNone d
  | .invoff => paramNone d
  | .invon => paramNone d
  | .dispoff => paramNone d
  | .dispon => paramNone d
  | .caset => paramCaset d
  | .raset => paramRaset d
  | .ramwr => paramNone d
  | .madctl => paramMadctl d
  | .colmod => paramOpaque b d
  | .frmctr1 => paramOpaque b d
  | .frmctr2 => paramOpaque b d
  | .frmctr3 => paramOpaque b d
  | .invctr => paramOpaque b d
  | .pwctr1 => paramOpaque b d
  | .pwctr2 => paramOpaque b d
  | .pwctr3 => paramOpaque b d
  | .pwctr4 => paramOpaque b d
  | .pwctr5 => paramOpaque b d
  | .vmctr1 => paramOpaque b d
  | .gmctrp1 => paramOpaque b d
  | .gmctrn1 => paramOpaque b d

/-! ### Pixels of an open memory write -/

/-- "`d.madctl = none` or `d.madctl ∉ MAD_TABLE`", else `GRAM_LIMIT(o)` (R179, R181). -/
def Dev.extent (par : Params) (d : Dev) : Option Extent :=
  (d.madctl.bind madIndex).map (gramLimitOf par.gramLimit)

/-- The pointer's move inside the window: column-first, then down a row (R179). -/
def Dev.advance (colS colE : Half) (d : Dev) : Dev :=
  if d.ptrC < colE.toNat then { d with ptrC := d.ptrC + 1 }
  else { d with ptrC := colS.toNat, ptrR := d.ptrR + 1 }

/-- `PixelWrite(v)` (R179, R180, R181). An open memory write always has its window; a state without one, which no run
reaches, raises `WindowUnset` (log 10). -/
def pixelWrite (par : Params) (v : Half) (d : Dev) : DevRun :=
  match d.colS, d.colE, d.rowE with
  | some colS, some colE, some rowE =>
    if rowE.toNat < d.ptrR then .error (.windowOverrun, d)
    else
      match d.extent par with
      | none => .error (.outOfGram, d)
      | some lim =>
        if lim.cols ≤ d.ptrC ∨ lim.rows ≤ d.ptrR then .error (.outOfGram, d)
        else .ok (Dev.advance colS colE { d with gram := d.gram.write d.ptrC d.ptrR v })
  | _, _, _ => .error (.windowUnset, d)

/-- `PixelByte(b)` (R178): the first byte is the high byte. -/
def pixelByte (par : Params) (b : Byte) (d : Dev) : DevRun :=
  match d.pend with
  | none => .ok { d with pend := some b }
  | some high => pixelWrite par (be16 high b) { d with pend := none }

/-! ### Reception -/

/-- "`d.cmd ∈ {CMD[CASET], CMD[RASET]}` and `1 ≤ len(d.params) ≤ 3`" (R172). -/
def Dev.cutShort (cmd : CmdTable) (d : Dev) : Bool :=
  (d.cmd == some cmd.caset || d.cmd == some cmd.raset) && decide (1 ≤ d.params.length ∧ d.params.length ≤ 3)

/-- `DevCommand(b)` (R172). A byte that is no command's code never reaches the controller (R204); in a state where one
does, which no run reaches, it raises `UnknownWireCommand` (log 10). -/
def devCommand (par : Params) (b : Byte) (d : Dev) : DevRun :=
  if d.pend.isSome then .error (.partialPixel, d)
  else if d.cutShort par.cmd then .error (.incompleteParameters, d)
  else
    match par.cmd.nameOf b with
    | some name => onLatch b { d with ramwr := false, cmd := some b, params := [] } name
    | none => .error (.unknownWireCommand, d)

/-- `DevData(b)` (R173); a latched byte that is no command's code is treated as in `devCommand` (log 10). -/
def devData (par : Params) (b : Byte) (d : Dev) : DevRun :=
  match d.cmd with
  | none => .error (.dataWithoutCommand, d)
  | some c =>
    if d.ramwr then pixelByte par b d
    else
      let d := { d with params := d.params ++ [b] }
      match par.cmd.nameOf c with
      | some name => onParam c d name
      | none => .error (.unknownWireCommand, d)

/-- `DevByte(dc, b)` (R170). -/
def devByte (par : Params) (dc : Level) (b : Byte) (d : Dev) : DevRun :=
  if dc then devData par b d else devCommand par b d

/-- What became of the bytes of one frame: those shifted out, the last of them the faulting one where there is a
fault; the controller then; and the fault. -/
structure FrameRun where
  sent : List Byte
  dev : Dev
  fault : Option FaultCode
  deriving DecidableEq, Repr

/-- The bytes of one frame, in order, until the first fault (R131, R280). -/
def devFrame (par : Params) (dc : Level) : List Byte → Dev → FrameRun
  | [], d => { sent := [], dev := d, fault := none }
  | b :: bs, d =>
    match devByte par dc b d with
    | .ok d' =>
      let rest := devFrame par dc bs d'
      { sent := b :: rest.sent, dev := rest.dev, fault := rest.fault }
    | .error (f, d') => { sent := [b], dev := d', fault := some f }

end Sys2Proof.Machine
end

