-- ==== Sys2Proof/Machine/Flags.lean ====
section
/-! DEFINITION. The session flags (spec/10_state.md R26), the results (R32, R100) and the fault codes' numbers (R281). The
block has no condition codes. -/

namespace Sys2Proof.Machine

/-- `s.powerOn <- on` (R140). -/
def State.setPower (s : State) (on : Bool) : State := { s with powerOn := some on }

/-- `s.inverted <- on` (R143). -/
def State.setInverted (s : State) (on : Bool) : State := { s with inverted := some on }

/-- `s.blOn <- on` (R141). -/
def State.setBacklight (s : State) (on : Bool) : State := { s with blOn := some on }

/-- `s.ret <- r` (R32). -/
def State.answer (s : State) (r : Result) : State := { s with ret := r }

/-- The byte form of a result (R100). -/
def Result.bytes : Result → List Byte
  | .unit => [0x00]
  | .status true => [0x01, 0x00]
  | .status false => [0x01, 0x01]
  | .backlight true => [0x02, 0x00]
  | .backlight false => [0x02, 0x01]
  | .backlightState .off => [0x03, 0x00]
  | .backlightState .on => [0x03, 0x01]
  | .backlightState .unsupported => [0x03, 0x02]
  | .color v => [0x04, hi8 v, lo8 v]

/-- The fault codes' numbers (R281). -/
def FaultCode.number : FaultCode → Byte
  | .illegalRequest => 0x01
  | .badSessionParameters => 0x02
  | .notReady => 0x03
  | .sessionUnusable => 0x04
  | .alreadyInitialized => 0x05
  | .resetNotAllowed => 0x06
  | .negativeCoordinate => 0x07
  | .nonPositiveExtent => 0x08
  | .negativeRadius => 0x09
  | .badScale => 0x0A
  | .badFont => 0x0B
  | .fontMemoryUnreadable => 0x0C
  | .invalidWindow => 0x0D
  | .outOfRange => 0x0E
  | .busFailure => 0x0F
  | .unknownWireCommand => 0x10
  | .backlightUnknown => 0x11
  | .windowOverrun => 0x12
  | .partialPixel => 0x13
  | .dataWithoutCommand => 0x14
  | .excessParameter => 0x15
  | .incompleteParameters => 0x16
  | .windowUnset => 0x17
  | .outOfGram => 0x18

end Sys2Proof.Machine
end

