-- ==== Sys2Proof/Machine/Operands.lean ====
section
/-! DEFINITION. The operand forms of the requests (spec/30_encoding.md R92, R93, R110) and the bytes they turn into on
the wire (R105, R106). -/

namespace Sys2Proof.Machine

/-- An `s32` operand's integer, `sext_32(w)` (R16, R92). -/
def sext32 (w : Word) : Int := w.toInt

/-- A circle's quadrants: upper is smaller `y`, left is smaller `x` (R19, R229). -/
inductive Quadrant where
  | ul
  | ur
  | ll
  | lr
  deriving DecidableEq, Repr

/-- The bit of the `quads` mask (R93). -/
def Quadrant.bit : Quadrant → Nat
  | .ul => 0
  | .ur => 1
  | .ll => 2
  | .lr => 3

/-- Whether the mask selects the quadrant (R93). -/
def selects (quads : Byte) (q : Quadrant) : Bool := quads.getLsbD q.bit

/-- All four quadrants, the source's `None` (R93). -/
def allQuadrants : Byte := 0x0F

/-- RGB565: each channel keeps its top bits, red uppermost (R110, R221). -/
def packColor (r g b : Byte) : Half :=
  BitVec.ofNat 16 (((r.toNat >>> 3) <<< 11) ||| ((g.toNat >>> 2) <<< 5) ||| (b.toNat >>> 3))

/-- "fill color defaults to the outline color if unspecified" (R96, R232, R233). -/
def fillChoice (color : Half) (hasFill : Bool) (fillColor : Half) : Half :=
  if hasFill then fillColor else color

/-- A logical coordinate's physical address: the margin added, as a 16-bit bound (R19, R139). -/
def physical (v : Int) (margin : Nat) : Half := BitVec.ofInt 16 (v + margin)

/-- A CASET or RASET parameter block: first and last address, high byte first (R106). -/
def boundBytes (a b : Half) : List Byte := [hi8 a, lo8 a, hi8 b, lo8 b]

/-- `PIX(v)` (R18, R64, R105). -/
def pixelBytes (v : Half) : List Byte := [hi8 v, lo8 v]

/-- `PIX(v)` repeated `n` times (R220). -/
def pixelStream (v : Half) : Nat → List Byte
  | 0 => []
  | n + 1 => hi8 v :: lo8 v :: pixelStream v n

end Sys2Proof.Machine
end

