-- ==== Sys2Proof/Machine/Ops.lean ====
section
/-! DEFINITION. The operations the requests share: raising a fault (spec/60_exceptions.md R280), driving lines and the
transfer primitive (spec/40_protocol_engine.md R131, R132, R138, R139, R146), plotting (spec/42_rasterizer_shapes.md
R220), and fetching the next message. -/

namespace Sys2Proof.Machine

/-- A request under way: `ok s`, it goes on in `s`; `error s`, it ended in `s` by a fault, recorded there (R280). -/
abbrev Run := Except State State

/-- The state a request ends in. -/
def Run.state : Run → State
  | .ok s => s
  | .error s => s

/-- A request's step: it always has a next state, whether it completed or ended by a fault (R280; log 8). -/
def complete (r : Run) : Host.Outcome State Fault Refusal := .next r.state

/-! ### Faults (R280) -/

/-- The recording of a fault: nothing else changes. -/
def State.withFault (s : State) (f : FaultCode) : State := { s with faults := s.faults ++ [f] }

/-- `raise F` (R280): the fault is recorded and the request ends; `s.ret` is not written, nothing is rolled back, and no
fault but `BusFailure`'s own rule changes `s.life`. -/
def raise (f : FaultCode) (s : State) : Run := .error (s.withFault f)

/-! ### Lines and events (R17, R28, R29) -/

/-- The levels after a line is driven (R28). -/
def Levels.drive (l : Levels) : Line → Level → Levels
  | .dc, v => { l with dc := some v }
  | .cs, v => { l with cs := some v }
  | .rst, v => { l with rst := some v }
  | .bl, v => { l with bl := some v }

/-- `emit(e)` (R17): the trace is append-only (R29). -/
def emit (e : Event) (s : State) : State := { s with trace := s.trace ++ [e] }

/-- What a line drive does to the controller: RST driven to 0 resets it (R171), no other drive changes a field
(R170, R174). -/
def Dev.onDrive (d : Dev) : Line → Level → Dev
  | .rst, false => d.forget
  | _, _ => d

/-- `Drive(l, v)` (R17, R28, R171). -/
def drive (l : Line) (v : Level) (s : State) : State :=
  { s with lvl := s.lvl.drive l v, trace := s.trace ++ [.drive l v], dev := s.dev.onDrive l v }

/-- `Hold(k)` (R17). -/
def hold (k : Nat) (s : State) : State := emit (.hold k) s

/-- `Settle(k)` (R17). -/
def settle (k : Nat) (s : State) : State := emit (.settle k) s

/-! ### The bus primitive (R131) -/

/-- `BUS_OK(n)` (R15; log 5). -/
def busOk (par : Params) (n : Nat) : Bool := !par.busFails.contains n

/-- What a transfer, or a run of transfers, ends in. -/
inductive Sending where
  /-- it completed -/
  | ok (s : State)
  /-- a transfer failed: the bus, not a fault -/
  | fail (s : State)
  /-- the controller raised a fault, recorded in the state -/
  | raised (s : State)
  deriving DecidableEq, Repr

/-- The start of a transfer: it is counted, DC is driven, CS is asserted (R131). -/
def xferStart (dc : Level) (s : State) : State :=
  drive .cs false (drive .dc dc { s with xfers := s.xfers + 1 })

/-- A failed transfer: neither the controller's state nor the level of CS is known (R131, U2). -/
def xferFailed (s : State) : State :=
  { s with trace := s.trace ++ [.busFail], dev := s.dev.forget, lvl := { s.lvl with cs := none } }

/-- A frame's bytes on the bus: those shifted out join the trace and the controller consumes them (R131, R170). -/
def xferBytes (dc : Level) (r : FrameRun) (s : State) : State :=
  { s with trace := s.trace ++ r.sent.map (Event.byte dc), dev := r.dev }

/-- `Xfer(dc, bytes)` (R131). A controller fault ends the request at its byte, with CS still asserted (R280). -/
def xfer (dc : Level) (bytes : List Byte) (s : State) : Sending :=
  let n := s.xfers
  let s := xferStart dc s
  if busOk s.par n then
    let r := devFrame s.par dc bytes s.dev
    let s := xferBytes dc r s
    match r.fault with
    | some f => .raised (s.withFault f)
    | none => .ok (drive .cs true s)
  else .fail (xferFailed s)

/-- A bus failure outside INITIALIZE: `s.life <- Failed`, then `BusFailure` (R132). -/
def busFailure (s : State) : Run := raise .busFailure { s with life := .failed }

/-- A transfer's end as a run's: a failed one goes where its sender says. -/
def Sending.orElse (onFail : State → Run) : Sending → Run
  | .ok s => .ok s
  | .fail s => onFail s
  | .raised s => .error s

/-- A transfer of a request other than INITIALIZE (R132). -/
def send (dc : Level) (bytes : List Byte) (s : State) : Run := (xfer dc bytes s).orElse busFailure

/-- `wcmd(name)` (R132). -/
def wcmd (name : WireName) (s : State) : Run := send false [s.par.cmd.code name] s

/-- `wdata(bytes)` (R132). -/
def wdata (bytes : List Byte) (s : State) : Run := send true bytes s

/-! ### Session checks and the reset pulse -/

/-- `ReadyGate()` (R146). -/
def readyGate (s : State) : Run :=
  if s.life = .failed then raise .sessionUnusable s
  else if s.life ≠ .ready then raise .notReady s
  else .ok s

/-- What a ready session has fixed (R23): the panel's size and margins. -/
structure Panel where
  width : Nat
  height : Nat
  rm : Nat
  cm : Nat
  deriving DecidableEq, Repr

/-- The session's panel, where the session has one. -/
def State.panel (s : State) : Option Panel :=
  match s.W, s.H, s.rm, s.cm with
  | some w, some h, some rm, some cm => some { width := w, height := h, rm := rm.toNat, cm := cm.toNat }
  | _, _, _, _ => none

/-- A request that needs the panel, after `ReadyGate()`. A ready session always has one; a state without, which no run
reaches, raises `NotReady`, the fault the gate names (R16; log 10). -/
def withPanel (k : Panel → State → Run) (s : State) : Run := do
  let s ← readyGate s
  match s.panel with
  | some p => k p s
  | none => raise .notReady s

/-- `ResetPulse()` (R138). -/
def resetPulse (s : State) : State :=
  hold 2 (drive .rst true (hold 1 (drive .rst false (hold 0 (drive .rst true s)))))

/-- `Window(x0, y0, x1, y1)` (R139): rows first, then columns, then the memory write. -/
def window (p : Panel) (x0 y0 x1 y1 : Int) (s : State) : Run := do
  let s ← wcmd .raset s
  let s ← wdata (boundBytes (physical y0 p.rm) (physical y1 p.rm)) s
  let s ← wcmd .caset s
  let s ← wdata (boundBytes (physical x0 p.cm) (physical x1 p.cm)) s
  wcmd .ramwr s

/-! ### Plotting (R220) -/

/-- What a clip or skip does: nothing, or `OutOfRange` under `CLIP_POLICY = fault` (R220, R234). -/
def clipped (s : State) : Run :=
  match s.par.clip with
  | .fault => raise .outOfRange s
  | .silent => .ok s

/-- `Plot(x, y, c)` (R220). -/
def plot (p : Panel) (x y : Int) (c : Half) (s : State) : Run :=
  if x < 0 ∨ y < 0 then raise .negativeCoordinate s
  else if (p.width : Int) ≤ x ∨ (p.height : Int) ≤ y then clipped s
  else do
    let s ← window p x y x y s
    wdata (pixelBytes c) s

/-- `Rect(x, y, w, h, c)` (R220): the pixel stream is one data frame. -/
def rect (p : Panel) (x y w h : Int) (c : Half) (s : State) : Run :=
  if x < 0 ∨ y < 0 then raise .negativeCoordinate s
  else if w ≤ 0 ∨ h ≤ 0 then raise .nonPositiveExtent s
  else if (p.width : Int) ≤ x ∨ (p.height : Int) ≤ y then clipped s
  else
    let w' := min w (p.width - x)
    let h' := min h (p.height - y)
    if s.par.clip = .fault ∧ (w' < w ∨ h' < h) then raise .outOfRange s
    else do
      let s ← window p x y (x + w' - 1) (y + h' - 1) s
      wdata (pixelStream c (w' * h').toNat) s

/-! ### Fetching the next message (R21, R94, R97, R280; log 1, log 9) -/

/-- What the machine is to do next. -/
inductive Fetched where
  /-- run this instruction in this state, the message taken from the queue -/
  | run (i : Instr) (s : State)
  /-- put this data frame on the wire, in this state -/
  | dataFrame (bytes : List Byte) (s : State)
  /-- an illegal request: the fault is raised, nothing else is done -/
  | illegal
  /-- no step, for this reason -/
  | refuse (r : Refusal)
  /-- no step: a fault is recorded -/
  | stopped
  deriving DecidableEq, Repr

/-- The queue once the first message is consumed up to its undecoded bytes. -/
def leftover (bytes : List Byte) (rest : List Inbound) : List Inbound :=
  match bytes with
  | [] => rest
  | b :: bs => .request (b :: bs) :: rest

/-- The check that comes before every request (R280), then the decoding of the oldest message. -/
def fetch (s : State) : Fetched :=
  if s.faults ≠ [] then .stopped
  else
    match s.pending with
    | [] => .refuse .noRequest
    | m :: rest =>
      match decode s.par.cmd m with
      | .instr i bytes => .run i { s with pending := leftover bytes rest }
      | .dataFrame bytes => .dataFrame bytes { s with pending := rest }
      | .illegal => .illegal
      | .incomplete => .refuse .incompleteRequest
      | .unassigned => .refuse .unassignedWireCommand

/-- A message put first in the queue, where `fetch` looks. -/
def State.withMessage (s : State) (m : Inbound) : State := { s with pending := m :: s.pending }

end Sys2Proof.Machine
end

