-- ==== Sys2Proof/Machine/Engine.lean ====
section
/-! DEFINITION. The protocol engine's requests (spec/40_protocol_engine.md): CREATE, RESET, INITIALIZE, the two bus
primitives, the window, power, backlight and inversion. -/

namespace Sys2Proof.Machine

/-- CREATE (R130): a new session; lines, trace, transfers, faults and controller are kept. -/
def execCreate (rowMargin colMargin : Half) (blPresent : Bool) (s : State) : Host.Outcome State Fault Refusal :=
  .next
    { s with
      life := .uninitialized, rm := some rowMargin, cm := some colMargin, blPresent := some blPresent,
      W := none, H := none, orient := none, powerOn := none, inverted := none, blOn := none, ret := .unit }

/-- RESET (R138): the reset pulse, in `Uninitialized` only. -/
def execReset (s : State) : Host.Outcome State Fault Refusal :=
  complete <|
    if s.life = .failed then raise .sessionUnusable s
    else if s.life ≠ .uninitialized then raise .resetNotAllowed s
    else .ok ((resetPulse s).answer .unit)

/-! ### INITIALIZE (R135 to R137) -/

/-- One bring-up step: its number, its command, its parameter bytes. -/
structure BringUpStep where
  k : Nat
  name : WireName
  params : List Byte
  deriving DecidableEq, Repr

/-- `INIT_SEQ` (R136), with the orientation byte of step 14. -/
def initSeq (init : InitParams) (orient : Fin 4) : List BringUpStep :=
  [⟨1, .swreset, []⟩, ⟨2, .slpout, []⟩, ⟨3, .frmctr1, init.frmctr1⟩, ⟨4, .frmctr2, init.frmctr2⟩,
   ⟨5, .frmctr3, init.frmctr3⟩, ⟨6, .invctr, init.invctr⟩, ⟨7, .pwctr1, init.pwctr1⟩, ⟨8, .pwctr2, init.pwctr2⟩,
   ⟨9, .pwctr3, init.pwctr3⟩, ⟨10, .pwctr4, init.pwctr4⟩, ⟨11, .pwctr5, init.pwctr5⟩, ⟨12, .vmctr1, init.vmctr1⟩]
  ++ [⟨13, .invoff, []⟩, ⟨14, .madctl, [madTable orient]⟩, ⟨15, .colmod, init.colmod⟩, ⟨16, .caset, init.caset⟩,
   ⟨17, .raset, init.raset⟩, ⟨18, .gmctrp1, init.gmctrp1⟩, ⟨19, .gmctrn1, init.gmctrn1⟩, ⟨20, .noron, []⟩,
   ⟨21, .dispon, []⟩]

/-- `INIT_DELAY[k]` for k = 1, 2, ... (R10, R318). -/
def initDelayOf (par : Params) (k : Nat) : Option Nat := (par.initDelay.getD (k - 1) none)

/-- A step's parameter frame, sent only when there are parameters (R135, R136). An empty CASET or RASET list, which R136 rules
out, sends no frame and so raises nothing, as the pseudocode of R135, R172 and R175 has it: the bring-up goes on with that
pair of the window unset, although R136 names a fault for every length but 4 (DESIGN CHOICE, log 19). -/
def sendParams (params : List Byte) (s : State) : Sending :=
  if params = [] then .ok s else xfer true params s

/-- The settle event after step `k`, where the step has a delay (R135, R318). -/
def settleAfter (k : Nat) (s : State) : State :=
  if (initDelayOf s.par k).isSome then settle k s else s

/-- One bring-up step (R135). -/
def bringUpStep (st : BringUpStep) (s : State) : Sending :=
  match xfer false [s.par.cmd.code st.name] s with
  | .ok s =>
    match sendParams st.params s with
    | .ok s => .ok (settleAfter st.k s)
    | r => r
  | r => r

/-- The bring-up steps in order, until the first that fails or faults (R135, R137). -/
def bringUp : List BringUpStep → State → Sending
  | [], s => .ok s
  | st :: rest, s =>
    match bringUpStep st s with
    | .ok s => bringUp rest s
    | r => r

/-- "no CREATE since power-up; `width < 1`, `height < 1`, `orient > 3`; or a margin sum over 0xFFFF" (R135, R281); else
the orientation index. -/
def sessionParameters (width height : Half) (orient : Byte) (s : State) : Option (Fin 4) :=
  match s.rm, s.cm with
  | some rm, some cm =>
    if width.toNat < 1 ∨ height.toNat < 1 then none
    else if 0xFFFF < width.toNat - 1 + cm.toNat ∨ 0xFFFF < height.toNat - 1 + rm.toNat then none
    else if h : orient.toNat < 4 then some ⟨orient.toNat, h⟩
    else none
  | _, _ => none

/-- The session during bring-up: size and orientation taken, the pulse sent, then `Configuring` (R135). -/
def startBringUp (width height : Half) (orient : Fin 4) (s : State) : State :=
  { resetPulse
      { s with W := some width.toNat, H := some height.toNat, orient := some orient, life := .resetting } with
    life := .configuring }

/-- INITIALIZE (R135), with the outcomes of R137 and R280. -/
def execInitialise (width height : Half) (orient : Byte) (s : State) : Host.Outcome State Fault Refusal :=
  complete <|
    if s.life = .failed then raise .sessionUnusable s
    else if s.life ≠ .uninitialized then raise .alreadyInitialized s
    else
      match sessionParameters width height orient s with
      | none => raise .badSessionParameters s
      | some o =>
        match bringUp (initSeq s.par.init o) (startBringUp width height o s) with
        | .ok s => .ok (({ s with life := .ready }.setPower true).setInverted false |>.answer (.status true))
        | .fail s => .ok ({ s with life := .failed }.answer (.status false))
        | .raised s => .error s

/-! ### The two bus primitives as requests -/

/-- WRITE_COMMAND (R133). No session flag is written, whatever the command. -/
def execWriteCommand (code : Byte) (s : State) : Host.Outcome State Fault Refusal :=
  complete do
    let s ← readyGate s
    if (s.par.cmd.nameOf code).isNone then raise .unknownWireCommand s
    else do
      let s ← send false [code] s
      .ok (s.answer .unit)

/-- WRITE_DATA (R134). -/
def execWriteData (data : List Byte) (s : State) : Host.Outcome State Fault Refusal :=
  complete do
    let s ← readyGate s
    let s ← wdata data s
    .ok (s.answer .unit)

/-! ### Window, power, backlight, inversion -/

/-- SET_ADDRESS_WINDOW (R139): the invariant is checked on logical coordinates (C4). -/
def execSetAddressWindow (x0 y0 x1 y1 : Word) (s : State) : Host.Outcome State Fault Refusal :=
  complete <| withPanel (s := s) fun p s =>
    if 0 ≤ sext32 x0 ∧ sext32 x0 ≤ sext32 x1 ∧ sext32 x1 < p.width ∧
        0 ≤ sext32 y0 ∧ sext32 y0 ≤ sext32 y1 ∧ sext32 y1 < p.height then do
      let s ← window p (sext32 x0) (sext32 y0) (sext32 x1) (sext32 y1) s
      .ok (s.answer .unit)
    else raise .invalidWindow s

/-- POWER (R140): the flag is set, not toggled, and the command is always sent (C3). -/
def execPower (on : Bool) (s : State) : Host.Outcome State Fault Refusal :=
  complete do
    let s ← readyGate s
    let s ← wcmd (if on then .dispon else .dispoff) s
    .ok ((s.setPower on).answer .unit)

/-- BACKLIGHT (R141): a line drive, no bus command (C2). A ready session always says whether a line is wired; a state
that does not, which no run reaches, raises `NotReady` (log 10). -/
def execBacklight (on : Bool) (s : State) : Host.Outcome State Fault Refusal :=
  complete do
    let s ← readyGate s
    match s.blPresent with
    | none => raise .notReady s
    | some false => .ok (s.answer (.backlight false))
    | some true => .ok (((drive .bl on s).setBacklight on).answer (.backlight true))

/-- BACKLIGHT_QUERY (R142); the unreached state as for BACKLIGHT. -/
def execBacklightQuery (s : State) : Host.Outcome State Fault Refusal :=
  complete do
    let s ← readyGate s
    match s.blPresent with
    | none => raise .notReady s
    | some false => .ok (s.answer (.backlightState .unsupported))
    | some true =>
      match s.blOn with
      | none => raise .backlightUnknown s
      | some on => .ok (s.answer (.backlightState (if on then .on else .off)))

/-- INVERT (R143): the flag is set, not toggled, and the command is always sent (C3). -/
def execInvert (on : Bool) (s : State) : Host.Outcome State Fault Refusal :=
  complete do
    let s ← readyGate s
    let s ← wcmd (if on then .invon else .invoff) s
    .ok ((s.setInverted on).answer .unit)

end Sys2Proof.Machine
end

