-- ==== Sys2Proof/Machine/Shapes.lean ====
section
/-! DEFINITION. The rasterizer's requests but TEXT (spec/42_rasterizer_shapes.md): colour packing, pixels, rectangles,
lines and circles. -/

namespace Sys2Proof.Machine

/-- PACK_COLOR (R221): no session, no event. -/
def execPackColor (r g b : Byte) (s : State) : Host.Outcome State Fault Refusal :=
  .next (s.answer (.color (packColor r g b)))

/-- SET_PIXEL (R222). -/
def execSetPixel (x y : Word) (color : Half) (s : State) : Host.Outcome State Fault Refusal :=
  complete <| withPanel (s := s) fun p s => do
    let s ← plot p (sext32 x) (sext32 y) color s
    .ok (s.answer .unit)

/-- FILL_RECT (R223). -/
def execFillRect (x y w h : Word) (color : Half) (s : State) : Host.Outcome State Fault Refusal :=
  complete <| withPanel (s := s) fun p s => do
    let s ← rect p (sext32 x) (sext32 y) (sext32 w) (sext32 h) color s
    .ok (s.answer .unit)

/-- HLINE (R224): a rectangle of height 1. -/
def execHline (x y len : Word) (color : Half) (s : State) : Host.Outcome State Fault Refusal :=
  complete <| withPanel (s := s) fun p s => do
    let s ← rect p (sext32 x) (sext32 y) (sext32 len) 1 color s
    .ok (s.answer .unit)

/-- VLINE (R225): a rectangle of width 1. -/
def execVline (x y len : Word) (color : Half) (s : State) : Host.Outcome State Fault Refusal :=
  complete <| withPanel (s := s) fun p s => do
    let s ← rect p (sext32 x) (sext32 y) 1 (sext32 len) color s
    .ok (s.answer .unit)

/-! ### Lines (R226, R227) -/

/-- The loop of R227 over the dominant axis: `n` more values of it from `x` on. -/
def bresenhamLoop (p : Panel) (steep : Bool) (c : Half) (dx dy ystep : Int) : Nat → Int → Int → Int → State → Run
  | 0, _, _, _, s => .ok s
  | n + 1, x, y, err, s => do
    let s ← if steep then plot p y x c s else plot p x y c s
    let err := err - dy
    if err < 0 then bresenhamLoop p steep c dx dy ystep n (x + 1) (y + ystep) (err + dx) s
    else bresenhamLoop p steep c dx dy ystep n (x + 1) y err s

/-- The stepping of R227 on the dominant axis, with its endpoints in order: exactly `dx + 1` plots. -/
def bresenhamOrdered (p : Panel) (steep : Bool) (x0 y0 x1 y1 : Int) (c : Half) (s : State) : Run :=
  let dx := x1 - x0
  let dy := |y1 - y0|
  bresenhamLoop p steep c dx dy (if y0 < y1 then 1 else -1) (dx + 1).toNat x0 y0 (dx / 2) s

/-- The second swap of R227: the endpoint with the smaller dominant coordinate comes first. -/
def bresenhamSwap (p : Panel) (steep : Bool) (x0 y0 x1 y1 : Int) (c : Half) (s : State) : Run :=
  if x1 < x0 then bresenhamOrdered p steep x1 y1 x0 y0 c s else bresenhamOrdered p steep x0 y0 x1 y1 c s

/-- `Bresenham(x0, y0, x1, y1, c)` (R227). -/
def bresenham (p : Panel) (x0 y0 x1 y1 : Int) (c : Half) (s : State) : Run :=
  if |x1 - x0| < |y1 - y0| then bresenhamSwap p true y0 x0 y1 x1 c s
  else bresenhamSwap p false x0 y0 x1 y1 c s

/-- The three ways of R226: vLine, hLine, Bresenham. -/
def drawLine (p : Panel) (x0 y0 x1 y1 : Int) (c : Half) (s : State) : Run :=
  if x0 < 0 ∨ y0 < 0 ∨ x1 < 0 ∨ y1 < 0 then raise .negativeCoordinate s
  else if x0 = x1 then rect p x0 (min y0 y1) 1 (|y1 - y0| + 1) c s
  else if y0 = y1 then rect p (min x0 x1) y0 (|x1 - x0| + 1) 1 c s
  else bresenham p x0 y0 x1 y1 c s

/-- LINE (R226). -/
def execLine (x0 y0 x1 y1 : Word) (color : Half) (s : State) : Host.Outcome State Fault Refusal :=
  complete <| withPanel (s := s) fun p s => do
    let s ← drawLine p (sext32 x0) (sext32 y0) (sext32 x1) (sext32 y1) color s
    .ok (s.answer .unit)

/-! ### Circles (R228 to R233) -/

/-- The eight symmetric points P1 to P8 of a step, each with its quadrant (R229). -/
def symmetricPoints (cx cy x y : Int) : List (Quadrant × Int × Int) :=
  [(.lr, cx + x, cy + y), (.ll, cx - x, cy + y), (.ur, cx + x, cy - y), (.ul, cx - x, cy - y),
   (.lr, cx + y, cy + x), (.ll, cx - y, cy + x), (.ur, cx + y, cy - x), (.ul, cx - y, cy - x)]

/-- Plot the points whose quadrant is selected, in order (R229). -/
def plotSelected (p : Panel) (quads : Byte) (c : Half) : List (Quadrant × Int × Int) → State → Run
  | [], s => .ok s
  | (q, px, py) :: rest, s => do
    let s ← if selects quads q then plot p px py c s else .ok s
    plotSelected p quads c rest s

/-- `Octants(cx, cy, x, y, quads, c)` (R229). -/
def octants (p : Panel) (cx cy x y : Int) (quads : Byte) (c : Half) (s : State) : Run :=
  plotSelected p quads c (symmetricPoints cx cy x y) s

/-- One span of R230: whole, left half, right half or nothing, as the quadrants of its two sides are selected. -/
def span (p : Panel) (cx row a : Int) (left right : Bool) (f : Half) (s : State) : Run :=
  match left, right with
  | true, true => rect p (cx - a) row (2 * a + 1) 1 f s
  | true, false => rect p (cx - a) row (a + 1) 1 f s
  | false, true => rect p cx row (a + 1) 1 f s
  | false, false => .ok s

/-- `Spans(cx, cy, x, y, quads, f)`: S1 to S4 of R230. -/
def spans (p : Panel) (cx cy x y : Int) (quads : Byte) (f : Half) (s : State) : Run := do
  let s ← span p cx (cy + y) x (selects quads .ll) (selects quads .lr) f s
  let s ← span p cx (cy - y) x (selects quads .ul) (selects quads .ur) f s
  let s ← span p cx (cy + x) y (selects quads .ll) (selects quads .lr) f s
  span p cx (cy - x) y (selects quads .ul) (selects quads .ur) f s

/-- One step of R228: the spans, where the circle is filled, then the outline points. -/
def circleStep (p : Panel) (cx cy x y : Int) (c : Half) (quads : Byte) (fill : Bool) (f : Half) (s : State) : Run := do
  let s ← if fill then spans p cx cy x y quads f s else .ok s
  octants p cx cy x y quads c s

/-- The loop of R228, at most as many steps as the first argument says. -/
def circleLoop (p : Panel) (cx cy : Int) (c : Half) (quads : Byte) (fill : Bool) (f : Half) :
    Nat → Int → Int → Int → State → Run
  | 0, _, _, _, s => .ok s
  | n + 1, x, y, err, s =>
    if x < y then .ok s
    else do
      let s ← circleStep p cx cy x y c quads fill f s
      if err < 0 then circleLoop p cx cy c quads fill f n x (y + 1) (err + 2 * (y + 1) + 1) s
      else circleLoop p cx cy c quads fill f n (x - 1) (y + 1) (err + 2 * ((y + 1) - (x - 1)) + 1) s

/-- `Circle(cx, cy, r, c, quads, fill, f)` (R228). `y` grows by 1 each step and `x` never exceeds `r`, so `r + 1` steps
always suffice. -/
def drawCircle (p : Panel) (cx cy r : Int) (c : Half) (quads : Byte) (fill : Bool) (f : Half) (s : State) : Run :=
  circleLoop p cx cy c quads fill f (r + 1).toNat r 0 (1 - r) s

/-- The up-front checks the three circle requests share (R231 to R233), then the core. -/
def checkedCircle (p : Panel) (cx cy r : Int) (c : Half) (quads : Byte) (fill : Bool) (f : Half) (s : State) : Run :=
  if cx < 0 ∨ cy < 0 then raise .negativeCoordinate s
  else if r < 0 then raise .negativeRadius s
  else drawCircle p cx cy r c quads fill f s

/-- CIRCLE (R231). -/
def execCircle (cx cy r : Word) (color : Half) (s : State) : Host.Outcome State Fault Refusal :=
  complete <| withPanel (s := s) fun p s => do
    let s ← checkedCircle p (sext32 cx) (sext32 cy) (sext32 r) color allQuadrants false color s
    .ok (s.answer .unit)

/-- CIRCLE_FILLED (R232). -/
def execCircleFilled (cx cy r : Word) (color : Half) (hasFill : Bool) (fillColor : Half) (s : State) :
    Host.Outcome State Fault Refusal :=
  complete <| withPanel (s := s) fun p s => do
    let s ← checkedCircle p (sext32 cx) (sext32 cy) (sext32 r) color allQuadrants true
      (fillChoice color hasFill fillColor) s
    .ok (s.answer .unit)

/-- CIRCLE_SEGMENT (R233). -/
def execCircleSegment (cx cy r : Word) (color : Half) (quads : Byte) (fill hasFill : Bool) (fillColor : Half)
    (s : State) : Host.Outcome State Fault Refusal :=
  complete <| withPanel (s := s) fun p s => do
    let s ← checkedCircle p (sext32 cx) (sext32 cy) (sext32 r) color quads fill (fillChoice color hasFill fillColor) s
    .ok (s.answer .unit)

end Sys2Proof.Machine
end

