-- ==== Sys2Proof/Machine/Text.lean ====
section
/-! DEFINITION. TEXT, the bitmap-font column-major glyph blitter (spec/43_text.md). -/

namespace Sys2Proof.Machine

/-- The font record as TEXT carries it (R96, R260). -/
structure Font where
  width : Nat
  height : Nat
  first : Nat
  last : Nat
  base : Nat
  deriving DecidableEq, Repr

/-- The font is valid: `fontW ≥ 1`, `1 ≤ fontH ≤ 8`, `fontStart ≤ fontEnd` (R108, R260). -/
def Font.valid (fn : Font) : Bool :=
  decide (1 ≤ fn.width ∧ 1 ≤ fn.height ∧ fn.height ≤ 8 ∧ fn.first ≤ fn.last)

/-- The code is one the font covers (R265). -/
def Font.covers (fn : Font) (ch : Byte) : Bool := decide (fn.first ≤ ch.toNat ∧ ch.toNat ≤ fn.last)

/-- The address of column `i` of the glyph of `ch` (R109, R262). -/
def Font.columnAddress (fn : Font) (ch : Byte) (i : Nat) : Nat := fn.base + (ch.toNat - fn.first) * fn.width + i

/-- One set bit of a glyph: a pixel at scale 1, a `scale × scale` rectangle above (R263). -/
def blitBit (p : Panel) (scale : Nat) (c : Half) (gx gy : Int) (i j : Nat) (s : State) : Run :=
  if scale = 1 then plot p (gx + i) (gy + j) c s
  else rect p (gx + i * scale) (gy + j * scale) scale scale c s

/-- The rows of one glyph column, top to bottom: `n` more from row `j` on; clear bits are transparent (R263). -/
def blitRows (p : Panel) (scale : Nat) (c : Half) (gx gy : Int) (i : Nat) (b : Byte) : Nat → Nat → State → Run
  | 0, _, s => .ok s
  | n + 1, j, s => do
    let s ← if b.getLsbD j then blitBit p scale c gx gy i j s else .ok s
    blitRows p scale c gx gy i b n (j + 1) s

/-- The columns of a glyph, left to right: `n` more from column `i` on. Each column byte is read once, when its column is
reached; an unreadable one raises `FontMemoryUnreadable` (R262, R263). -/
def blitColumns (p : Panel) (fn : Font) (scale : Nat) (c : Half) (gx gy : Int) (ch : Byte) :
    Nat → Nat → State → Run
  | 0, _, s => .ok s
  | n + 1, i, s =>
    match s.font.read (fn.columnAddress ch i) with
    | none => raise .fontMemoryUnreadable s
    | some b => do
      let s ← blitRows p scale c gx gy i b fn.height 0 s
      blitColumns p fn scale c gx gy ch n (i + 1) s

/-- `Glyph(gx, gy, ch, scale, c)` (R263). -/
def glyph (p : Panel) (fn : Font) (scale : Nat) (c : Half) (gx gy : Int) (ch : Byte) (s : State) : Run :=
  blitColumns p fn scale c gx gy ch fn.width 0 s

/-- Where a glyph is drawn when the cursor is at `(cx, cy)`: there, or, where it would pass the panel's width, at the
start of the next line (R264). -/
def wrapCursor (p : Panel) (fn : Font) (scale : Nat) (x : Int) (cursor : Int × Int) : Int × Int :=
  if (p.width : Int) < cursor.1 + scale * fn.width then (x, cursor.2 + scale * fn.height + 1) else cursor

/-- The characters in order, from a cursor on (R261, R265). -/
def textLoop (p : Panel) (fn : Font) (scale : Nat) (c : Half) (x : Int) : List Byte → Int × Int → State → Run
  | [], _, s => .ok s
  | ch :: rest, cursor, s =>
    if fn.covers ch then do
      let at' := wrapCursor p fn scale x cursor
      let s ← glyph p fn scale c at'.1 at'.2 ch s
      textLoop p fn scale c x rest (at'.1 + scale * fn.width + 1, at'.2) s
    else textLoop p fn scale c x rest cursor s

/-- The checks of R261, in order, then the characters. -/
def drawText (p : Panel) (x y : Int) (c : Half) (scale : Nat) (fn : Font) (codes : List Byte) (s : State) : Run :=
  if x < 0 ∨ y < 0 then raise .negativeCoordinate s
  else if scale = 0 then raise .badScale s
  else if fn.valid = false then raise .badFont s
  else textLoop p fn scale c x codes (x, y) s

/-- TEXT (R261). -/
def execText (x y : Word) (color : Half) (scale fontW fontH fontStart fontEnd : Byte) (fontBase : Word)
    (codes : List Byte) (s : State) : Host.Outcome State Fault Refusal :=
  complete <| withPanel (s := s) fun p s => do
    let s ← drawText p (sext32 x) (sext32 y) color scale.toNat
      ⟨fontW.toNat, fontH.toNat, fontStart.toNat, fontEnd.toNat, fontBase.toNat⟩ codes s
    .ok (s.answer .unit)

end Sys2Proof.Machine
end

