-- ==== Sys2Proof/Machine/Wire.lean ====
section
/-! DEFINITION. The WIRE instructions (spec/30_encoding.md R103, R104): each is its command frame, put on the bus by the
transfer primitive, so that the controller latches the command by its rule of spec/41_device_controller.md (`onLatch`
in Machine/Controller.lean); a data frame carries the bytes that follow (`onParam`, `pixelByte` there). -/

namespace Sys2Proof.Machine

/-- A frame of its own failed: `BusFailure` is recorded, and the lifecycle makes the one transition R25 has for a bus failure
outside INITIALIZE, from `Ready` to `Failed` (log 2). -/
def frameFailure (s : State) : Run :=
  raise .busFailure { s with life := if s.life = .ready then .failed else s.life }

/-- One frame put on the wire by itself (R103, R131; log 2). Before the first reset pulse the RST line has never been driven:
the frame's bytes are then sent and received all the same, where R170 has every byte sent with RST = 1 (DESIGN CHOICE, log 2). -/
def sendFrame (dc : Level) (bytes : List Byte) (s : State) : Run := (xfer dc bytes s).orElse frameFailure

/-- `C(CMD[name])` by itself (R103, R104). -/
def wireCommand (name : WireName) (s : State) : Run := sendFrame false [s.par.cmd.code name] s

/-- SWRESET, the frame `C(CMD[SWRESET])` (R182). -/
def execSwreset (s : State) : Host.Outcome State Fault Refusal := complete (wireCommand .swreset s)

/-- SLPOUT, the frame `C(CMD[SLPOUT])` (R183). -/
def execSlpout (s : State) : Host.Outcome State Fault Refusal := complete (wireCommand .slpout s)

/-- NORON, the frame `C(CMD[NORON])` (R201). -/
def execNoron (s : State) : Host.Outcome State Fault Refusal := complete (wireCommand .noron s)

/-- INVOFF, the frame `C(CMD[INVOFF])` (R195). -/
def execInvoff (s : State) : Host.Outcome State Fault Refusal := complete (wireCommand .invoff s)

/-- INVON, the frame `C(CMD[INVON])` (R196). -/
def execInvon (s : State) : Host.Outcome State Fault Refusal := complete (wireCommand .invon s)

/-- DISPOFF, the frame `C(CMD[DISPOFF])` (R203). -/
def execDispoff (s : State) : Host.Outcome State Fault Refusal := complete (wireCommand .dispoff s)

/-- DISPON, the frame `C(CMD[DISPON])` (R202). -/
def execDispon (s : State) : Host.Outcome State Fault Refusal := complete (wireCommand .dispon s)

/-- CASET, the frame `C(CMD[CASET])` (R175). -/
def execCaset (s : State) : Host.Outcome State Fault Refusal := complete (wireCommand .caset s)

/-- RASET, the frame `C(CMD[RASET])` (R176). -/
def execRaset (s : State) : Host.Outcome State Fault Refusal := complete (wireCommand .raset s)

/-- RAMWR, the frame `C(CMD[RAMWR])` (R177). -/
def execRamwr (s : State) : Host.Outcome State Fault Refusal := complete (wireCommand .ramwr s)

/-- MADCTL, the frame `C(CMD[MADCTL])` (R197). -/
def execMadctl (s : State) : Host.Outcome State Fault Refusal := complete (wireCommand .madctl s)

/-- COLMOD, the frame `C(CMD[COLMOD])` (R198). -/
def execColmod (s : State) : Host.Outcome State Fault Refusal := complete (wireCommand .colmod s)

/-- FRMCTR1, the frame `C(CMD[FRMCTR1])` (R185). -/
def execFrmctr1 (s : State) : Host.Outcome State Fault Refusal := complete (wireCommand .frmctr1 s)

/-- FRMCTR2, the frame `C(CMD[FRMCTR2])` (R186). -/
def execFrmctr2 (s : State) : Host.Outcome State Fault Refusal := complete (wireCommand .frmctr2 s)

/-- FRMCTR3, the frame `C(CMD[FRMCTR3])` (R187). -/
def execFrmctr3 (s : State) : Host.Outcome State Fault Refusal := complete (wireCommand .frmctr3 s)

/-- INVCTR, the frame `C(CMD[INVCTR])` (R188). -/
def execInvctr (s : State) : Host.Outcome State Fault Refusal := complete (wireCommand .invctr s)

/-- PWCTR1, the frame `C(CMD[PWCTR1])` (R189). -/
def execPwctr1 (s : State) : Host.Outcome State Fault Refusal := complete (wireCommand .pwctr1 s)

/-- PWCTR2, the frame `C(CMD[PWCTR2])` (R190). -/
def execPwctr2 (s : State) : Host.Outcome State Fault Refusal := complete (wireCommand .pwctr2 s)

/-- PWCTR3, the frame `C(CMD[PWCTR3])` (R191). -/
def execPwctr3 (s : State) : Host.Outcome State Fault Refusal := complete (wireCommand .pwctr3 s)

/-- PWCTR4, the frame `C(CMD[PWCTR4])` (R192). -/
def execPwctr4 (s : State) : Host.Outcome State Fault Refusal := complete (wireCommand .pwctr4 s)

/-- PWCTR5, the frame `C(CMD[PWCTR5])` (R193). -/
def execPwctr5 (s : State) : Host.Outcome State Fault Refusal := complete (wireCommand .pwctr5 s)

/-- VMCTR1, the frame `C(CMD[VMCTR1])` (R194). -/
def execVmctr1 (s : State) : Host.Outcome State Fault Refusal := complete (wireCommand .vmctr1 s)

/-- GMCTRP1, the frame `C(CMD[GMCTRP1])` (R199). -/
def execGmctrp1 (s : State) : Host.Outcome State Fault Refusal := complete (wireCommand .gmctrp1 s)

/-- GMCTRN1, the frame `C(CMD[GMCTRN1])` (R200). -/
def execGmctrn1 (s : State) : Host.Outcome State Fault Refusal := complete (wireCommand .gmctrn1 s)

/-- A data frame on the wire, `D(bytes)` (R103, R173). -/
def sendDataFrame (bytes : List Byte) (s : State) : Host.Outcome State Fault Refusal := complete (sendFrame true bytes s)

end Sys2Proof.Machine
end

