-- ==== Sys2Proof/Machine/Dispatch.lean ====
section
/-! DEFINITION. What each instruction does: one arm for each constructor of Instr. -/

namespace Sys2Proof.Machine

def exec (i : Instr) (s : State) : Host.Outcome State Fault Refusal :=
  match i with
  | .create rowMargin colMargin blPresent => Sys2Proof.Machine.execCreate rowMargin colMargin blPresent s
  | .reset => Sys2Proof.Machine.execReset s
  | .initialise width height orient => Sys2Proof.Machine.execInitialise width height orient s
  | .writeCommand code => Sys2Proof.Machine.execWriteCommand code s
  | .writeData data => Sys2Proof.Machine.execWriteData data s
  | .setAddressWindow x0 y0 x1 y1 => Sys2Proof.Machine.execSetAddressWindow x0 y0 x1 y1 s
  | .power on => Sys2Proof.Machine.execPower on s
  | .backlight on => Sys2Proof.Machine.execBacklight on s
  | .backlightQuery => Sys2Proof.Machine.execBacklightQuery s
  | .invert on => Sys2Proof.Machine.execInvert on s
  | .packColor r g b => Sys2Proof.Machine.execPackColor r g b s
  | .setPixel x y color => Sys2Proof.Machine.execSetPixel x y color s
  | .fillRect x y w h color => Sys2Proof.Machine.execFillRect x y w h color s
  | .hline x y len color => Sys2Proof.Machine.execHline x y len color s
  | .vline x y len color => Sys2Proof.Machine.execVline x y len color s
  | .line x0 y0 x1 y1 color => Sys2Proof.Machine.execLine x0 y0 x1 y1 color s
  | .circle cx cy r color => Sys2Proof.Machine.execCircle cx cy r color s
  | .circleFilled cx cy r color hasFill fillColor => Sys2Proof.Machine.execCircleFilled cx cy r color hasFill fillColor s
  | .circleSegment cx cy r color quads fill hasFill fillColor => Sys2Proof.Machine.execCircleSegment cx cy r color quads fill hasFill fillColor s
  | .text x y color scale fontW fontH fontStart fontEnd fontBase codes => Sys2Proof.Machine.execText x y color scale fontW fontH fontStart fontEnd fontBase codes s
  | .swreset => Sys2Proof.Machine.execSwreset s
  | .slpout => Sys2Proof.Machine.execSlpout s
  | .noron => Sys2Proof.Machine.execNoron s
  | .invoff => Sys2Proof.Machine.execInvoff s
  | .invon => Sys2Proof.Machine.execInvon s
  | .dispoff => Sys2Proof.Machine.execDispoff s
  | .dispon => Sys2Proof.Machine.execDispon s
  | .caset => Sys2Proof.Machine.execCaset s
  | .raset => Sys2Proof.Machine.execRaset s
  | .ramwr => Sys2Proof.Machine.execRamwr s
  | .madctl => Sys2Proof.Machine.execMadctl s
  | .colmod => Sys2Proof.Machine.execColmod s
  | .frmctr1 => Sys2Proof.Machine.execFrmctr1 s
  | .frmctr2 => Sys2Proof.Machine.execFrmctr2 s
  | .frmctr3 => Sys2Proof.Machine.execFrmctr3 s
  | .invctr => Sys2Proof.Machine.execInvctr s
  | .pwctr1 => Sys2Proof.Machine.execPwctr1 s
  | .pwctr2 => Sys2Proof.Machine.execPwctr2 s
  | .pwctr3 => Sys2Proof.Machine.execPwctr3 s
  | .pwctr4 => Sys2Proof.Machine.execPwctr4 s
  | .pwctr5 => Sys2Proof.Machine.execPwctr5 s
  | .vmctr1 => Sys2Proof.Machine.execVmctr1 s
  | .gmctrp1 => Sys2Proof.Machine.execGmctrp1 s
  | .gmctrn1 => Sys2Proof.Machine.execGmctrn1 s

end Sys2Proof.Machine
end

