-- ==== Sys2Proof/Machine/Step.lean ====
section
/-! DEFINITION. One step of the machine: the sticky fault check, the decoding of the oldest message, and its meaning
(spec/60_exceptions.md R280, R282; spec/10_state.md R21). -/

namespace Sys2Proof.Machine

/-- One step: one request run to its end (R144), or one wire frame (log 2). -/
def step (s : State) : Host.Outcome State Fault Refusal :=
  match fetch s with
  | .run i s' => exec i s'
  | .dataFrame bytes s' => sendDataFrame bytes s'
  | .illegal => complete (raise .illegalRequest s)
  | .refuse r => .refused r
  | .stopped => .fault .blockStopped

/-- `s` with the instruction of an opcode-table word as the message the next step takes (log 1, log 3). -/
def State.withFetchWord (s : State) (nbits w : Nat) : State := s.withMessage (tableMessage nbits w)

end Sys2Proof.Machine
end

