-- ==== Sys2Proof/Machine/Assembler.lean ====
section
/-! DEFINITION. The request syntax of spec/30_encoding.md R101, read into instructions: `MNEMONIC field, field, ...`.
What R101 leaves open, and this file fixes, is in log 18. -/

namespace Sys2Proof

/-- Text read from the front: what was read and what is left, or `none`. -/
abbrev Reader (α : Type) := List Char → Option (α × List Char)

/-- Spaces between tokens mean nothing. -/
def skipSpaces (cs : List Char) : List Char := cs.dropWhile fun c => c == ' '

/-- A fixed word or mark. -/
def readMark (mark : List Char) : Reader Unit := fun cs =>
  let cs := skipSpaces cs
  if mark.isPrefixOf cs then some ((), cs.drop mark.length) else none

/-- The letters, digits and `_` that a name is made of. -/
def isNameChar (c : Char) : Bool :=
  ('A' ≤ c && c ≤ 'Z') || ('a' ≤ c && c ≤ 'z') || ('0' ≤ c && c ≤ '9') || c == '_'

/-- A name. -/
def readName : Reader (List Char) := fun cs =>
  let cs := skipSpaces cs
  match cs.takeWhile isNameChar with
  | [] => none
  | name => some (name, cs.dropWhile isNameChar)

/-- The value of a digit, to base 16. -/
def digitValue (c : Char) : Option Nat :=
  if '0' ≤ c && c ≤ '9' then some (c.toNat - 48)
  else if 'A' ≤ c && c ≤ 'F' then some (c.toNat - 55)
  else if 'a' ≤ c && c ≤ 'f' then some (c.toNat - 87)
  else none

/-- Digits to a base, after those that gave `acc`. -/
def readDigits (base : Nat) (acc : Nat) : List Char → Nat × List Char
  | [] => (acc, [])
  | c :: cs =>
    match digitValue c with
    | some d => if d < base then readDigits base (acc * base + d) cs else (acc, c :: cs)
    | none => (acc, c :: cs)

/-- At least one digit to a base. -/
def readNumeral (base : Nat) (cs : List Char) : Option (Nat × List Char) :=
  match readDigits base 0 cs with
  | (n, rest) => if rest.length < cs.length then some (n, rest) else none

/-- "Numbers are decimal, or hexadecimal with a `0x` prefix." -/
def readNat : Reader Nat := fun cs =>
  match skipSpaces cs with
  | '0' :: 'x' :: rest => readNumeral 16 rest
  | cs => readNumeral 10 cs

/-- A number, with a minus sign before a negative one (log 18). -/
def readInt : Reader Int := fun cs =>
  match skipSpaces cs with
  | '-' :: rest => (readNat rest).map fun nr => (-(nr.1 : Int), nr.2)
  | cs => (readNat cs).map fun nr => ((nr.1 : Int), nr.2)

/-- A `u8` field. -/
def readU8 : Reader Byte := fun cs => do
  let (n, cs) ← readNat cs
  if n < 2 ^ 8 then some (BitVec.ofNat 8 n, cs) else none

/-- A `u16` field. -/
def readU16 : Reader Half := fun cs => do
  let (n, cs) ← readNat cs
  if n < 2 ^ 16 then some (BitVec.ofNat 16 n, cs) else none

/-- A colour: a `u16`, or the named colour `WHITE`, which is 0xFFFF (R102). -/
def readColor : Reader Half := fun cs =>
  match readMark "WHITE".toList cs with
  | some (_, cs) => some (0xFFFF, cs)
  | none => readU16 cs

/-- A `u32` field. -/
def readU32 : Reader Word := fun cs => do
  let (n, cs) ← readNat cs
  if n < 2 ^ 32 then some (BitVec.ofNat 32 n, cs) else none

/-- An `s32` field. -/
def readS32 : Reader Word := fun cs => do
  let (n, cs) ← readInt cs
  if -(2 ^ 31) ≤ n ∧ n < 2 ^ 31 then some (BitVec.ofInt 32 n, cs) else none

/-- "A `bool` is written `0`/`1` or `off`/`on`." -/
def readFlag : Reader Bool := fun cs =>
  match readMark "off".toList cs, readMark "on".toList cs with
  | some (_, cs), _ => some (false, cs)
  | none, some (_, cs) => some (true, cs)
  | none, none => do
    let (n, cs) ← readNat cs
    if n = 0 then some (false, cs) else if n = 1 then some (true, cs) else none

/-- A field that is not the first: a comma stands before it. -/
def readNext {α : Type} (field : Reader α) : Reader α := fun cs => do
  let (_, cs) ← readMark [','] cs
  field cs

/-- Items separated by commas up to a closing mark, at most as many as the first argument says. -/
def readItems {α : Type} (item : Reader α) (closing : List Char) : Nat → Reader (List α)
  | 0 => fun _ => none
  | n + 1 => fun cs => do
    let (x, cs) ← item cs
    match readMark closing cs with
    | some (_, cs) => some ([x], cs)
    | none =>
      let (xs, cs) ← readNext (readItems item closing n) cs
      some (x :: xs, cs)

/-- A bracketed list, which may be empty. -/
def readList {α : Type} (item : Reader α) (opening closing : List Char) : Reader (List α) := fun cs => do
  let (_, cs) ← readMark opening cs
  match readMark closing cs with
  | some (_, cs) => some ([], cs)
  | none => readItems item closing cs.length cs

/-- The braces of a set. -/
def openBrace : List Char := [Char.ofNat 123]
def closeBrace : List Char := [Char.ofNat 125]

/-- One quadrant, as its bit of the mask (R93). -/
def readQuadrant : Reader Byte := fun cs => do
  let (name, cs) ← readName cs
  match name with
  | ['U', 'L'] => some (0x01, cs)
  | ['U', 'R'] => some (0x02, cs)
  | ['L', 'L'] => some (0x04, cs)
  | ['L', 'R'] => some (0x08, cs)
  | _ => none

/-- "`quads` is written as a set (any subset) or as `None`"; the spec's own vectors also write the number (log 18). -/
def readQuads : Reader Byte := fun cs =>
  match readMark "None".toList cs with
  | some (_, cs) => some (0x0F, cs)
  | none =>
    match readList readQuadrant openBrace closeBrace cs with
    | some (qs, cs) => some (qs.foldl (fun a q => a ||| q) 0, cs)
    | none => readU8 cs

/-- The bytes of a list, `[b1, b2, ...]`. -/
def readByteList : Reader (List Byte) := readList readU8 ['['] [']']

/-- "a quoted string of ASCII characters, or `[c1, c2, ...]`". -/
def readCodes : Reader (List Byte) := fun cs =>
  match skipSpaces cs with
  | '"' :: rest =>
    let body := rest.takeWhile fun c => c != '"'
    if body.all (fun c => decide (c.toNat < 128)) && decide (body.length < rest.length) then
      some (body.map fun c => BitVec.ofNat 8 c.toNat, rest.drop (body.length + 1))
    else none
  | _ => readByteList cs

/-- TEXT's font fields, `font(fontW, fontH, fontStart, fontEnd, fontBase)`. -/
def readFont : Reader (Byte × Byte × Byte × Byte × Word) := fun cs => do
  let (_, cs) ← readMark "font".toList cs
  let (_, cs) ← readMark ['('] cs
  let (w, cs) ← readU8 cs
  let (h, cs) ← readNext readU8 cs
  let (first, cs) ← readNext readU8 cs
  let (last, cs) ← readNext readU8 cs
  let (base, cs) ← readNext readU32 cs
  let (_, cs) ← readMark [')'] cs
  some ((w, h, first, last, base), cs)

/-- The end of the text. -/
def atEnd (cs : List Char) : Bool := (skipSpaces cs).isEmpty

/-- An optional group of last fields: `none` where the text ends. -/
def readTail {α : Type} (field : Reader α) : Reader (Option α) := fun cs =>
  if atEnd cs then some (none, cs) else (readNext field cs).map fun xr => (some xr.1, xr.2)

/-! ### The fields of each mnemonic, in the order of R96 -/

/-- CREATE. -/
def textCreate : Reader Instr := fun cs => do
  let (rowMargin, cs) ← readU16 cs
  let (colMargin, cs) ← readNext readU16 cs
  let (bl, cs) ← readNext readFlag cs
  some (.create rowMargin colMargin bl, cs)

/-- INITIALIZE. -/
def textInitialise : Reader Instr := fun cs => do
  let (w, cs) ← readU16 cs
  let (h, cs) ← readNext readU16 cs
  let (o, cs) ← readNext readU8 cs
  some (.initialise w h o, cs)

/-- Four `s32` fields, the four corners or a rectangle. -/
def readFour : Reader (Word × Word × Word × Word) := fun cs => do
  let (a, cs) ← readS32 cs
  let (b, cs) ← readNext readS32 cs
  let (c, cs) ← readNext readS32 cs
  let (d, cs) ← readNext readS32 cs
  some ((a, b, c, d), cs)

/-- Three `s32` fields and a colour: HLINE, VLINE, and what the circles begin with. -/
def readThree : Reader (Word × Word × Word × Half) := fun cs => do
  let (a, cs) ← readS32 cs
  let (b, cs) ← readNext readS32 cs
  let (c, cs) ← readNext readS32 cs
  let (color, cs) ← readNext readColor cs
  some ((a, b, c, color), cs)

/-- PACK_COLOR. -/
def textPackColor : Reader Instr := fun cs => do
  let (r, cs) ← readU8 cs
  let (g, cs) ← readNext readU8 cs
  let (b, cs) ← readNext readU8 cs
  some (.packColor r g b, cs)

/-- SET_PIXEL. -/
def textSetPixel : Reader Instr := fun cs => do
  let (x, cs) ← readS32 cs
  let (y, cs) ← readNext readS32 cs
  let (color, cs) ← readNext readColor cs
  some (.setPixel x y color, cs)

/-- FILL_RECT and LINE: four `s32` fields and a colour. -/
def textFourColor (k : Word → Word → Word → Word → Half → Instr) : Reader Instr := fun cs => do
  let ((a, b, c, d), cs) ← readFour cs
  let (color, cs) ← readNext readColor cs
  some (k a b c d color, cs)

/-- `hasFill, fillColor`. -/
def readFill : Reader (Bool × Half) := fun cs => do
  let (hasFill, cs) ← readFlag cs
  let (color, cs) ← readNext readColor cs
  some ((hasFill, color), cs)

/-- CIRCLE_FILLED, which "may omit `hasFill, fillColor`". -/
def textCircleFilled : Reader Instr := fun cs => do
  let ((cx, cy, r, color), cs) ← readThree cs
  let (fill, cs) ← readTail readFill cs
  let (hasFill, fillColor) := fill.getD (false, 0)
  some (.circleFilled cx cy r color hasFill fillColor, cs)

/-- CIRCLE_SEGMENT, which "may omit `fill, hasFill, fillColor`". -/
def textCircleSegment : Reader Instr := fun cs => do
  let ((cx, cy, r, color), cs) ← readThree cs
  let (quads, cs) ← readNext readQuads cs
  let (fills, cs) ← readTail (fun cs => do
    let (fill, cs) ← readFlag cs
    let (rest, cs) ← readNext readFill cs
    some ((fill, rest), cs)) cs
  let (fill, hasFill, fillColor) := fills.getD (false, false, 0)
  some (.circleSegment cx cy r color quads fill hasFill fillColor, cs)

/-- TEXT. -/
def textText : Reader Instr := fun cs => do
  let (x, cs) ← readS32 cs
  let (y, cs) ← readNext readS32 cs
  let (color, cs) ← readNext readColor cs
  let (scale, cs) ← readNext readU8 cs
  let ((w, h, first, last, base), cs) ← readNext readFont cs
  let (codes, cs) ← readNext readCodes cs
  some (.text x y color scale w h first last base codes, cs)

/-- An instruction made of what a reader reads. -/
def readAs {α : Type} (field : Reader α) (k : α → Instr) : Reader Instr := fun cs =>
  (field cs).map fun xr => (k xr.1, xr.2)

/-- The mnemonics (R95) and their fields. -/
def mnemonics : List (String × Reader Instr) :=
  [("CREATE", textCreate),
   ("RESET", fun cs => some (.reset, cs)),
   ("INITIALIZE", textInitialise),
   ("WRITE_COMMAND", readAs readU8 .writeCommand),
   ("WRITE_DATA", readAs readByteList .writeData),
   ("SET_ADDRESS_WINDOW", readAs readFour fun w => .setAddressWindow w.1 w.2.1 w.2.2.1 w.2.2.2),
   ("POWER", readAs readFlag .power),
   ("BACKLIGHT", readAs readFlag .backlight),
   ("BACKLIGHT_QUERY", fun cs => some (.backlightQuery, cs)),
   ("INVERT", readAs readFlag .invert)]
  ++ [("PACK_COLOR", textPackColor),
   ("SET_PIXEL", textSetPixel),
   ("FILL_RECT", textFourColor .fillRect),
   ("HLINE", readAs readThree fun w => .hline w.1 w.2.1 w.2.2.1 w.2.2.2),
   ("VLINE", readAs readThree fun w => .vline w.1 w.2.1 w.2.2.1 w.2.2.2),
   ("LINE", textFourColor .line),
   ("CIRCLE", readAs readThree fun w => .circle w.1 w.2.1 w.2.2.1 w.2.2.2),
   ("CIRCLE_FILLED", textCircleFilled),
   ("CIRCLE_SEGMENT", textCircleSegment),
   ("TEXT", textText)]

/-- A line of the request syntax as the instruction it stands for (R101): the whole line is read, and the instruction
has an encoding. -/
def assemble (line : String) : Option Instr := do
  let (name, cs) ← readName line.toList
  let row ← mnemonics.find? fun row => row.1.toList == name
  let (i, cs) ← row.2 cs
  if atEnd cs && i.wf then some i else none

end Sys2Proof
end

