-- ==== Sys2Proof/Safety.lean ====
section
/-! DEFINITION. The terms claims are stated in: the premises the spec names, the trace shorthand of spec/00_scope.md R18, the
controller and the line levels as functions of the trace, the fills a drawing request stands for, and the invariant. -/

namespace Sys2Proof.Machine

/-! ### Premises -/

/-- "`CMD` must give the 24 names 24 distinct codes" (R104). -/
abbrev CodesDistinct (t : CmdTable) : Prop := (WireName.all.map t.code).Nodup

/-- `BusReliable`: no transfer fails (R15). -/
def BusReliable (par : Params) : Prop := ∀ n, busOk par n = true

/-- The constraints on the parameters that the spec states: distinct codes (R104), four-byte CASET and RASET blocks
(R136), holds of at least 500 ms (R11). -/
abbrev ParamsValid (par : Params) : Prop :=
  CodesDistinct par.cmd ∧ par.init.caset.length = 4 ∧ par.init.raset.length = 4 ∧
  500 ≤ par.resetHold.hold0 ∧ 500 ≤ par.resetHold.hold1 ∧ 500 ≤ par.resetHold.hold2

/-- The size check of INITIALIZE holds of the panel (R135): every bound plus margin fits 16 bits. -/
abbrev Panel.Fits (p : Panel) : Prop :=
  1 ≤ p.width ∧ 1 ≤ p.height ∧ p.width - 1 + p.cm ≤ 0xFFFF ∧ p.height - 1 + p.rm ≤ 0xFFFF

/-- `GramFits` (95_test_vectors.md): the panel and its margins lie within `GRAM_LIMIT` for the memory-access byte in
force (R181). -/
def GramFits (par : Params) (p : Panel) (d : Dev) : Prop :=
  ∃ e, d.extent par = some e ∧ p.width + p.cm ≤ e.cols ∧ p.height + p.rm ≤ e.rows

/-- No half pixel is pending and no CASET or RASET block is cut short: a command byte is received without a fault
(R172). -/
abbrev Dev.Clean (cmd : CmdTable) (d : Dev) : Prop := d.pend = none ∧ d.cutShort cmd = false

/-- A command frame is sent and received without failure or fault (R131, R172). -/
abbrev FrameReady (s : State) : Prop :=
  CodesDistinct s.par.cmd ∧ busOk s.par s.xfers = true ∧ s.dev.Clean s.par.cmd

/-- A brought-up session with panel `p` over a controller that takes its drawing: the conditions under which every
drawing request executes normally (R146, R172, R179, R220; the conventions of 95_test_vectors.md). -/
structure Drawable (p : Panel) (s : State) : Prop where
  ready : s.life = .ready
  panel : s.panel = some p
  fits : p.Fits
  codes : CodesDistinct s.par.cmd
  bus : BusReliable s.par
  gram : GramFits s.par p s.dev
  clean : s.dev.Clean s.par.cmd
  frame : s.dev.gram.wf = true

/-! ### Trace shorthand (R18) -/

/-- The events of one frame: `C(b)` for DC = 0, `D(b1 ... bn)` for DC = 1 (R18, R103). -/
def frameEvents (dc : Level) (bytes : List Byte) : List Event :=
  [.drive .dc dc, .drive .cs false] ++ bytes.map (Event.byte dc) ++ [.drive .cs true]

/-- `WIN(c0, r0, c1, r1)` (R18). -/
def windowEvents (cmd : CmdTable) (c0 r0 c1 r1 : Half) : List Event :=
  frameEvents false [cmd.raset] ++ frameEvents true (boundBytes r0 r1) ++
  frameEvents false [cmd.caset] ++ frameEvents true (boundBytes c0 c1) ++ frameEvents false [cmd.ramwr]

/-- The reset pulse (R138). -/
def pulseEvents : List Event :=
  [.drive .rst true, .hold 0, .drive .rst false, .hold 1, .drive .rst true, .hold 2]

/-- The events of one bring-up step (R135). -/
def bringUpStepEvents (par : Params) (st : BringUpStep) : List Event :=
  frameEvents false [par.cmd.code st.name] ++
  (if st.params = [] then [] else frameEvents true st.params) ++
  (if (initDelayOf par st.k).isSome then [.settle st.k] else [])

/-- `INIT(o)` (95_test_vectors.md; R135, R136). -/
def initEvents (par : Params) (o : Fin 4) : List Event :=
  pulseEvents ++ (initSeq par.init o).flatMap (bringUpStepEvents par)

/-- `N_I`: the number of transfers of `INIT(o)` (95_test_vectors.md; R135, R136). -/
def initTransfers (par : Params) (o : Fin 4) : Nat :=
  ((initSeq par.init o).map fun st => if st.params = [] then 1 else 2).sum

/-- The state after one frame is sent whole and leaves the controller as `d` (R131): everything else is as before. -/
def afterFrame (dc : Level) (bytes : List Byte) (d : Dev) (s : State) : State :=
  { s with
    xfers := s.xfers + 1, lvl := { s.lvl with dc := some dc, cs := some true },
    trace := s.trace ++ frameEvents dc bytes, dev := d }

/-- The state after one frame in which the controller raised `f` at the last of the bytes `sent`, and was then `d`: the
bytes stay sent, chip-select stays asserted, the fault is recorded (R280). -/
def afterFault (dc : Level) (sent : List Byte) (d : Dev) (f : FaultCode) (s : State) : State :=
  { s with
    xfers := s.xfers + 1, lvl := { s.lvl with dc := some dc, cs := some false },
    trace := s.trace ++ ([.drive .dc dc, .drive .cs false] ++ sent.map (Event.byte dc)), dev := d,
    faults := s.faults ++ [f] }

/-- `DevUnknown`: no field that R171 names holds a value. The write pointer, which it does not name, is left open. -/
structure Dev.Unknown (d : Dev) : Prop where
  cmd : d.cmd = none
  params : d.params = []
  window : d.colS = none ∧ d.colE = none ∧ d.rowS = none ∧ d.rowE = none
  ramwr : d.ramwr = false
  pend : d.pend = none
  modes : d.sleepOut = none ∧ d.dispOn = none ∧ d.invOn = none ∧ d.normal = none ∧ d.madctl = none
  cfg : ∀ c, Sparse.get c d.cfg = none
  gram : ∀ c r, Frame.get d.gram c r = none

/-- The state after a transfer that failed and left the controller as `d`: the level of CS is not known (R131). -/
def afterBusFail (dc : Level) (d : Dev) (s : State) : State :=
  { s with
    xfers := s.xfers + 1, lvl := { s.lvl with dc := some dc, cs := none },
    trace := s.trace ++ [.drive .dc dc, .drive .cs false, .busFail], dev := d }

/-- The same in a request other than INITIALIZE: the session is `Failed` and `BusFailure` is recorded (R132). -/
def afterBusFailure (dc : Level) (d : Dev) (s : State) : State :=
  { afterBusFail dc d s with life := .failed, faults := s.faults ++ [.busFailure] }

/-- The same of a frame put on the wire by itself: `BusFailure` is recorded, and a `Ready` session is `Failed` (R25;
log 2). -/
def afterFrameFailure (dc : Level) (d : Dev) (s : State) : State :=
  { afterBusFail dc d s with
    life := if s.life = .ready then .failed else s.life, faults := s.faults ++ [.busFailure] }

/-- The controller once a command byte is latched, before the command's own effect (R172). -/
def Dev.latched (b : Byte) (d : Dev) : Dev := { d with ramwr := false, cmd := some b, params := [] }

/-- The opaque configuration commands of R184. -/
def isOpaque : WireName → Bool
  | .swreset => false
  | .slpout => false
  | .noron => false
  | .invoff => false
  | .invon => false
  | .dispoff => false
  | .dispon => false
  | .caset => false
  | .raset => false
  | .ramwr => false
  | .madctl => false
  | .colmod => true
  | .frmctr1 => true
  | .frmctr2 => true
  | .frmctr3 => true
  | .invctr => true
  | .pwctr1 => true
  | .pwctr2 => true
  | .pwctr3 => true
  | .pwctr4 => true
  | .pwctr5 => true
  | .vmctr1 => true
  | .gmctrp1 => true
  | .gmctrn1 => true

/-- The next state of an opaque command's frame: its configuration is the empty list, nothing else of the controller's
but the latch changes (R184). -/
def opaqueNext (code : Byte) (s : State) : Host.Outcome State Fault Refusal :=
  .next (afterFrame false [code] { s.dev.latched code with cfg := Sparse.set code.toNat [] s.dev.cfg } s)

/-- The controller with the window set and the memory write open at its first corner (R139, R177). -/
def Dev.opened (cmd : CmdTable) (c0 r0 c1 r1 : Half) (d : Dev) : Dev :=
  { d with
    cmd := some cmd.ramwr, params := [], colS := some c0, colE := some c1, rowS := some r0, rowE := some r1,
    ramwr := true, ptrC := c0.toNat, ptrR := r0.toNat, pend := none }

/-- The state after `Window(x0, y0, x1, y1)` (R139): the margins are added, five frames are sent. -/
def afterWindow (p : Panel) (x0 y0 x1 y1 : Int) (s : State) : State :=
  let c0 := physical x0 p.cm
  let r0 := physical y0 p.rm
  let c1 := physical x1 p.cm
  let r1 := physical y1 p.rm
  { s with
    xfers := s.xfers + 5, lvl := { s.lvl with dc := some false, cs := some true },
    trace := s.trace ++ windowEvents s.par.cmd c0 r0 c1 r1, dev := s.dev.opened s.par.cmd c0 r0 c1 r1 }

/-! ### The trace decides the controller and the lines (R28, R33, R74, R170) -/

/-- What one event does to the controller: a byte is consumed, RST driven to 0 resets it, a failed transfer leaves it
unknown (R131, R170, R171). That the write pointer is kept by the last two is the model's (log 7). -/
def Dev.onEvent (par : Params) (d : Dev) : Event → Dev
  | .drive l v => d.onDrive l v
  | .byte dc b =>
    match devByte par dc b d with
    | .ok d' => d'
    | .error fd => fd.2
  | .hold _ => d
  | .settle _ => d
  | .busFail => d.forget

/-- What one event does to the levels: a drive sets one, a failed transfer leaves CS unknown (R28, R131). -/
def Levels.onEvent (l : Levels) : Event → Levels
  | .drive line v => l.drive line v
  | .byte _ _ => l
  | .hold _ => l
  | .settle _ => l
  | .busFail => { l with cs := none }

/-- Every byte is shifted out with chip-select asserted, reset not asserted, and DC at the byte's own level (R29, R170). -/
def bytesFramed : Levels → List Event → Prop
  | _, [] => True
  | l, .byte dc _ :: es => l.cs = some false ∧ l.rst ≠ some false ∧ l.dc = some dc ∧ bytesFramed l es
  | l, .drive line v :: es => bytesFramed (l.drive line v) es
  | l, .hold _ :: es => bytesFramed l es
  | l, .settle _ :: es => bytesFramed l es
  | l, .busFail :: es => bytesFramed { l with cs := none } es

/-- An event that starts a transfer: chip-select asserted (R131). -/
def Event.startsTransfer : Event → Bool
  | .drive .cs false => true
  | _ => false

/-- `t` comes from `s` by these events, and by nothing else as far as the trace, the controller, the lines and the
transfer count go (R28, R29, R30, R33). -/
structure Explains (events : List Event) (s t : State) : Prop where
  trace : t.trace = s.trace ++ events
  dev : t.dev = events.foldl (Dev.onEvent s.par) s.dev
  lvl : t.lvl = events.foldl Levels.onEvent s.lvl
  xfers : t.xfers = s.xfers + events.countP Event.startsTransfer
  framed : s.lvl.rst ≠ some false → bytesFramed s.lvl events

/-! ### Fills: what a drawing request stands for -/

/-- A one-colour rectangle in logical coordinates; a pixel is one of size 1 by 1 (R220). -/
structure Fill where
  x : Int
  y : Int
  w : Int
  h : Int
  color : Half
  deriving DecidableEq, Repr

/-- A pixel as a fill. -/
def Fill.pixel (x y : Int) (c : Half) : Fill := { x := x, y := y, w := 1, h := 1, color := c }

/-- The fill breaks no precondition of R220: no negative coordinate, a positive extent. -/
abbrev Fill.Legal (f : Fill) : Prop := 0 ≤ f.x ∧ 0 ≤ f.y ∧ 1 ≤ f.w ∧ 1 ≤ f.h

/-- The fill lies wholly on the panel: nothing is clipped (R220, R234). -/
abbrev Fill.Inside (p : Panel) (f : Fill) : Prop := f.x + f.w ≤ p.width ∧ f.y + f.h ≤ p.height

/-- Whether the clipping policy lets the fill through: always when silent, only when nothing is clipped otherwise
(R220, R234). -/
abbrev Fill.Admitted (par : Params) (p : Panel) (f : Fill) : Prop := par.clip = .silent ∨ f.Inside p

/-- The fault that stops the fill, where one does (R220, R234). -/
def Fill.fault (par : Params) (p : Panel) (f : Fill) : Option FaultCode :=
  if f.x < 0 ∨ f.y < 0 then some .negativeCoordinate
  else if f.w ≤ 0 ∨ f.h ≤ 0 then some .nonPositiveExtent
  else if par.clip = .fault ∧ ¬f.Inside p then some .outOfRange
  else none

/-- What of the fill is drawn: nothing off the panel, else the part on it (R220, R222, R223). -/
def Fill.clip (p : Panel) (f : Fill) : Option Fill :=
  if (p.width : Int) ≤ f.x ∨ (p.height : Int) ≤ f.y then none
  else some { f with w := min f.w (p.width - f.x), h := min f.h (p.height - f.y) }

/-- The events of a drawn fill: its window and one data frame of `w * h` pixels (R18, R220). -/
def Fill.events (cmd : CmdTable) (p : Panel) (f : Fill) : List Event :=
  windowEvents cmd (physical f.x p.cm) (physical f.y p.rm)
    (physical (f.x + f.w - 1) p.cm) (physical (f.y + f.h - 1) p.rm) ++
  frameEvents true (pixelStream f.color (f.w * f.h).toNat)

/-- Whether the physical cell (column `c`, row `r`) is one of the fill's (R19, R139). -/
def Fill.covers (p : Panel) (f : Fill) (c r : Nat) : Bool :=
  decide (f.x + p.cm ≤ c ∧ (c : Int) < f.x + f.w + p.cm ∧ f.y + p.rm ≤ r ∧ (r : Int) < f.y + f.h + p.rm)

/-- A frame-memory cell after the fills are drawn in order: the last fill that covers it, else what it held (R74). -/
def paint (p : Panel) (fills : List Fill) (c r : Nat) (old : Option Half) : Option Half :=
  fills.foldl (fun v f => if f.covers p c r then some f.color else v) old

/-- The controller after a fill: the window is the fill's, the memory write is open, the pointer is past the last
row, and frame memory is `g` (R177, R179, R223). Modes and configuration are kept. -/
def Dev.afterFill (cmd : CmdTable) (p : Panel) (f : Fill) (g : Frame) (d : Dev) : Dev :=
  { d with
    cmd := some cmd.ramwr, params := [], ramwr := true, pend := none, gram := g,
    colS := some (physical f.x p.cm), colE := some (physical (f.x + f.w - 1) p.cm),
    rowS := some (physical f.y p.rm), rowE := some (physical (f.y + f.h - 1) p.rm),
    ptrC := (f.x + p.cm).toNat, ptrR := (f.y + f.h + p.rm).toNat }

/-- The state after drawn fills, with frame memory `g`: trace, transfers, levels of DC and CS and the controller as
the last fill leaves it; everything else is as before. With no fill drawn nothing changes. -/
def afterFills (p : Panel) (fills : List Fill) (g : Frame) (s : State) : State :=
  match fills.getLast? with
  | none => s
  | some f =>
    { s with
      trace := s.trace ++ fills.flatMap (Fill.events s.par.cmd p), xfers := s.xfers + 6 * fills.length,
      lvl := { s.lvl with dc := some true, cs := some true }, dev := s.dev.afterFill s.par.cmd p f g }

/-- `t` is `s` with exactly these fills drawn, in order (R74, R220). -/
def Drawn (p : Panel) (fills : List Fill) (s t : State) : Prop :=
  ∃ g, Frame.wf g = true ∧ t = afterFills p fills g s ∧
    ∀ c r, Frame.get g c r = paint p fills c r (Frame.get s.dev.gram c r)

/-- A list of fills that the preconditions and the clipping policy let through (R220, R234). -/
def Admissible (par : Params) (p : Panel) (fills : List Fill) : Prop :=
  ∀ f ∈ fills, f.Legal ∧ f.Admitted par p

/-- The outcome of a drawing request that draws these fills: each clipped to the panel, in order, and the result
`Unit`. -/
def Draws (p : Panel) (fills : List Fill) (s : State) (o : Host.Outcome State Fault Refusal) : Prop :=
  ∃ t, o = .next (t.answer .unit) ∧ Drawn p (fills.filterMap (Fill.clip p)) s t

/-! ### The fills of each drawing request, in order -/

/-- The minor coordinate of the point `k` of a line with dominant extent `dx > 0` and minor extent `0 ≤ dy ≤ dx`:
`k * dy / dx` rounded to the nearest, as the accumulator of R227 does it. -/
def minorOffset (dx dy : Int) (k : Nat) : Int := (k * dy + (dx - 1 - dx / 2)) / dx

/-- The `dx + 1` pixels of a line along its dominant axis, from the smaller dominant coordinate on (R227). -/
def linePixels (steep : Bool) (x0 y0 x1 y1 : Int) (c : Half) : List Fill :=
  (List.range (x1 - x0 + 1).toNat).map fun k : Nat =>
    let x := x0 + (k : Int)
    let y := y0 + (if y0 < y1 then 1 else -1) * minorOffset (x1 - x0) |y1 - y0| k
    if steep then Fill.pixel y x c else Fill.pixel x y c

/-- The same with the endpoints put in order (R227). -/
def linePixelsOrdered (steep : Bool) (x0 y0 x1 y1 : Int) (c : Half) : List Fill :=
  if x1 < x0 then linePixels steep x1 y1 x0 y0 c else linePixels steep x0 y0 x1 y1 c

/-- The fills of LINE: a vertical run, a horizontal run, or the pixels of R227 (R226). -/
def lineFills (x0 y0 x1 y1 : Int) (c : Half) : List Fill :=
  if x0 = x1 then [{ x := x0, y := min y0 y1, w := 1, h := |y1 - y0| + 1, color := c }]
  else if y0 = y1 then [{ x := min x0 x1, y := y0, w := |x1 - x0| + 1, h := 1, color := c }]
  else if |x1 - x0| < |y1 - y0| then linePixelsOrdered true y0 x0 y1 x1 c
  else linePixelsOrdered false x0 y0 x1 y1 c

/-- The octant points `(x, y)` of the midpoint circle, in order, at most `n` of them (R228). -/
def octantSteps : Nat → Int → Int → Int → List (Int × Int)
  | 0, _, _, _ => []
  | n + 1, x, y, err =>
    if x < y then []
    else (x, y) ::
      (if err < 0 then octantSteps n x (y + 1) (err + 2 * (y + 1) + 1)
       else octantSteps n (x - 1) (y + 1) (err + 2 * ((y + 1) - (x - 1)) + 1))

/-- A span as fills: one or none (R230). -/
def spanFills (cx row a : Int) (left right : Bool) (f : Half) : List Fill :=
  match left, right with
  | true, true => [{ x := cx - a, y := row, w := 2 * a + 1, h := 1, color := f }]
  | true, false => [{ x := cx - a, y := row, w := a + 1, h := 1, color := f }]
  | false, true => [{ x := cx, y := row, w := a + 1, h := 1, color := f }]
  | false, false => []

/-- The spans S1 to S4 of one step (R230); the mask's bits are UL 0, UR 1, LL 2, LR 3 (R93). -/
def stepSpans (cx cy : Int) (quads : Byte) (f : Half) (xy : Int × Int) : List Fill :=
  spanFills cx (cy + xy.2) xy.1 (quads.getLsbD 2) (quads.getLsbD 3) f ++
  spanFills cx (cy - xy.2) xy.1 (quads.getLsbD 0) (quads.getLsbD 1) f ++
  spanFills cx (cy + xy.1) xy.2 (quads.getLsbD 2) (quads.getLsbD 3) f ++
  spanFills cx (cy - xy.1) xy.2 (quads.getLsbD 0) (quads.getLsbD 1) f

/-- The outline points P1 to P8 of one step whose quadrant bit is set (R93, R229). -/
def stepPixels (cx cy : Int) (quads : Byte) (c : Half) (xy : Int × Int) : List Fill :=
  [(3, cx + xy.1, cy + xy.2), (2, cx - xy.1, cy + xy.2), (1, cx + xy.1, cy - xy.2), (0, cx - xy.1, cy - xy.2),
    (3, cx + xy.2, cy + xy.1), (2, cx - xy.2, cy + xy.1), (1, cx + xy.2, cy - xy.1), (0, cx - xy.2, cy - xy.1)].filterMap
    fun q : Nat × Int × Int => if quads.getLsbD q.1 then some (Fill.pixel q.2.1 q.2.2 c) else none

/-- The fills of a circle: at each step its spans, where it is filled, then its outline points (R228 to R230). -/
def circleFills (cx cy r : Int) (c : Half) (quads : Byte) (fill : Bool) (f : Half) : List Fill :=
  (octantSteps (r + 1).toNat r 0 (1 - r)).flatMap fun xy =>
    (if fill then stepSpans cx cy quads f xy else []) ++ stepPixels cx cy quads c xy

/-- The fills of one glyph column whose byte is `b`: one for each set bit, top to bottom (R263). -/
def columnFills (scale : Nat) (c : Half) (gx gy : Int) (height i : Nat) (b : Byte) : List Fill :=
  (List.range height).filterMap fun j =>
    if b.getLsbD j then
      some { x := gx + i * scale, y := gy + j * scale, w := scale, h := scale, color := c }
    else none

/-- `colByte(ch, i)`, the byte at `fontBase + (ch - fontStart) * fontW + i`, where it can be read (R262). -/
def glyphByte (font : Memory) (fn : Font) (ch : Byte) (i : Nat) : Option Byte :=
  font.read (fn.base + (ch.toNat - fn.first) * fn.width + i)

/-- The fills of the first `n` columns of a glyph, left to right; an unreadable byte has none, and the claims exclude it
(R262, R263). -/
def glyphFills (font : Memory) (fn : Font) (scale : Nat) (c : Half) (gx gy : Int) (ch : Byte) (n : Nat) : List Fill :=
  (List.range n).flatMap fun i =>
    match glyphByte font fn ch i with
    | some b => columnFills scale c gx gy fn.height i b
    | none => []

/-- Where the next glyph is drawn: at the cursor `(cx, cy)`, or, where `cx + scale * fontW > s.W`, at the text's first column,
`scale * fontH + 1` rows further down (R264). -/
def glyphOrigin (p : Panel) (fn : Font) (scale : Nat) (x : Int) (cursor : Int × Int) : Int × Int :=
  if cursor.1 + scale * fn.width > p.width then (x, cursor.2 + scale * fn.height + 1) else cursor

/-- The cursor after a string: a covered character advances it past its glyph and one pixel, any other leaves it (R261,
R264, R265). -/
def textCursor (p : Panel) (fn : Font) (scale : Nat) (x : Int) : List Byte → Int × Int → Int × Int
  | [], cursor => cursor
  | ch :: rest, cursor =>
    if fn.first ≤ ch.toNat ∧ ch.toNat ≤ fn.last then
      textCursor p fn scale x rest
        ((glyphOrigin p fn scale x cursor).1 + scale * fn.width + 1, (glyphOrigin p fn scale x cursor).2)
    else textCursor p fn scale x rest cursor

/-- The fills of a string from a cursor on: the glyphs of its covered characters (R261, R264, R265). -/
def textFills (p : Panel) (font : Memory) (fn : Font) (scale : Nat) (c : Half) (x : Int) :
    List Byte → Int × Int → List Fill
  | [], _ => []
  | ch :: rest, cursor =>
    (if fn.first ≤ ch.toNat ∧ ch.toNat ≤ fn.last then
      glyphFills font fn scale c (glyphOrigin p fn scale x cursor).1 (glyphOrigin p fn scale x cursor).2 ch fn.width
    else []) ++
    textFills p font fn scale c x rest (textCursor p fn scale x [ch] cursor)

/-- The fills of a string, and then of the first `n` columns of the character `ch` (R261 to R265). -/
def textFillsInto (p : Panel) (font : Memory) (fn : Font) (scale : Nat) (c : Half) (x : Int) (codes : List Byte)
    (cursor : Int × Int) (ch : Byte) (n : Nat) : List Fill :=
  textFills p font fn scale c x codes cursor ++
  glyphFills font fn scale c (glyphOrigin p fn scale x (textCursor p fn scale x codes cursor)).1
    (glyphOrigin p fn scale x (textCursor p fn scale x codes cursor)).2 ch n

/-- Every column byte of every covered character can be read (R262). -/
def FontReadable (font : Memory) (fn : Font) (codes : List Byte) : Prop :=
  ∀ ch ∈ codes, fn.first ≤ ch.toNat → ch.toNat ≤ fn.last → ∀ i < fn.width, (glyphByte font fn ch i).isSome = true

/-- The outcome of a drawing request that draws these fills, each clipped to the panel, and is then stopped by a fault:
what was drawn stays (R220, R280). -/
def StopsAfter (p : Panel) (fills : List Fill) (f : FaultCode) (s : State) (o : Host.Outcome State Fault Refusal) :
    Prop :=
  ∃ t, o = .next (t.withFault f) ∧ Drawn p (fills.filterMap (Fill.clip p)) s t

/-! ### Requests and their gates -/

/-- The operation codes R95 does not list (R97). -/
abbrev UnassignedOp (op : Byte) : Prop := (0x0B ≤ op.toNat ∧ op.toNat ≤ 0x0F) ∨ 0x19 ≤ op.toNat

/-- The byte strings after an assigned operation code that R98 makes illegal: complete, with a `bool` byte above 1 or a
`quads` byte with a bit of 7:4 set. The offsets count from the first byte after `op` (R96). -/
def IllegalField (op : Nat) (bs : List Byte) : Prop :=
  match op with
  | 0x00 => 5 ≤ bs.length ∧ 2 ≤ (bs.getD 4 0).toNat
  | 0x06 => 1 ≤ bs.length ∧ 2 ≤ (bs.getD 0 0).toNat
  | 0x07 => 1 ≤ bs.length ∧ 2 ≤ (bs.getD 0 0).toNat
  | 0x09 => 1 ≤ bs.length ∧ 2 ≤ (bs.getD 0 0).toNat
  | 0x16 => 17 ≤ bs.length ∧ 2 ≤ (bs.getD 14 0).toNat
  | 0x17 =>
    19 ≤ bs.length ∧ (16 ≤ (bs.getD 14 0).toNat ∨ 2 ≤ (bs.getD 15 0).toNat ∨ 2 ≤ (bs.getD 16 0).toNat)
  | _ => False

/-- The opaque commands and the parameters the bring-up gives each (R136, R184). -/
def opaqueParams (init : InitParams) : List (WireName × List Byte) :=
  [(.frmctr1, init.frmctr1), (.frmctr2, init.frmctr2), (.frmctr3, init.frmctr3), (.invctr, init.invctr),
   (.pwctr1, init.pwctr1), (.pwctr2, init.pwctr2), (.pwctr3, init.pwctr3), (.pwctr4, init.pwctr4),
   (.pwctr5, init.pwctr5), (.vmctr1, init.vmctr1), (.colmod, init.colmod), (.gmctrp1, init.gmctrp1),
   (.gmctrn1, init.gmctrn1)]

/-- The controller faults, 0x12 to 0x18 (R281). -/
def FaultCode.isController (f : FaultCode) : Bool := decide (0x12 ≤ f.number.toNat ∧ f.number.toNat ≤ 0x18)

/-- The requests with which a brought-up session draws and is driven: all but CREATE, RESET, INITIALIZE and the two raw
bus primitives (R281). -/
def ordinary : Instr → Bool
  | .create _ _ _ => false
  | .reset => false
  | .initialise _ _ _ => false
  | .writeCommand _ => false
  | .writeData _ => false
  | .setAddressWindow _ _ _ _ => true
  | .power _ => true
  | .backlight _ => true
  | .backlightQuery => true
  | .invert _ => true
  | .packColor _ _ _ => true
  | .setPixel _ _ _ => true
  | .fillRect _ _ _ _ _ => true
  | .hline _ _ _ _ => true
  | .vline _ _ _ _ => true
  | .line _ _ _ _ _ => true
  | .circle _ _ _ _ => true
  | .circleFilled _ _ _ _ _ _ => true
  | .circleSegment _ _ _ _ _ _ _ _ => true
  | .text _ _ _ _ _ _ _ _ _ _ => true
  | .swreset => false
  | .slpout => false
  | .noron => false
  | .invoff => false
  | .invon => false
  | .dispoff => false
  | .dispon => false
  | .caset => false
  | .raset => false
  | .ramwr => false
  | .madctl => false
  | .colmod => false
  | .frmctr1 => false
  | .frmctr2 => false
  | .frmctr3 => false
  | .invctr => false
  | .pwctr1 => false
  | .pwctr2 => false
  | .pwctr3 => false
  | .pwctr4 => false
  | .pwctr5 => false
  | .vmctr1 => false
  | .gmctrp1 => false
  | .gmctrn1 => false

/-- The requests that pass `ReadyGate()` (R146). -/
def needsReady : Instr → Bool
  | .create _ _ _ => false
  | .reset => false
  | .initialise _ _ _ => false
  | .packColor _ _ _ => false
  | .writeCommand _ => true
  | .writeData _ => true
  | .setAddressWindow _ _ _ _ => true
  | .power _ => true
  | .backlight _ => true
  | .backlightQuery => true
  | .invert _ => true
  | .setPixel _ _ _ => true
  | .fillRect _ _ _ _ _ => true
  | .hline _ _ _ _ => true
  | .vline _ _ _ _ => true
  | .line _ _ _ _ _ => true
  | .circle _ _ _ _ => true
  | .circleFilled _ _ _ _ _ _ => true
  | .circleSegment _ _ _ _ _ _ _ _ => true
  | .text _ _ _ _ _ _ _ _ _ _ => true
  | .swreset => false
  | .slpout => false
  | .noron => false
  | .invoff => false
  | .invon => false
  | .dispoff => false
  | .dispon => false
  | .caset => false
  | .raset => false
  | .ramwr => false
  | .madctl => false
  | .colmod => false
  | .frmctr1 => false
  | .frmctr2 => false
  | .frmctr3 => false
  | .invctr => false
  | .pwctr1 => false
  | .pwctr2 => false
  | .pwctr3 => false
  | .pwctr4 => false
  | .pwctr5 => false
  | .vmctr1 => false
  | .gmctrp1 => false
  | .gmctrn1 => false

/-- The font record of a TEXT request. -/
def fontOf (fontW fontH fontStart fontEnd : Byte) (fontBase : Word) : Font :=
  ⟨fontW.toNat, fontH.toNat, fontStart.toNat, fontEnd.toNat, fontBase.toNat⟩

/-! ### The invariant -/

/-- What always holds of the controller: frame memory and configuration in canonical form; a half pixel only inside an
open memory write; an open memory write has RAMWR latched, its window set and in order, and the pointer inside it or
just past its last row (R34 to R36, R177, R179); every written pixel within some orientation's `GRAM_LIMIT` (R62,
R181). -/
structure DevInv (par : Params) (d : Dev) : Prop where
  gram : d.gram.wf = true
  cfg : Sparse.wf d.cfg = true
  pend : d.pend ≠ none → d.ramwr = true
  window : d.ramwr = true → d.cmd = some par.cmd.ramwr ∧ ∃ colS colE rowS rowE,
    d.colS = some colS ∧ d.colE = some colE ∧ d.rowS = some rowS ∧ d.rowE = some rowE ∧
    colS.toNat ≤ d.ptrC ∧ d.ptrC ≤ colE.toNat ∧ rowS.toNat ≤ d.ptrR ∧ d.ptrR ≤ rowE.toNat + 1
  bounds : ∀ c r, Frame.get d.gram c r ≠ none →
    ∃ o : Fin 4, c < (gramLimitOf par.gramLimit o).cols ∧ r < (gramLimitOf par.gramLimit o).rows

/-- What a session that is ready has (R23, R26, R135). -/
structure ReadySession (s : State) : Prop where
  panel : ∃ p, s.panel = some p ∧ p.Fits
  orient : s.orient ≠ none
  flags : s.powerOn ≠ none ∧ s.inverted ≠ none

/-- The invariant of the machine between steps. -/
structure Inv (s : State) : Prop where
  /-- the controller's (above) -/
  dev : DevInv s.par s.dev
  /-- font memory in canonical form (R61) -/
  font : s.font.wf = true
  /-- CREATE gives margins and backlight presence together (R130) -/
  created : (s.rm = none ↔ s.blPresent = none) ∧ (s.cm = none ↔ s.blPresent = none)
  /-- `Ready` only after a completed INITIALIZE (R135) -/
  ready : s.life = .ready → ReadySession s
  /-- the backlight state is recorded only where a line is wired (R26) -/
  backlight : s.blOn ≠ none → s.blPresent = some true
  /-- a request raises at most one fault, and none follows it (R280, R282) -/
  oneFault : s.faults.length ≤ 1
  /-- the host never sees `Resetting` or `Configuring` (R25) -/
  visible : s.faults = [] → s.life = .uninitialized ∨ s.life = .ready ∨ s.life = .failed
  /-- chip-select is deasserted, or not known, between requests (R131, R280) -/
  chipSelect : s.faults = [] → s.lvl.cs ≠ some false
  /-- reset is asserted only inside the pulse (R138) -/
  resetLine : s.lvl.rst ≠ some false

end Sys2Proof.Machine
end

