-- ==== Sys2Proof/Certificates/Slice0/Obligations.lean ====
section
/-! DEFINITION. The statements for the provers: what the rules of spec/ say of reset, decoding, each instruction and the
machine as a whole. Terms are those of Safety.lean. -/

open Sys2Proof Sys2Proof.Machine

/-! ### Power-up, steps, decoding -/

/-- R310, R42: power-up, and what each request finds there. -/
def Obligations.PowerUpState : Prop :=
  (∃ font, State.reset = State.powerUp resetParams font) ∧
  ∀ (par : Params) (font : Memory), ∃ s, s = State.powerUp par font ∧
    s.life = .uninitialized ∧ s.rm = none ∧ s.cm = none ∧ s.blPresent = none ∧ s.W = none ∧ s.H = none ∧
    s.orient = none ∧ s.powerOn = none ∧ s.inverted = none ∧ s.blOn = none ∧ s.trace = [] ∧ s.xfers = 0 ∧
    s.faults = [] ∧ s.ret = .unit ∧
    s.lvl.dc = none ∧ s.lvl.cs = none ∧ s.lvl.rst = none ∧ s.lvl.bl = none ∧
    s.dev.cmd = none ∧ s.dev.params = [] ∧ s.dev.colS = none ∧ s.dev.colE = none ∧ s.dev.rowS = none ∧
    s.dev.rowE = none ∧ s.dev.ramwr = false ∧ s.dev.pend = none ∧ s.dev.sleepOut = none ∧ s.dev.dispOn = none ∧
    s.dev.invOn = none ∧ s.dev.normal = none ∧ s.dev.madctl = none ∧ (∀ c, Sparse.get c s.dev.cfg = none) ∧
    (∀ c r, Frame.get s.dev.gram c r = none) ∧
    (∃ t, exec .reset s = .next t ∧ t.trace = pulseEvents ∧ t.faults = []) ∧
    (∀ w h o, exec (.initialise w h o) s = .next (s.withFault .badSessionParameters)) ∧
    (∀ i, needsReady i = true → exec i s = .next (s.withFault .notReady))

/-- The invariant holds at reset. -/
def Obligations.ResetMeetsInvariant : Prop := Inv State.reset

/-- R21, R144: a step runs the instruction the oldest message decodes to, the message consumed up to its undecoded
bytes (the queue is the model's: log 1, log 9). A bare frame as a message of its own, a command or a data frame, is the
model's choice (log 2). An illegal request raises its fault (R97, R98); a string that ends early is refused (R94); that a
command frame of no command's code is refused as well is deduced (log 16). -/
def Obligations.StepRunsWhatItDecodes : Prop :=
  ∀ (s : State) (m : Inbound) (q : List Inbound), s.faults = [] → s.pending = m :: q →
    (∀ i rest, decode s.par.cmd m = .instr i rest → step s = exec i { s with pending := leftover rest q }) ∧
    (∀ bytes, m = .data bytes → step s = sendDataFrame bytes { s with pending := q }) ∧
    (decode s.par.cmd m = .illegal → step s = .next (s.withFault .illegalRequest)) ∧
    (decode s.par.cmd m = .incomplete → step s = .refused .incompleteRequest) ∧
    (decode s.par.cmd m = .unassigned → step s = .refused .unassignedWireCommand)

/-- R31: the faults start empty, only grow across any instruction, from any state, survive CREATE, and stop the block. That
a frame can be put on the wire by itself, the data frame of the third clause among them, is the model's choice (log 2). -/
def Obligations.FaultsAreSticky : Prop :=
  State.reset.faults = [] ∧
  (∀ i s t, exec i s = .next t → s.faults <+: t.faults) ∧
  (∀ bytes s t, sendDataFrame bytes s = .next t → s.faults <+: t.faults) ∧
  (∀ (s : State) rm cm bl, ∃ t, exec (.create rm cm bl) s = .next t ∧ t.faults = s.faults) ∧
  (∀ s : State, s.faults ≠ [] → step s = .fault .blockStopped)

/-- R97: an unassigned operation code raises `IllegalRequest`, with nothing else done. -/
def Obligations.UnassignedOperations : Prop :=
  ∀ (s : State) (op : Byte) (bs : List Byte) (q : List Inbound), UnassignedOp op → s.faults = [] →
    s.pending = .request (op :: bs) :: q → step s = .next (s.withFault .illegalRequest)

/-- R98: with an assigned operation code, the requests that are illegal are those with a `bool` byte above 1 or a high
bit of `quads` set, and no others; an illegal request raises `IllegalRequest`. -/
def Obligations.IllegalFields : Prop :=
  (∀ (op : Byte) (bs : List Byte), ¬UnassignedOp op →
    (decodeRequest (op :: bs) = .illegal ↔ IllegalField op.toNat bs)) ∧
  (∀ (s : State) (bytes : List Byte) (q : List Inbound), s.faults = [] → s.pending = .request bytes :: q →
    decodeRequest bytes = .illegal → step s = .next (s.withFault .illegalRequest))

/-- R94: a request has the length of its table; a string that ends earlier is refused and no step is taken; the decoder
takes exactly that many bytes. -/
def Obligations.TruncatedRequests : Prop :=
  (∀ i : Instr, i.wireName = none → i.wf = true → (encodeRequest i).length = i.length ∧
    ∀ n, n < i.length → decodeRequest ((encodeRequest i).take n) = .incomplete) ∧
  (∀ bytes i rest, decodeRequest bytes = .instr i rest → bytes.length = i.length + rest.length) ∧
  (∀ (s : State) (bytes : List Byte) (q : List Inbound), s.faults = [] → s.pending = .request bytes :: q →
    decodeRequest bytes = .incomplete → step s = .refused .incompleteRequest)

/-- Every well-formed instruction is read back from its encoding, whatever bytes follow, under every table of distinct
codes. -/
def Obligations.DecodeOfEncode : Prop :=
  ∀ (cmd : CmdTable) (i : Instr), CodesDistinct cmd → i.wf = true →
    decode cmd (encode cmd i) = .instr i [] ∧
    (i.wireName = none → ∀ rest, decodeRequest (encodeRequest i ++ rest) = .instr i rest)

/-- R99: each operation has exactly one spelling: a byte string that decodes is the encoding of what it decodes to. -/
def Obligations.OneSpelling : Prop :=
  ∀ bytes i rest, decodeRequest bytes = .instr i rest →
    i.wf = true ∧ i.wireName = none ∧ bytes = encodeRequest i ++ rest

/-- Words written out from R91, R95, R96 and R104 decode to the instructions they stand for; and the orientation bytes
of R8 and R107. -/
def Obligations.DecodedWords : Prop :=
  decodeRequest [0x00, 0x00, 0x01, 0x00, 0x02, 0x01] = .instr (.create 1 2 true) [] ∧
  decodeRequest [0x02, 0x00, 0xA0, 0x00, 0x80, 0x01] = .instr (.initialise 160 128 1) [] ∧
  decodeRequest [0x04, 0x00, 0x02, 0xF8, 0x00] = .instr (.writeData [0xF8, 0x00]) [] ∧
  decodeRequest [0x10, 0xFF, 0xFF, 0xFF, 0xFF, 0x00, 0x00, 0x00, 0x04, 0xF8, 0x00] =
    .instr (.setPixel (-1) 4 0xF800) [] ∧
  decodeRequest [0x17, 0, 0, 0, 10, 0, 0, 0, 10, 0, 0, 0, 2, 0x07, 0xE0, 0x01, 0, 0, 0, 0] =
    .instr (.circleSegment 10 10 2 0x07E0 0x01 false false 0) [] ∧
  decode CmdTable.default (.command 0x2C) = .instr .ramwr [] ∧
  decode CmdTable.default (.command 0x36) = .instr .madctl [] ∧
  madTable 0 = 0x00 ∧ madTable 1 = 0x60 ∧ madTable 2 = 0xC0 ∧ madTable 3 = 0xA0

/-- The request syntax of R101: its three examples, each form it names (numbers, `bool`, `quads` as a set, the empty set and
`None`, lists, quoted strings, the font, the omitted fields), and the colour of R102. `\x7b` and `\x7d` are the braces. That a
number of quadrants is read too, and that an operand out of its field's range does not assemble, are the model's choices
(log 18). -/
def Obligations.AssembledRequests : Prop :=
  assemble "FILL_RECT 0, 0, 160, 128, 0xFFFF" = some (.fillRect 0 0 160 128 0xFFFF) ∧
  assemble "CIRCLE_SEGMENT 10, 10, 2, 0x07E0, \x7bUL\x7d" = some (.circleSegment 10 10 2 0x07E0 0x01 false false 0) ∧
  assemble "TEXT 0, 0, 0x0000, 1, font(3, 5, 0x41, 0x42, 0x100), \"AB\"" =
    some (.text 0 0 0x0000 1 3 5 0x41 0x42 0x100 [0x41, 0x42]) ∧
  assemble "CIRCLE_SEGMENT 10, 10, 2, 0x07E0, \x7bUR, LL, LR\x7d, on, 1, 0xF800" =
    some (.circleSegment 10 10 2 0x07E0 0x0E true true 0xF800) ∧
  assemble "CIRCLE_SEGMENT 10, 10, 2, 0x07E0, \x7b\x7d" = some (.circleSegment 10 10 2 0x07E0 0x00 false false 0) ∧
  assemble "CIRCLE_SEGMENT 10, 10, 2, 0x07E0, None" = some (.circleSegment 10 10 2 0x07E0 0x0F false false 0) ∧
  assemble "CIRCLE_FILLED 5, 5, 1, 0xAAAA" = some (.circleFilled 5 5 1 0xAAAA false 0) ∧
  assemble "TEXT 0, 0, 0x0000, 1, font(3, 5, 0x41, 0x42, 0x100), [65, 66]" =
    some (.text 0 0 0x0000 1 3 5 0x41 0x42 0x100 [0x41, 0x42]) ∧
  assemble "WRITE_DATA [0xF8, 0]" = some (.writeData [0xF8, 0x00]) ∧
  assemble "POWER on" = some (.power true) ∧ assemble "POWER off" = some (.power false) ∧
  assemble "POWER 1" = some (.power true) ∧ assemble "POWER 0" = some (.power false) ∧
  assemble "BACKLIGHT_QUERY" = some .backlightQuery ∧
  assemble "FILL_RECT 0, 0, 160, 128, WHITE" = some (.fillRect 0 0 160 128 0xFFFF) ∧
  assemble "CIRCLE_SEGMENT 10, 10, 2, 0x07E0, 9" = some (.circleSegment 10 10 2 0x07E0 0x09 false false 0) ∧
  assemble "PACK_COLOR 256, 0, 0" = none

/-- R100: the byte forms of the results. -/
def Obligations.ResultForms : Prop :=
  Result.bytes .unit = [0x00] ∧
  Result.bytes (.status true) = [0x01, 0x00] ∧ Result.bytes (.status false) = [0x01, 0x01] ∧
  Result.bytes (.backlight true) = [0x02, 0x00] ∧ Result.bytes (.backlight false) = [0x02, 0x01] ∧
  Result.bytes (.backlightState .off) = [0x03, 0x00] ∧ Result.bytes (.backlightState .on) = [0x03, 0x01] ∧
  Result.bytes (.backlightState .unsupported) = [0x03, 0x02] ∧
  ∀ v : Half, Result.bytes (.color v) = [0x04, hi8 v, lo8 v]

/-! ### Session, reset, bring-up -/

/-- R130, R311: CREATE sets the session fields and keeps everything else, in every state. -/
def Obligations.CreateStartsASession : Prop :=
  ∀ (s : State) (rowMargin colMargin : Half) (blPresent : Bool),
    exec (.create rowMargin colMargin blPresent) s = .next
      { s with
        life := .uninitialized, rm := some rowMargin, cm := some colMargin, blPresent := some blPresent,
        W := none, H := none, orient := none, powerOn := none, inverted := none, blOn := none, ret := .unit }

/-- R138, R312: RESET pulses the line in `Uninitialized`, leaving the controller unknown, and is turned away elsewhere; no
session field changes. -/
def Obligations.ResetPulses : Prop :=
  ∀ s : State,
    (s.life = .uninitialized → ∃ d : Dev, d.Unknown ∧ exec .reset s = .next
      { s with
        lvl := { s.lvl with rst := some true },
        trace := s.trace ++ [.drive .rst true, .hold 0, .drive .rst false, .hold 1, .drive .rst true, .hold 2],
        dev := d, ret := .unit }) ∧
    (s.life = .failed → exec .reset s = .next (s.withFault .sessionUnusable)) ∧
    (s.life ≠ .failed → s.life ≠ .uninitialized → exec .reset s = .next (s.withFault .resetNotAllowed))

/-- R171: RST driven to 0 leaves every controller field the rule names without a value; driven to 1 it changes none. -/
def Obligations.HardwareReset : Prop :=
  ∀ s : State, (drive .rst false s).dev.Unknown ∧ (drive .rst true s).dev = s.dev

/-- R313, R135, R136: INITIALIZE brings the controller up, over any parameters that meet R104 and R136, when its
transfers complete; every state field it does not name is as before; the sequence is that of R136. -/
def Obligations.InitialiseBringsUp : Prop :=
  ∀ (s : State) (rm cm w h : Half) (o : Fin 4), s.life = .uninitialized → s.rm = some rm → s.cm = some cm →
    1 ≤ w.toNat → 1 ≤ h.toNat → w.toNat - 1 + cm.toNat ≤ 0xFFFF → h.toNat - 1 + rm.toNat ≤ 0xFFFF →
    CodesDistinct s.par.cmd → s.par.init.caset.length = 4 → s.par.init.raset.length = 4 →
    (∀ m, s.xfers ≤ m → m < s.xfers + initTransfers s.par o → busOk s.par m = true) →
    ∃ d : Dev,
      exec (.initialise w h (BitVec.ofNat 8 o)) s = .next
        { s with
          life := .ready, W := some w.toNat, H := some h.toNat, orient := some o, powerOn := some true,
          inverted := some false, ret := .status true, xfers := s.xfers + initTransfers s.par o,
          lvl := { s.lvl with dc := some false, cs := some true, rst := some true },
          trace := s.trace ++ initEvents s.par o, dev := d } ∧
      d.cmd = some s.par.cmd.dispon ∧ d.params = [] ∧ d.ramwr = false ∧ d.pend = none ∧ d.sleepOut = some true ∧
      d.invOn = some false ∧ d.normal = some true ∧ d.dispOn = some true ∧ d.madctl = some (madTable o) ∧
      d.colS = some (paramBound s.par.init.caset 0) ∧ d.colE = some (paramBound s.par.init.caset 2) ∧
      d.rowS = some (paramBound s.par.init.raset 0) ∧ d.rowE = some (paramBound s.par.init.raset 2) ∧
      (∀ np ∈ opaqueParams s.par.init, Sparse.get (s.par.cmd.code np.1).toNat d.cfg = some np.2) ∧
      (∀ c r, Frame.get d.gram c r = none) ∧
      (initSeq s.par.init o).map BringUpStep.k = List.range' 1 21 ∧
      (initSeq s.par.init o).map (fun st => (st.name, st.params)) =
        [(.swreset, []), (.slpout, []), (.frmctr1, s.par.init.frmctr1), (.frmctr2, s.par.init.frmctr2),
         (.frmctr3, s.par.init.frmctr3), (.invctr, s.par.init.invctr), (.pwctr1, s.par.init.pwctr1),
         (.pwctr2, s.par.init.pwctr2), (.pwctr3, s.par.init.pwctr3), (.pwctr4, s.par.init.pwctr4),
         (.pwctr5, s.par.init.pwctr5), (.vmctr1, s.par.init.vmctr1)] ++
        [(.invoff, []), (.madctl, [madTable o]), (.colmod, s.par.init.colmod), (.caset, s.par.init.caset),
         (.raset, s.par.init.raset), (.gmctrp1, s.par.init.gmctrp1), (.gmctrn1, s.par.init.gmctrn1), (.noron, []),
         (.dispon, [])]

/-- R135: who INITIALIZE turns away, and with what fault; nothing else changes. -/
def Obligations.InitialiseAdmission : Prop :=
  ∀ (s : State) (w h : Half) (o : Byte),
    (s.life = .failed → exec (.initialise w h o) s = .next (s.withFault .sessionUnusable)) ∧
    (s.life ≠ .failed → s.life ≠ .uninitialized →
      exec (.initialise w h o) s = .next (s.withFault .alreadyInitialized)) ∧
    (s.life = .uninitialized →
      (s.rm = none ∨ s.cm = none ∨ w.toNat < 1 ∨ h.toNat < 1 ∨ 3 < o.toNat ∨
        (∃ cm, s.cm = some cm ∧ 0xFFFF < w.toNat - 1 + cm.toNat) ∨
        (∃ rm, s.rm = some rm ∧ 0xFFFF < h.toNat - 1 + rm.toNat)) →
      exec (.initialise w h o) s = .next (s.withFault .badSessionParameters))

/-- R131, R137, R314: when a transfer of INITIALIZE fails, the first that does ends the bring-up: it stops at that frame's
chip-select assertion with none of its bytes sent, so the remaining steps are not issued, the session is `Failed`, the
controller is unknown, the result says so and no fault is raised. -/
def Obligations.BringUpFailure : Prop :=
  ∀ (s : State) (rm cm w h : Half) (o : Fin 4) (m : Nat), s.life = .uninitialized → s.rm = some rm → s.cm = some cm →
    1 ≤ w.toNat → 1 ≤ h.toNat → w.toNat - 1 + cm.toNat ≤ 0xFFFF → h.toNat - 1 + rm.toNat ≤ 0xFFFF →
    CodesDistinct s.par.cmd → s.par.init.caset.length = 4 → s.par.init.raset.length = 4 →
    s.xfers ≤ m → m < s.xfers + initTransfers s.par o → (∀ n, s.xfers ≤ n → n < m → busOk s.par n = true) →
    busOk s.par m = false →
    ∃ (d : Dev) (dc : Level) (b : Byte) (es rest : List Event),
      initEvents s.par o = es ++ .drive .dc dc :: .drive .cs false :: .byte dc b :: rest ∧
      s.xfers + es.countP Event.startsTransfer = m ∧ d.Unknown ∧
      exec (.initialise w h (BitVec.ofNat 8 o)) s = .next
        { s with
          life := .failed, W := some w.toNat, H := some h.toNat, orient := some o, ret := .status false,
          xfers := m + 1, lvl := { s.lvl with dc := some dc, cs := none, rst := some true },
          trace := s.trace ++ es ++ [.drive .dc dc, .drive .cs false, .busFail], dev := d }

/-- R146: the admission check of every request that needs a brought-up session. -/
def Obligations.ReadyGate : Prop :=
  ∀ (s : State) (i : Instr), needsReady i = true →
    (s.life = .failed → exec i s = .next (s.withFault .sessionUnusable)) ∧
    (s.life ≠ .failed → s.life ≠ .ready → exec i s = .next (s.withFault .notReady))

/-- R27: in `Failed` every request but CREATE and PACK_COLOR raises `SessionUnusable` and changes nothing else;
PACK_COLOR runs and CREATE leaves the state. -/
def Obligations.FailedSession : Prop :=
  ∀ s : State, s.life = .failed →
    (∀ i : Instr, i.wireName = none → (∀ rm cm bl, i ≠ .create rm cm bl) → (∀ r g b, i ≠ .packColor r g b) →
      exec i s = .next (s.withFault .sessionUnusable)) ∧
    (∀ r g b, exec (.packColor r g b) s = .next (s.answer (.color (packColor r g b)))) ∧
    (∀ rm cm bl, ∃ t, exec (.create rm cm bl) s = .next t ∧ t.life = .uninitialized)

/-! ### The bus primitives and the engine -/

/-- R133: WRITE_COMMAND in a ready session: an unknown code is refused; a known one goes on the wire in its own frame,
with what the controller makes of it; no session flag is written. -/
def Obligations.WriteCommand : Prop :=
  ∀ (s : State) (code : Byte), s.life = .ready →
    (s.par.cmd.nameOf code = none → exec (.writeCommand code) s = .next (s.withFault .unknownWireCommand)) ∧
    (∀ name, s.par.cmd.nameOf code = some name →
      (∀ d, busOk s.par s.xfers = true → devByte s.par false code s.dev = .ok d →
        exec (.writeCommand code) s = .next ((afterFrame false [code] d s).answer .unit)) ∧
      (∀ f d, busOk s.par s.xfers = true → devByte s.par false code s.dev = .error (f, d) →
        exec (.writeCommand code) s = .next (afterFault false [code] d f s)) ∧
      (busOk s.par s.xfers = false → ∃ d : Dev, d.Unknown ∧
        exec (.writeCommand code) s = .next (afterBusFailure false d s)))

/-- R134: WRITE_DATA in a ready session: the bytes go on the wire in one data frame, until the controller faults. -/
def Obligations.WriteData : Prop :=
  ∀ (s : State) (data : List Byte), s.life = .ready →
    (busOk s.par s.xfers = true → (devFrame s.par true data s.dev).fault = none →
      exec (.writeData data) s =
        .next ((afterFrame true data (devFrame s.par true data s.dev).dev s).answer .unit)) ∧
    (∀ f, busOk s.par s.xfers = true → (devFrame s.par true data s.dev).fault = some f →
      exec (.writeData data) s =
        .next (afterFault true (devFrame s.par true data s.dev).sent (devFrame s.par true data s.dev).dev f s) ∧
      (devFrame s.par true data s.dev).sent <+: data) ∧
    (busOk s.par s.xfers = false → ∃ d : Dev, d.Unknown ∧
      exec (.writeData data) s = .next (afterBusFailure true d s))

/-- R139: SET_ADDRESS_WINDOW sends the window's five frames, margins added, and leaves the memory write open at its
first corner; a window outside the panel or out of order is refused. -/
def Obligations.SetAddressWindow : Prop :=
  ∀ (p : Panel) (s : State) (x0 y0 x1 y1 : Word), s.life = .ready → s.panel = some p →
    (p.Fits → CodesDistinct s.par.cmd → BusReliable s.par → s.dev.Clean s.par.cmd →
      0 ≤ sext32 x0 → sext32 x0 ≤ sext32 x1 → sext32 x1 < p.width →
      0 ≤ sext32 y0 → sext32 y0 ≤ sext32 y1 → sext32 y1 < p.height →
      exec (.setAddressWindow x0 y0 x1 y1) s =
        .next ((afterWindow p (sext32 x0) (sext32 y0) (sext32 x1) (sext32 y1) s).answer .unit)) ∧
    (sext32 x0 < 0 ∨ sext32 x1 < sext32 x0 ∨ p.width ≤ sext32 x1 ∨ sext32 y0 < 0 ∨ sext32 y1 < sext32 y0 ∨
        p.height ≤ sext32 y1 →
      exec (.setAddressWindow x0 y0 x1 y1) s = .next (s.withFault .invalidWindow))

/-- R140: POWER sends DISPON or DISPOFF, whatever the flag was, and sets the flag. -/
def Obligations.Power : Prop :=
  ∀ (s : State) (on : Bool), s.life = .ready → FrameReady s →
    exec (.power on) s = .next
      { afterFrame false [if on then s.par.cmd.dispon else s.par.cmd.dispoff]
          { s.dev.latched (if on then s.par.cmd.dispon else s.par.cmd.dispoff) with dispOn := some on } s with
        powerOn := some on, ret := .unit }

/-- R143: INVERT sends INVON or INVOFF, whatever the flag was, and sets the flag. -/
def Obligations.Invert : Prop :=
  ∀ (s : State) (on : Bool), s.life = .ready → FrameReady s →
    exec (.invert on) s = .next
      { afterFrame false [if on then s.par.cmd.invon else s.par.cmd.invoff]
          { s.dev.latched (if on then s.par.cmd.invon else s.par.cmd.invoff) with invOn := some on } s with
        inverted := some on, ret := .unit }

/-- R141: BACKLIGHT drives the line where one is wired, and says so; it sends nothing. -/
def Obligations.Backlight : Prop :=
  ∀ (s : State) (on : Bool),
    (s.life = .failed → exec (.backlight on) s = .next (s.withFault .sessionUnusable)) ∧
    (s.life ≠ .failed → s.life ≠ .ready → exec (.backlight on) s = .next (s.withFault .notReady)) ∧
    (s.life = .ready → s.blPresent = some false → exec (.backlight on) s = .next (s.answer (.backlight false))) ∧
    (s.life = .ready → s.blPresent = some true → exec (.backlight on) s = .next
      { s with
        lvl := { s.lvl with bl := some on }, trace := s.trace ++ [.drive .bl on], blOn := some on,
        ret := .backlight true })

/-- R142: BACKLIGHT_QUERY reports the backlight state, and faults before the first BACKLIGHT. -/
def Obligations.BacklightQuery : Prop :=
  ∀ s : State,
    (s.life = .failed → exec .backlightQuery s = .next (s.withFault .sessionUnusable)) ∧
    (s.life ≠ .failed → s.life ≠ .ready → exec .backlightQuery s = .next (s.withFault .notReady)) ∧
    (s.life = .ready → s.blPresent = some false →
      exec .backlightQuery s = .next (s.answer (.backlightState .unsupported))) ∧
    (s.life = .ready → s.blPresent = some true → s.blOn = none →
      exec .backlightQuery s = .next (s.withFault .backlightUnknown)) ∧
    (s.life = .ready → s.blPresent = some true → s.blOn = some true →
      exec .backlightQuery s = .next (s.answer (.backlightState .on))) ∧
    (s.life = .ready → s.blPresent = some true → s.blOn = some false →
      exec .backlightQuery s = .next (s.answer (.backlightState .off)))

/-- R44: the session flags agree with the controller after a successful INITIALIZE, and each later POWER or INVERT
that completes keeps the agreement. -/
def Obligations.SessionMirrorsController : Prop :=
  ∀ (s t : State), CodesDistinct s.par.cmd → s.faults = [] → t.faults = [] →
    ((∃ w h o, exec (.initialise w h o) s = .next t) → s.par.init.caset.length = 4 → s.par.init.raset.length = 4 →
      t.ret = .status true → t.life = .ready → t.powerOn = t.dev.dispOn ∧ t.inverted = t.dev.invOn) ∧
    ((∃ on, exec (.power on) s = .next t ∨ exec (.invert on) s = .next t) →
      s.powerOn = s.dev.dispOn → s.inverted = s.dev.invOn → t.powerOn = t.dev.dispOn ∧ t.inverted = t.dev.invOn)

/-! ### The controller's commands, as frames of their own -/

/-- R183, R195, R196, R201, R202, R203: the mode commands set their field when the byte arrives, and take no parameter. -/
def Obligations.ModeCommands : Prop :=
  (∀ s : State, FrameReady s →
    exec .slpout s = .next (afterFrame false [s.par.cmd.slpout]
      { s.dev.latched s.par.cmd.slpout with sleepOut := some true } s) ∧
    exec .noron s = .next (afterFrame false [s.par.cmd.noron]
      { s.dev.latched s.par.cmd.noron with normal := some true } s) ∧
    exec .invoff s = .next (afterFrame false [s.par.cmd.invoff]
      { s.dev.latched s.par.cmd.invoff with invOn := some false } s) ∧
    exec .invon s = .next (afterFrame false [s.par.cmd.invon]
      { s.dev.latched s.par.cmd.invon with invOn := some true } s) ∧
    exec .dispoff s = .next (afterFrame false [s.par.cmd.dispoff]
      { s.dev.latched s.par.cmd.dispoff with dispOn := some false } s) ∧
    exec .dispon s = .next (afterFrame false [s.par.cmd.dispon]
      { s.dev.latched s.par.cmd.dispon with dispOn := some true } s)) ∧
  (∀ (par : Params) (d : Dev) (b : Byte), CodesDistinct par.cmd → d.ramwr = false →
    d.cmd ∈ [some par.cmd.slpout, some par.cmd.noron, some par.cmd.invoff, some par.cmd.invon, some par.cmd.dispoff,
      some par.cmd.dispon] →
    devByte par true b d = .error (.excessParameter, { d with params := d.params ++ [b] }))

/-- R182: SWRESET leaves every field but the latched command unspecified, and takes no parameter. -/
def Obligations.SoftwareReset : Prop :=
  (∀ s : State, FrameReady s → ∃ d : Dev, exec .swreset s = .next (afterFrame false [s.par.cmd.swreset] d s) ∧
    d.cmd = some s.par.cmd.swreset ∧ d.params = [] ∧ d.colS = none ∧ d.colE = none ∧ d.rowS = none ∧ d.rowE = none ∧
    d.ramwr = false ∧ d.pend = none ∧ d.sleepOut = none ∧ d.dispOn = none ∧ d.invOn = none ∧ d.normal = none ∧
    d.madctl = none ∧ (∀ c, Sparse.get c d.cfg = none) ∧ (∀ c r, Frame.get d.gram c r = none)) ∧
  (∀ (par : Params) (d : Dev) (b : Byte), CodesDistinct par.cmd → d.ramwr = false → d.cmd = some par.cmd.swreset →
    devByte par true b d = .error (.excessParameter, { d with params := d.params ++ [b] }))

/-- R175, R176, R197: CASET, RASET and MADCTL do nothing when latched; their parameter bytes set the window's columns,
its rows and the memory-access byte, in one frame or in several; a byte too many faults. -/
def Obligations.AddressCommands : Prop :=
  (∀ s : State, FrameReady s →
    exec .caset s = .next (afterFrame false [s.par.cmd.caset] (s.dev.latched s.par.cmd.caset) s) ∧
    exec .raset s = .next (afterFrame false [s.par.cmd.raset] (s.dev.latched s.par.cmd.raset) s) ∧
    exec .madctl s = .next (afterFrame false [s.par.cmd.madctl] (s.dev.latched s.par.cmd.madctl) s)) ∧
  (∀ (s : State) (a b : Half), CodesDistinct s.par.cmd → busOk s.par s.xfers = true → s.dev.ramwr = false →
    s.dev.params = [] →
    (s.dev.cmd = some s.par.cmd.caset → sendDataFrame [hi8 a, lo8 a, hi8 b, lo8 b] s =
      .next (afterFrame true [hi8 a, lo8 a, hi8 b, lo8 b]
        { s.dev with params := [hi8 a, lo8 a, hi8 b, lo8 b], colS := some a, colE := some b } s)) ∧
    (s.dev.cmd = some s.par.cmd.raset → sendDataFrame [hi8 a, lo8 a, hi8 b, lo8 b] s =
      .next (afterFrame true [hi8 a, lo8 a, hi8 b, lo8 b]
        { s.dev with params := [hi8 a, lo8 a, hi8 b, lo8 b], rowS := some a, rowE := some b } s)) ∧
    (∀ m, s.dev.cmd = some s.par.cmd.madctl → sendDataFrame [m] s =
      .next (afterFrame true [m] { s.dev with params := [m], madctl := some m } s))) ∧
  (∀ (par : Params) (d : Dev) (b : Byte), CodesDistinct par.cmd → d.ramwr = false →
    ((d.cmd = some par.cmd.caset ∨ d.cmd = some par.cmd.raset) → d.params.length < 3 →
      devByte par true b d = .ok { d with params := d.params ++ [b] }) ∧
    (∀ a1 a0 b1 : Byte, d.params = [a1, a0, b1] → ∃ first last : Half,
      first.toNat = a1.toNat * 256 + a0.toNat ∧ last.toNat = b1.toNat * 256 + b.toNat ∧
      (d.cmd = some par.cmd.caset → devByte par true b d =
        .ok { d with params := [a1, a0, b1, b], colS := some first, colE := some last }) ∧
      (d.cmd = some par.cmd.raset → devByte par true b d =
        .ok { d with params := [a1, a0, b1, b], rowS := some first, rowE := some last })) ∧
    (d.cmd = some par.cmd.madctl → d.params = [] →
      devByte par true b d = .ok { d with params := [b], madctl := some b }) ∧
    ((d.cmd = some par.cmd.caset ∨ d.cmd = some par.cmd.raset) → 4 ≤ d.params.length →
      devByte par true b d = .error (.excessParameter, { d with params := d.params ++ [b] })) ∧
    (d.cmd = some par.cmd.madctl → 1 ≤ d.params.length →
      devByte par true b d = .error (.excessParameter, { d with params := d.params ++ [b] })))

/-- R177: RAMWR opens the memory write at the window's first corner, or faults where the window is unset or out of order. -/
def Obligations.MemoryWriteOpens : Prop :=
  ∀ s : State, FrameReady s →
    (∀ colS colE rowS rowE : Half, s.dev.colS = some colS → s.dev.colE = some colE → s.dev.rowS = some rowS →
      s.dev.rowE = some rowE → colS.toNat ≤ colE.toNat → rowS.toNat ≤ rowE.toNat →
      exec .ramwr s = .next (afterFrame false [s.par.cmd.ramwr]
        { s.dev with
          cmd := some s.par.cmd.ramwr, params := [], ramwr := true, ptrC := colS.toNat, ptrR := rowS.toNat,
          pend := none } s)) ∧
    ((s.dev.colS = none ∨ s.dev.colE = none ∨ s.dev.rowS = none ∨ s.dev.rowE = none ∨
        (∃ a b, s.dev.colS = some a ∧ s.dev.colE = some b ∧ b.toNat < a.toNat) ∨
        (∃ a b, s.dev.rowS = some a ∧ s.dev.rowE = some b ∧ b.toNat < a.toNat)) →
      exec .ramwr s = .next (afterFault false [s.par.cmd.ramwr] (s.dev.latched s.par.cmd.ramwr) .windowUnset s))

/-- R184: the opaque commands keep their parameter bytes, whatever they are, and have no other effect. -/
def Obligations.OpaqueCommands : Prop :=
  (∀ s : State, FrameReady s →
    exec .frmctr1 s = opaqueNext s.par.cmd.frmctr1 s ∧ exec .frmctr2 s = opaqueNext s.par.cmd.frmctr2 s ∧
    exec .frmctr3 s = opaqueNext s.par.cmd.frmctr3 s ∧ exec .invctr s = opaqueNext s.par.cmd.invctr s ∧
    exec .pwctr1 s = opaqueNext s.par.cmd.pwctr1 s ∧ exec .pwctr2 s = opaqueNext s.par.cmd.pwctr2 s ∧
    exec .pwctr3 s = opaqueNext s.par.cmd.pwctr3 s ∧ exec .pwctr4 s = opaqueNext s.par.cmd.pwctr4 s ∧
    exec .pwctr5 s = opaqueNext s.par.cmd.pwctr5 s ∧ exec .vmctr1 s = opaqueNext s.par.cmd.vmctr1 s ∧
    exec .colmod s = opaqueNext s.par.cmd.colmod s ∧ exec .gmctrp1 s = opaqueNext s.par.cmd.gmctrp1 s ∧
    exec .gmctrn1 s = opaqueNext s.par.cmd.gmctrn1 s) ∧
  (∀ (s : State) (name : WireName) (xs : List Byte), isOpaque name = true → CodesDistinct s.par.cmd →
    busOk s.par s.xfers = true → s.dev.cmd = some (s.par.cmd.code name) → s.dev.ramwr = false →
    Sparse.wf s.dev.cfg = true → xs ≠ [] → ∃ cfg : Sparse (List Byte),
      sendDataFrame xs s =
        .next (afterFrame true xs { s.dev with params := s.dev.params ++ xs, cfg := cfg } s) ∧
      ∀ c, Sparse.get c cfg =
        if c = (s.par.cmd.code name).toNat then some (s.dev.params ++ xs) else Sparse.get c s.dev.cfg)

/-- R172: a command byte while a pixel's high byte is pending, or a CASET or RASET block is cut short, faults, and
nothing of the controller changes; on a clean controller it is latched, the memory write ends, and its own effect
follows. -/
def Obligations.CommandBytes : Prop :=
  ∀ (s : State) (name : WireName), CodesDistinct s.par.cmd → busOk s.par s.xfers = true →
    (s.dev.pend ≠ none →
      exec name.instr s = .next (afterFault false [s.par.cmd.code name] s.dev .partialPixel s)) ∧
    (s.dev.pend = none → (s.dev.cmd = some s.par.cmd.caset ∨ s.dev.cmd = some s.par.cmd.raset) →
      1 ≤ s.dev.params.length → s.dev.params.length ≤ 3 →
      exec name.instr s = .next (afterFault false [s.par.cmd.code name] s.dev .incompleteParameters s)) ∧
    (s.dev.Clean s.par.cmd →
      devByte s.par false (s.par.cmd.code name) s.dev =
        onLatch (s.par.cmd.code name)
          { s.dev with ramwr := false, cmd := some (s.par.cmd.code name), params := [] } name)

/-- R173: a data byte with no command latched faults; in a memory write it is a pixel byte; otherwise it is the next
parameter of the latched command. -/
def Obligations.DataBytes : Prop :=
  ∀ (par : Params) (d : Dev) (b : Byte), CodesDistinct par.cmd →
    (d.cmd = none → devByte par true b d = .error (.dataWithoutCommand, d)) ∧
    (d.cmd ≠ none → d.ramwr = true → devByte par true b d = pixelByte par b d) ∧
    (∀ name, d.cmd = some (par.cmd.code name) → d.ramwr = false →
      devByte par true b d = onParam (par.cmd.code name) { d with params := d.params ++ [b] } name)

/-- R178 to R181: the high byte is held; the low byte completes the pixel, which is written at the pointer, and only
there; the pointer goes along the row and then to the next (the order is general knowledge: log 12); a full window and an
address outside `GRAM_LIMIT` fault. -/
def Obligations.PixelBytes : Prop :=
  ∀ (par : Params) (d : Dev) (b : Byte), d.cmd ≠ none → d.ramwr = true →
    (d.pend = none → devByte par true b d = .ok { d with pend := some b }) ∧
    (∀ (high : Byte) (colS colE rowE : Half), d.pend = some high → d.colS = some colS → d.colE = some colE →
      d.rowE = some rowE →
      (rowE.toNat < d.ptrR → devByte par true b d = .error (.windowOverrun, { d with pend := none })) ∧
      (d.ptrR ≤ rowE.toNat → (d.madctl = none ∨ ∃ m, d.madctl = some m ∧ ∀ o, madTable o ≠ m) →
        devByte par true b d = .error (.outOfGram, { d with pend := none })) ∧
      (∀ o : Fin 4, d.ptrR ≤ rowE.toNat → d.madctl = some (madTable o) →
        ((gramLimitOf par.gramLimit o).cols ≤ d.ptrC ∨ (gramLimitOf par.gramLimit o).rows ≤ d.ptrR →
          devByte par true b d = .error (.outOfGram, { d with pend := none })) ∧
        (d.ptrC < (gramLimitOf par.gramLimit o).cols → d.ptrR < (gramLimitOf par.gramLimit o).rows →
          d.gram.wf = true → ∃ (v : Half) (g : Frame), v.toNat = high.toNat * 256 + b.toNat ∧
            devByte par true b d = .ok
              { d with
                pend := none, gram := g, ptrC := if d.ptrC < colE.toNat then d.ptrC + 1 else colS.toNat,
                ptrR := if d.ptrC < colE.toNat then d.ptrR else d.ptrR + 1 } ∧
            g.wf = true ∧
            ∀ c r, Frame.get g c r = if c = d.ptrC ∧ r = d.ptrR then some v else Frame.get d.gram c r)))

/-- R132: outside INITIALIZE a failed transfer makes the session `Failed` and raises `BusFailure`, and nothing follows
it in the request. A frame put on the wire by itself, which is the model's (log 2), fails with `BusFailure` too, and makes
the session `Failed` only where it was `Ready` (R25). -/
def Obligations.BusFailureEndsTheRequest : Prop :=
  (∀ (i : Instr) (s t : State), (∀ w h o, i ≠ .initialise w h o) → exec i s = .next t →
    (t.faults = s.faults ++ [.busFailure] → (i.wireName = none → t.life = .failed) ∧ t.dev.Unknown ∧
      t.lvl.cs = none ∧ ∃ es, t.trace = s.trace ++ es ++ [.busFail] ∧ .busFail ∉ es) ∧
    ((∃ es, t.trace = s.trace ++ es ∧ .busFail ∈ es) → t.faults = s.faults ++ [.busFailure])) ∧
  (∀ (s : State) (name : WireName) (bytes : List Byte), busOk s.par s.xfers = false → ∃ d : Dev, d.Unknown ∧
    exec name.instr s = .next (afterFrameFailure false d s) ∧
    sendDataFrame bytes s = .next (afterFrameFailure true d s))

/-! ### Drawing -/

/-- R221, R110: PACK_COLOR keeps the top bits of each channel, red uppermost, in every state, and changes the result
only. -/
def Obligations.PackColor : Prop :=
  (∀ (s : State) (r g b : Byte), ∃ v : Half, exec (.packColor r g b) s = .next (s.answer (.color v)) ∧
    v.toNat = ((r.toNat >>> 3) <<< 11) ||| ((g.toNat >>> 2) <<< 5) ||| (b.toNat >>> 3) ∧
    v.toNat / 2 ^ 11 = r.toNat / 8 ∧ v.toNat / 2 ^ 5 % 2 ^ 6 = g.toNat / 4 ∧ v.toNat % 2 ^ 5 = b.toNat / 8) ∧
  packColor 0xFF 0xFF 0xFF = 0xFFFF ∧ packColor 0 0 0 = 0x0000 ∧ packColor 0xF8 0 0 = 0xF800

/-- R222, R220, R234: SET_PIXEL. -/
def Obligations.SetPixel : Prop :=
  ∀ (p : Panel) (s : State) (x y : Word) (c : Half), Drawable p s →
    (0 ≤ sext32 x → 0 ≤ sext32 y → (Fill.pixel (sext32 x) (sext32 y) c).Admitted s.par p →
      Draws p [Fill.pixel (sext32 x) (sext32 y) c] s (exec (.setPixel x y c) s)) ∧
    (sext32 x < 0 ∨ sext32 y < 0 → exec (.setPixel x y c) s = .next (s.withFault .negativeCoordinate)) ∧
    (0 ≤ sext32 x → 0 ≤ sext32 y → s.par.clip = .fault → p.width ≤ sext32 x ∨ p.height ≤ sext32 y →
      exec (.setPixel x y c) s = .next (s.withFault .outOfRange))

/-- R223, R220, R234: FILL_RECT. -/
def Obligations.FillRect : Prop :=
  ∀ (p : Panel) (s : State) (x y w h : Word) (c : Half), Drawable p s →
    (0 ≤ sext32 x → 0 ≤ sext32 y → 1 ≤ sext32 w → 1 ≤ sext32 h →
      Fill.Admitted s.par p ⟨sext32 x, sext32 y, sext32 w, sext32 h, c⟩ →
      Draws p [⟨sext32 x, sext32 y, sext32 w, sext32 h, c⟩] s (exec (.fillRect x y w h c) s)) ∧
    (sext32 x < 0 ∨ sext32 y < 0 → exec (.fillRect x y w h c) s = .next (s.withFault .negativeCoordinate)) ∧
    (0 ≤ sext32 x → 0 ≤ sext32 y → sext32 w ≤ 0 ∨ sext32 h ≤ 0 →
      exec (.fillRect x y w h c) s = .next (s.withFault .nonPositiveExtent)) ∧
    (0 ≤ sext32 x → 0 ≤ sext32 y → 1 ≤ sext32 w → 1 ≤ sext32 h → s.par.clip = .fault →
      p.width < sext32 x + sext32 w ∨ p.height < sext32 y + sext32 h →
      exec (.fillRect x y w h c) s = .next (s.withFault .outOfRange))

/-- R224, R225: HLINE and VLINE are rectangles of height and width 1, in every state; where they complete, and what they
draw. -/
def Obligations.AxisRuns : Prop :=
  (∀ (s : State) (x y len : Word) (c : Half),
    exec (.hline x y len c) s = exec (.fillRect x y len 1 c) s ∧
    exec (.vline x y len c) s = exec (.fillRect x y 1 len c) s) ∧
  (∀ (p : Panel) (s : State) (x y len : Word) (c : Half), Drawable p s → 0 ≤ sext32 x → 0 ≤ sext32 y →
    1 ≤ sext32 len →
    (Fill.Admitted s.par p ⟨sext32 x, sext32 y, sext32 len, 1, c⟩ →
      Draws p [⟨sext32 x, sext32 y, sext32 len, 1, c⟩] s (exec (.hline x y len c) s)) ∧
    (Fill.Admitted s.par p ⟨sext32 x, sext32 y, 1, sext32 len, c⟩ →
      Draws p [⟨sext32 x, sext32 y, 1, sext32 len, c⟩] s (exec (.vline x y len c) s)))

/-- R226, R227: LINE draws its run or its Bresenham pixels, in order, and nothing else. -/
def Obligations.Line : Prop :=
  ∀ (p : Panel) (s : State) (x0 y0 x1 y1 : Word) (c : Half), Drawable p s →
    (0 ≤ sext32 x0 → 0 ≤ sext32 y0 → 0 ≤ sext32 x1 → 0 ≤ sext32 y1 →
      Admissible s.par p (lineFills (sext32 x0) (sext32 y0) (sext32 x1) (sext32 y1) c) →
      Draws p (lineFills (sext32 x0) (sext32 y0) (sext32 x1) (sext32 y1) c) s (exec (.line x0 y0 x1 y1 c) s)) ∧
    (sext32 x0 < 0 ∨ sext32 y0 < 0 ∨ sext32 x1 < 0 ∨ sext32 y1 < 0 →
      exec (.line x0 y0 x1 y1 c) s = .next (s.withFault .negativeCoordinate))

/-- R227: a line and the line with its endpoints exchanged do the same, in every state. -/
def Obligations.LineSymmetry : Prop :=
  ∀ (s : State) (x0 y0 x1 y1 : Word) (c : Half), exec (.line x0 y0 x1 y1 c) s = exec (.line x1 y1 x0 y0 c) s

/-- R227: a slanted line is one pixel for each value of the dominant axis, both endpoints among them, inside the box of
its endpoints and nearest to the segment: no point is more than half a pixel off it along the minor axis. -/
def Obligations.LineGeometry : Prop :=
  ∀ (x0 y0 x1 y1 : Int) (c : Half), x0 ≠ x1 → y0 ≠ y1 →
    ((lineFills x0 y0 x1 y1 c).length : Int) = max |x1 - x0| |y1 - y0| + 1 ∧
    Fill.pixel x0 y0 c ∈ lineFills x0 y0 x1 y1 c ∧ Fill.pixel x1 y1 c ∈ lineFills x0 y0 x1 y1 c ∧
    ∀ f ∈ lineFills x0 y0 x1 y1 c, f = Fill.pixel f.x f.y c ∧
      min x0 x1 ≤ f.x ∧ f.x ≤ max x0 x1 ∧ min y0 y1 ≤ f.y ∧ f.y ≤ max y0 y1 ∧
      2 * |(f.x - x0) * (y1 - y0) - (f.y - y0) * (x1 - x0)| ≤ max |x1 - x0| |y1 - y0|

/-- R231, R232, R233: the circle requests draw their spans and outline points, in order, and nothing else; a negative
centre or radius faults. -/
def Obligations.Circles : Prop :=
  ∀ (p : Panel) (s : State) (cx cy r : Word) (c fc : Half) (quads : Byte) (fill hasFill : Bool), Drawable p s →
    (0 ≤ sext32 cx → 0 ≤ sext32 cy → 0 ≤ sext32 r →
      (Admissible s.par p (circleFills (sext32 cx) (sext32 cy) (sext32 r) c 0x0F false c) →
        Draws p (circleFills (sext32 cx) (sext32 cy) (sext32 r) c 0x0F false c) s (exec (.circle cx cy r c) s)) ∧
      (Admissible s.par p (circleFills (sext32 cx) (sext32 cy) (sext32 r) c 0x0F true (if hasFill then fc else c)) →
        Draws p (circleFills (sext32 cx) (sext32 cy) (sext32 r) c 0x0F true (if hasFill then fc else c)) s
          (exec (.circleFilled cx cy r c hasFill fc) s)) ∧
      (Admissible s.par p (circleFills (sext32 cx) (sext32 cy) (sext32 r) c quads fill (if hasFill then fc else c)) →
        Draws p (circleFills (sext32 cx) (sext32 cy) (sext32 r) c quads fill (if hasFill then fc else c)) s
          (exec (.circleSegment cx cy r c quads fill hasFill fc) s))) ∧
    (sext32 cx < 0 ∨ sext32 cy < 0 →
      exec (.circle cx cy r c) s = .next (s.withFault .negativeCoordinate) ∧
      exec (.circleFilled cx cy r c hasFill fc) s = .next (s.withFault .negativeCoordinate) ∧
      exec (.circleSegment cx cy r c quads fill hasFill fc) s = .next (s.withFault .negativeCoordinate)) ∧
    (0 ≤ sext32 cx → 0 ≤ sext32 cy → sext32 r < 0 →
      exec (.circle cx cy r c) s = .next (s.withFault .negativeRadius) ∧
      exec (.circleFilled cx cy r c hasFill fc) s = .next (s.withFault .negativeRadius) ∧
      exec (.circleSegment cx cy r c quads fill hasFill fc) s = .next (s.withFault .negativeRadius))

/-- R233: a segment of all quadrants is the whole circle, filled or not, in every state; a segment of none draws
nothing. -/
def Obligations.SegmentForms : Prop :=
  (∀ (s : State) (cx cy r : Word) (c fc : Half) (hasFill : Bool),
    exec (.circleSegment cx cy r c 0x0F false hasFill fc) s = exec (.circle cx cy r c) s ∧
    exec (.circleSegment cx cy r c 0x0F true hasFill fc) s = exec (.circleFilled cx cy r c hasFill fc) s) ∧
  (∀ (p : Panel) (s : State) (cx cy r : Word) (c fc : Half) (fill hasFill : Bool), s.life = .ready →
    s.panel = some p → 0 ≤ sext32 cx → 0 ≤ sext32 cy → 0 ≤ sext32 r →
    exec (.circleSegment cx cy r c 0x00 fill hasFill fc) s = .next (s.answer .unit))

/-- R93, R229: an unfilled segment plots each point inside a quadrant it selects (UL bit 0, UR 1, LL 2, LR 3). -/
def Obligations.QuadrantFilter : Prop :=
  ∀ (cx cy r : Int) (c fc : Half) (quads : Byte), 0 ≤ r → ∀ f ∈ circleFills cx cy r c quads false fc,
    f = Fill.pixel f.x f.y c ∧
    ((quads.getLsbD 0 = true ∧ f.x ≤ cx ∧ f.y ≤ cy) ∨ (quads.getLsbD 1 = true ∧ cx ≤ f.x ∧ f.y ≤ cy) ∨
     (quads.getLsbD 2 = true ∧ f.x ≤ cx ∧ cy ≤ f.y) ∨ (quads.getLsbD 3 = true ∧ cx ≤ f.x ∧ cy ≤ f.y))

/-- R228: the octant points are one for each `y` from 0 on, inside the octant `0 ≤ y ≤ x ≤ r`, each within half a pixel
of the circle along the row, `(x - 1/2)² + y² < r² < (x + 1/2)² + y²`, where there is a circle, `1 ≤ r`; the loop has ended by itself, so more steps would add none; and the rule's own lists. -/
def Obligations.OctantPoints : Prop :=
  (∀ r : Int, 0 ≤ r →
    (∀ k, octantSteps ((r + 1).toNat + k) r 0 (1 - r) = octantSteps (r + 1).toNat r 0 (1 - r)) ∧
    (octantSteps (r + 1).toNat r 0 (1 - r)).map Prod.snd =
      (List.range (octantSteps (r + 1).toNat r 0 (1 - r)).length).map (fun k : Nat => (k : Int)) ∧
    ∀ q ∈ octantSteps (r + 1).toNat r 0 (1 - r), 0 ≤ q.2 ∧ q.2 ≤ q.1 ∧ q.1 ≤ r ∧
      (1 ≤ r → q.1 * q.1 - q.1 + q.2 * q.2 < r * r) ∧ r * r ≤ q.1 * q.1 + q.1 + q.2 * q.2) ∧
  octantSteps 2 1 0 0 = [(1, 0)] ∧ octantSteps 3 2 0 (-1) = [(2, 0), (2, 1)] ∧
  octantSteps 4 3 0 (-2) = [(3, 0), (3, 1), (2, 2)] ∧ octantSteps 6 5 0 (-4) = [(5, 0), (5, 1), (5, 2), (4, 3)]

/-- R261 to R265: TEXT draws the glyphs of the covered characters from the cursor on, wrapping at the panel's width, and
nothing else, where every glyph byte can be read. The terms of its fills, written out: column `i` of `ch` is the byte at
`fontBase + (ch - fontStart) * fontW + i`; a glyph is drawn at the cursor `(cx, cy)` unless `cx + scale * fontW > s.W`, and then
at column `x`, `scale * fontH + 1` rows further down; it leaves the cursor `scale * fontW + 1` columns on; a character outside
the range draws nothing and leaves the cursor. -/
def Obligations.Text : Prop :=
  ∀ (p : Panel) (s : State) (x y : Word) (c : Half) (scale fw fh fs fe : Byte) (fb : Word) (codes : List Byte),
    (∀ (fills : List Byte → Int × Int → List Fill) (byteAt : Byte → Nat → Option Byte)
      (glyph : Int → Int → Byte → List Fill),
      fills = textFills p s.font (fontOf fw fh fs fe fb) scale.toNat c (sext32 x) →
      byteAt = glyphByte s.font (fontOf fw fh fs fe fb) →
      glyph = (fun gx gy ch => glyphFills s.font (fontOf fw fh fs fe fb) scale.toNat c gx gy ch fw.toNat) →
      (∀ ch i, byteAt ch i = s.font.read (fb.toNat + (ch.toNat - fs.toNat) * fw.toNat + i)) ∧
      (∀ ch rest (cx cy : Int), (ch.toNat < fs.toNat ∨ fe.toNat < ch.toNat) →
        fills (ch :: rest) (cx, cy) = fills rest (cx, cy)) ∧
      (∀ ch rest (cx cy : Int), fs.toNat ≤ ch.toNat → ch.toNat ≤ fe.toNat → cx + scale.toNat * fw.toNat ≤ p.width →
        fills (ch :: rest) (cx, cy) = glyph cx cy ch ++ fills rest (cx + scale.toNat * fw.toNat + 1, cy)) ∧
      (∀ ch rest (cx cy : Int), fs.toNat ≤ ch.toNat → ch.toNat ≤ fe.toNat → p.width < cx + scale.toNat * fw.toNat →
        fills (ch :: rest) (cx, cy) = glyph (sext32 x) (cy + scale.toNat * fh.toNat + 1) ch ++
          fills rest (sext32 x + scale.toNat * fw.toNat + 1, cy + scale.toNat * fh.toNat + 1))) ∧
    (Drawable p s → 0 ≤ sext32 x → 0 ≤ sext32 y → 1 ≤ scale.toNat → 1 ≤ fw.toNat → 1 ≤ fh.toNat → fh.toNat ≤ 8 →
      fs.toNat ≤ fe.toNat → FontReadable s.font (fontOf fw fh fs fe fb) codes →
      Admissible s.par p
        (textFills p s.font (fontOf fw fh fs fe fb) scale.toNat c (sext32 x) codes (sext32 x, sext32 y)) →
      Draws p (textFills p s.font (fontOf fw fh fs fe fb) scale.toNat c (sext32 x) codes (sext32 x, sext32 y)) s
        (exec (.text x y c scale fw fh fs fe fb codes) s))

/-- R261, R282: TEXT's operand checks, in their order. -/
def Obligations.TextOperandChecks : Prop :=
  ∀ (p : Panel) (s : State) (x y : Word) (c : Half) (scale fw fh fs fe : Byte) (fb : Word) (codes : List Byte),
    s.life = .ready → s.panel = some p →
    (sext32 x < 0 ∨ sext32 y < 0 →
      exec (.text x y c scale fw fh fs fe fb codes) s = .next (s.withFault .negativeCoordinate)) ∧
    (0 ≤ sext32 x → 0 ≤ sext32 y → scale.toNat = 0 →
      exec (.text x y c scale fw fh fs fe fb codes) s = .next (s.withFault .badScale)) ∧
    (0 ≤ sext32 x → 0 ≤ sext32 y → 1 ≤ scale.toNat →
      fw.toNat = 0 ∨ fh.toNat = 0 ∨ 8 < fh.toNat ∨ fe.toNat < fs.toNat →
      exec (.text x y c scale fw fh fs fe fb codes) s = .next (s.withFault .badFont)) ∧
    (0 ≤ sext32 x → 0 ≤ sext32 y → 1 ≤ scale.toNat → 1 ≤ fw.toNat → 1 ≤ fh.toNat → fh.toNat ≤ 8 →
      fs.toNat ≤ fe.toNat → (∀ ch ∈ codes, ch.toNat < fs.toNat ∨ fe.toNat < ch.toNat) →
      exec (.text x y c scale fw fh fs fe fb codes) s = .next (s.answer .unit))

/-- R262, R263: a glyph byte that cannot be read, of whichever column, raises `FontMemoryUnreadable`; the glyphs before it
and the columns of its own glyph before it stay drawn. -/
def Obligations.UnreadableGlyph : Prop :=
  ∀ (p : Panel) (s : State) (x y : Word) (c : Half) (scale fw fh fs fe : Byte) (fb : Word) (pre : List Byte)
    (ch : Byte) (post : List Byte) (i : Nat),
    Drawable p s → 0 ≤ sext32 x → 0 ≤ sext32 y → 1 ≤ scale.toNat → 1 ≤ fh.toNat → fh.toNat ≤ 8 →
    fs.toNat ≤ ch.toNat → ch.toNat ≤ fe.toNat → FontReadable s.font (fontOf fw fh fs fe fb) pre → i < fw.toNat →
    (∀ k < i, (glyphByte s.font (fontOf fw fh fs fe fb) ch k).isSome = true) →
    glyphByte s.font (fontOf fw fh fs fe fb) ch i = none →
    Admissible s.par p (textFillsInto p s.font (fontOf fw fh fs fe fb) scale.toNat c (sext32 x) pre
      (sext32 x, sext32 y) ch i) →
    StopsAfter p (textFillsInto p s.font (fontOf fw fh fs fe fb) scale.toNat c (sext32 x) pre (sext32 x, sext32 y) ch i)
      .fontMemoryUnreadable s (exec (.text x y c scale fw fh fs fe fb (pre ++ ch :: post)) s)

/-- R220, R231, R234, R261: a shape or a text whose next fill has a negative coordinate, or leaves the panel under
`CLIP_POLICY = fault`, stops there with that fault; the fills before it stay drawn, those after it are not. -/
def Obligations.ShapesStopAtTheFirstBadFill : Prop :=
  ∀ (p : Panel) (s : State) (pre post : List Fill) (bad : Fill) (k : FaultCode), Drawable p s →
    Admissible s.par p pre → bad.fault s.par p = some k →
    (∀ x0 y0 x1 y1 c, 0 ≤ sext32 x0 → 0 ≤ sext32 y0 → 0 ≤ sext32 x1 → 0 ≤ sext32 y1 →
      lineFills (sext32 x0) (sext32 y0) (sext32 x1) (sext32 y1) c = pre ++ bad :: post →
      StopsAfter p pre k s (exec (.line x0 y0 x1 y1 c) s)) ∧
    (∀ cx cy r c, 0 ≤ sext32 cx → 0 ≤ sext32 cy → 0 ≤ sext32 r →
      circleFills (sext32 cx) (sext32 cy) (sext32 r) c 0x0F false c = pre ++ bad :: post →
      StopsAfter p pre k s (exec (.circle cx cy r c) s)) ∧
    (∀ cx cy r c hasFill fc, 0 ≤ sext32 cx → 0 ≤ sext32 cy → 0 ≤ sext32 r →
      circleFills (sext32 cx) (sext32 cy) (sext32 r) c 0x0F true (if hasFill then fc else c) = pre ++ bad :: post →
      StopsAfter p pre k s (exec (.circleFilled cx cy r c hasFill fc) s)) ∧
    (∀ cx cy r c quads fill hasFill fc, 0 ≤ sext32 cx → 0 ≤ sext32 cy → 0 ≤ sext32 r →
      circleFills (sext32 cx) (sext32 cy) (sext32 r) c quads fill (if hasFill then fc else c) =
        pre ++ bad :: post →
      StopsAfter p pre k s (exec (.circleSegment cx cy r c quads fill hasFill fc) s)) ∧
    (∀ x y c scale fw fh fs fe fb codes, 0 ≤ sext32 x → 0 ≤ sext32 y → 1 ≤ scale.toNat → 1 ≤ fw.toNat → 1 ≤ fh.toNat →
      fh.toNat ≤ 8 → fs.toNat ≤ fe.toNat → FontReadable s.font (fontOf fw fh fs fe fb) codes →
      textFills p s.font (fontOf fw fh fs fe fb) scale.toNat c (sext32 x) codes (sext32 x, sext32 y) =
        pre ++ bad :: post →
      StopsAfter p pre k s (exec (.text x y c scale fw fh fs fe fb codes) s))

/-! ### The machine as a whole -/

/-- Every step keeps the invariant. -/
def Obligations.StepKeepsInvariant : Prop := ∀ s t : State, Inv s → step s = .next t → Inv t

/-- R28, R29, R30, R33, R74, R170: a step appends events to the trace, and these events alone, in their order, decide
the controller, the line levels and the transfer count; every byte goes out with chip-select asserted, reset not
asserted, and DC at its own level. That a reset and a failed transfer keep the write pointer is the model's (log 7), and
so is a frame by itself before the first reset pulse, whose bytes go out with the reset line never driven (log 2). -/
def Obligations.TraceDecides : Prop := ∀ s t : State, step s = .next t → ∃ es, Explains es s t

/-- R25: the lifecycle changes by CREATE, by INITIALIZE out of `Uninitialized`, and by a bus failure in `Ready`, and in no
other way, frames put on the wire by themselves (log 2) among them. -/
def Obligations.LifecycleTransitions : Prop :=
  (∀ (i : Instr) (s t : State), exec i s = .next t →
    t.life = s.life ∨
    ((∃ rm cm bl, i = .create rm cm bl) ∧ t.life = .uninitialized) ∨
    ((∃ w h o, i = .initialise w h o) ∧ s.life = .uninitialized ∧
      ((t.life = .ready ∧ t.ret = .status true ∧ t.faults = s.faults) ∨
       (t.life = .failed ∧ t.ret = .status false ∧ t.faults = s.faults) ∨
       (t.life = .configuring ∧ ∃ f, t.faults = s.faults ++ [f]))) ∨
    (s.life = .ready ∧ t.life = .failed ∧ t.faults = s.faults ++ [.busFailure])) ∧
  (∀ (bytes : List Byte) (s t : State), sendDataFrame bytes s = .next t →
    t.life = s.life ∨ (s.life = .ready ∧ t.life = .failed ∧ t.faults = s.faults ++ [.busFailure]))

/-- R280, R282: an instruction raises at most one fault; where it raises one it leaves the result as it was, and no fault
but `BusFailure` changes the lifecycle (INITIALIZE has changed it before). -/
def Obligations.OneFaultPerRequest : Prop :=
  ∀ (i : Instr) (s t : State), exec i s = .next t →
    t.faults = s.faults ∨ ∃ f, t.faults = s.faults ++ [f] ∧ t.ret = s.ret ∧
      (f ≠ .busFailure → (∀ w h o, i ≠ .initialise w h o) → t.life = s.life)

/-- R61: font memory and the other parameters of a run never change; an instruction takes nothing from the queue. -/
def Obligations.RunIsFixed : Prop :=
  ∀ (i : Instr) (s t : State), exec i s = .next t → t.font = s.font ∧ t.par = s.par ∧ t.pending = s.pending

/-- R281, R181: over a controller it brought up, with `GRAM_LIMIT` covering the panel and a reliable bus, the block's own
requests raise neither a controller fault nor `BusFailure`, and leave it able to draw. -/
def Obligations.BroughtUpBlockKeepsDrawing : Prop :=
  ∀ (p : Panel) (i : Instr) (s t : State), Drawable p s → s.faults = [] → ordinary i = true → exec i s = .next t →
    (t.faults = [] → Drawable p t) ∧ ∀ f ∈ t.faults, f.isController = false ∧ f ≠ .busFailure
end

