-- ==== Sys2Proof/Laws/Decode.lean ====
section
/-! SUPPORT. The laws of the encodings: the byte-order helpers invert each other, every field reader reads back what its
writer wrote, and the command-code table names each of its codes. -/

namespace Sys2Proof

theorem toNat_hi8 (v : Half) : (hi8 v).toNat = v.toNat / 256 := by
  have := v.isLt
  simp [hi8, BitVec.extractLsb'_toNat, Nat.shiftRight_eq_div_pow]; omega

theorem toNat_lo8 (v : Half) : (lo8 v).toNat = v.toNat % 256 := by
  simp [lo8, BitVec.extractLsb'_toNat]

theorem toNat_be16 (hi lo : Byte) : (be16 hi lo).toNat = hi.toNat * 256 + lo.toNat := by
  have := hi.isLt; have := lo.isLt
  simp [be16]; omega

/-- High byte then low byte rebuild the value (R64). -/
@[simp] theorem be16_hi8_lo8 (v : Half) : be16 (hi8 v) (lo8 v) = v := by
  apply BitVec.eq_of_toNat_eq
  rw [toNat_be16, toNat_hi8, toNat_lo8]; omega

@[simp] theorem hi8_be16 (hi lo : Byte) : hi8 (be16 hi lo) = hi := by
  apply BitVec.eq_of_toNat_eq
  have := lo.isLt
  rw [toNat_hi8, toNat_be16]; omega

@[simp] theorem lo8_be16 (hi lo : Byte) : lo8 (be16 hi lo) = lo := by
  apply BitVec.eq_of_toNat_eq
  have := lo.isLt
  rw [toNat_lo8, toNat_be16]; omega

@[simp] theorem be32_halves (v : Word) : be32 (v.extractLsb' 16 16) (v.extractLsb' 0 16) = v := by
  apply BitVec.eq_of_toNat_eq
  have := v.isLt
  simp [be32, BitVec.extractLsb'_toNat, Nat.shiftRight_eq_div_pow]; omega

@[simp] theorem readByte_cons (b : Byte) (rest : List Byte) : readByte (b :: rest) = some (b, rest) := rfl

@[simp] theorem readHalf_putHalf (v : Half) (rest : List Byte) : readHalf (putHalf v ++ rest) = some (v, rest) := by
  simp [putHalf, readHalf]

@[simp] theorem readWord_putWord (v : Word) (rest : List Byte) : readWord (putWord v ++ rest) = some (v, rest) := by
  simp [putWord, putHalf, readWord]

@[simp] theorem readBytes_append (bs rest : List Byte) : readBytes bs.length (bs ++ rest) = some (bs, rest) := by
  simp [readBytes]

@[simp] theorem asBool_putBool (b : Bool) : asBool (putBool b) = some b := by cases b <;> decide

@[simp] theorem putHalf_length (v : Half) : (putHalf v).length = 2 := rfl

@[simp] theorem putWord_length (v : Word) : (putWord v).length = 4 := rfl

theorem toNat_ofNat_length {n : Nat} (h : n < 2 ^ 16) : (BitVec.ofNat 16 n : Half).toNat = n := by
  simp; omega

theorem readByte_length {bs rest : List Byte} {b : Byte} (h : readByte bs = some (b, rest)) :
    bs.length = rest.length + 1 := by
  cases bs with
  | nil => simp [readByte] at h
  | cons a t => simp [readByte] at h; simp [h.2]

/-! What a reader has read is the field's own encoding, followed by what is left (R91). -/

theorem readByte_some {bs rest : List Byte} {b : Byte} (h : readByte bs = some (b, rest)) : bs = b :: rest := by
  cases bs with
  | nil => simp [readByte] at h
  | cons a t => simp [readByte] at h; rw [h.1, h.2]

theorem readHalf_some {bs rest : List Byte} {v : Half} (h : readHalf bs = some (v, rest)) : bs = putHalf v ++ rest := by
  unfold readHalf at h
  split at h
  · simp only [Option.some.injEq, Prod.mk.injEq] at h
    rw [← h.1, ← h.2]; simp [putHalf]
  · cases h

@[simp] theorem hiHalf_be32 (hi lo : Half) : (be32 hi lo).extractLsb' 16 16 = hi := by
  apply BitVec.eq_of_toNat_eq
  have := hi.isLt; have := lo.isLt
  simp [be32, BitVec.extractLsb'_toNat, Nat.shiftRight_eq_div_pow]; omega

@[simp] theorem loHalf_be32 (hi lo : Half) : (be32 hi lo).extractLsb' 0 16 = lo := by
  apply BitVec.eq_of_toNat_eq
  have := hi.isLt; have := lo.isLt
  simp [be32, BitVec.extractLsb'_toNat]; omega

theorem readWord_some {bs rest : List Byte} {v : Word} (h : readWord bs = some (v, rest)) : bs = putWord v ++ rest := by
  unfold readWord at h
  split at h
  · simp only [Option.some.injEq, Prod.mk.injEq] at h
    rw [← h.1, ← h.2]; simp [putWord, putHalf]
  · cases h

theorem readBytes_some {n : Nat} {bs rest xs : List Byte} (h : readBytes n bs = some (xs, rest)) :
    bs = xs ++ rest ∧ xs.length = n := by
  unfold readBytes at h
  split at h
  · simp only [Option.some.injEq, Prod.mk.injEq] at h
    obtain ⟨rfl, rfl⟩ := h
    exact ⟨(List.take_append_drop n bs).symm, by simp; omega⟩
  · cases h

theorem asBool_some {b : Byte} {x : Bool} (h : asBool b = some x) : b = putBool x := by
  unfold asBool at h
  split at h
  · cases h; assumption
  · split at h
    · cases h; assumption
    · cases h

theorem readByte_iff {bs rest : List Byte} {b : Byte} : readByte bs = some (b, rest) ↔ bs = b :: rest :=
  ⟨readByte_some, fun h => h ▸ rfl⟩

theorem readHalf_iff {bs rest : List Byte} {v : Half} : readHalf bs = some (v, rest) ↔ bs = putHalf v ++ rest :=
  ⟨readHalf_some, fun h => h ▸ readHalf_putHalf ..⟩

theorem readWord_iff {bs rest : List Byte} {v : Word} : readWord bs = some (v, rest) ↔ bs = putWord v ++ rest :=
  ⟨readWord_some, fun h => h ▸ readWord_putWord ..⟩

theorem readBytes_iff {n : Nat} {bs rest xs : List Byte} :
    readBytes n bs = some (xs, rest) ↔ bs = xs ++ rest ∧ xs.length = n :=
  ⟨readBytes_some, fun h => h.1 ▸ h.2 ▸ readBytes_append ..⟩

theorem asBool_iff {b : Byte} {x : Bool} : asBool b = some x ↔ b = putBool x :=
  ⟨asBool_some, fun h => h ▸ asBool_putBool _⟩

theorem asBool_none_iff {b : Byte} : asBool b = none ↔ 2 ≤ b.toNat := by revert b; decide

theorem WireName.mem_all (n : WireName) : n ∈ WireName.all := by cases n <;> decide

theorem WireName.wireName_instr (n : WireName) : n.instr.wireName = some n := by cases n <;> rfl

theorem Instr.instr_of_wireName {i : Instr} {n : WireName} (h : i.wireName = some n) : i = n.instr := by
  cases i <;> simp [Instr.wireName] at h <;> subst h <;> rfl

/-- With distinct codes, equal codes have equal names (R104). -/
theorem Machine.code_injective {t : CmdTable} (h : Machine.CodesDistinct t) {m n : WireName} (hc : t.code m = t.code n) :
    m = n := List.inj_on_of_nodup_map h (WireName.mem_all m) (WireName.mem_all n) hc

/-- "the name with `CMD[name] = b`" (R172). -/
theorem Machine.nameOf_code {t : CmdTable} (h : Machine.CodesDistinct t) (n : WireName) : t.nameOf (t.code n) = some n := by
  cases hf : t.nameOf (t.code n) with
  | none =>
    have := List.find?_eq_none.1 hf n (WireName.mem_all n)
    simp at this
  | some m =>
    have := List.find?_some hf
    simp at this
    rw [Machine.code_injective h this]

theorem code_of_nameOf {t : CmdTable} {b : Byte} {n : WireName} (h : t.nameOf b = some n) : t.code n = b := by
  have := List.find?_some h
  simpa using this

/-- The orientation table's bytes are distinct, so the index is found again (R8, R179). -/
@[simp] theorem madIndex_madTable (o : Fin 4) : madIndex (madTable o) = some o := by revert o; decide

theorem Machine.default_codes_distinct : Machine.CodesDistinct CmdTable.default := by decide

end Sys2Proof
end

