-- ==== Sys2Proof/Laws/Memory.lean ====
section
/-! SUPPORT. The laws of the address spaces: read after write, writes elsewhere, and the canonical form kept by every
operation. -/

namespace Sys2Proof.Machine

section
variable {α : Type}

@[simp] theorem Sparse.get_nil (key : Nat) : Sparse.get key ([] : Sparse α) = none := rfl

theorem Sparse.above_mono {low low' : Nat} (h : low' ≤ low) {m : Sparse α} (hm : Sparse.above low m = true) :
    Sparse.above low' m = true := by
  cases m with
  | nil => rfl
  | cons e rest => simp only [Sparse.above, Bool.and_eq_true, decide_eq_true_eq] at hm ⊢; exact ⟨by omega, hm.2⟩

theorem Sparse.wf_of_above {low : Nat} {m : Sparse α} (h : Sparse.above low m = true) : Sparse.wf m = true := by
  cases m with
  | nil => rfl
  | cons e rest => simpa [Sparse.wf] using (Bool.and_eq_true _ _ ▸ h).2

theorem Sparse.wf_tail {e : Nat × α} {m : Sparse α} (h : Sparse.wf (e :: m) = true) : Sparse.wf m = true :=
  Sparse.wf_of_above h

theorem Sparse.get_of_above {low key : Nat} {m : Sparse α} (h : Sparse.above low m = true) (hk : key ≤ low) :
    Sparse.get key m = none := by
  cases m with
  | nil => rfl
  | cons e rest =>
    simp only [Sparse.above, Bool.and_eq_true, decide_eq_true_eq] at h
    simp only [Sparse.get]; rw [if_pos (by omega)]

/-- Reading the key just written gives the value written. -/
@[simp] theorem Sparse.get_set_same (key : Nat) (v : α) (m : Sparse α) : Sparse.get key (Sparse.set key v m) = some v := by
  induction m with
  | nil => simp [Sparse.set, Sparse.get]
  | cons e rest ih =>
    simp only [Sparse.set]
    split
    · simp [Sparse.get]
    · split
      · simp [Sparse.get]
      · simp only [Sparse.get]; rw [if_neg ‹_›, if_neg ‹_›]; exact ih

/-- A write leaves every other key alone. -/
theorem Sparse.get_set_other {key key' : Nat} (hk : key' ≠ key) (v : α) {m : Sparse α} (hm : Sparse.wf m = true) :
    Sparse.get key' (Sparse.set key v m) = Sparse.get key' m := by
  induction m with
  | nil => simp only [Sparse.set, Sparse.get]; rw [if_neg hk]; split <;> rfl
  | cons e rest ih =>
    have ht := ih (Sparse.wf_tail hm)
    simp only [Sparse.set]
    split
    · by_cases h1 : key' < key
      · simp only [Sparse.get, if_pos h1]; rw [if_pos (by omega)]
      · simp only [Sparse.get, if_neg h1]; rw [if_neg hk]
    · split
      · subst_vars
        by_cases h1 : key' < e.1
        · simp only [Sparse.get, if_pos h1]
        · simp only [Sparse.get, if_neg h1]; rw [if_neg hk, if_neg hk]
      · simp only [Sparse.get, ht]

theorem Sparse.get_set (key key' : Nat) (v : α) {m : Sparse α} (hm : Sparse.wf m = true) :
    Sparse.get key' (Sparse.set key v m) = if key' = key then some v else Sparse.get key' m := by
  split
  · rename_i h; subst h; exact Sparse.get_set_same ..
  · rename_i h; exact Sparse.get_set_other h v hm

theorem Sparse.above_set {low key : Nat} (hk : low < key) (v : α) {m : Sparse α} (h : Sparse.above low m = true) :
    Sparse.above low (Sparse.set key v m) = true := by
  induction m generalizing low with
  | nil => simp [Sparse.set, Sparse.above, hk]
  | cons e rest ih =>
    simp only [Sparse.above, Bool.and_eq_true, decide_eq_true_eq] at h
    simp only [Sparse.set]
    split
    · simp [Sparse.above, *]
    · split
      · subst_vars; simp [Sparse.above, hk, h.2]
      · simp only [Sparse.above, Bool.and_eq_true, decide_eq_true_eq]; exact ⟨h.1, ih (by omega) h.2⟩

/-- A write keeps the canonical form. -/
theorem Sparse.set_wf (key : Nat) (v : α) {m : Sparse α} (h : Sparse.wf m = true) : Sparse.wf (Sparse.set key v m) = true := by
  cases m with
  | nil => rfl
  | cons e rest =>
    simp only [Sparse.set]
    split
    · simpa [Sparse.wf, Sparse.above] using ⟨‹key < e.1›, h⟩
    · split
      · subst_vars; exact h
      · exact Sparse.above_set (by omega) v h

theorem Sparse.above_remove {low key : Nat} {m : Sparse α} (h : Sparse.above low m = true) :
    Sparse.above low (Sparse.remove key m) = true := by
  induction m generalizing low with
  | nil => rfl
  | cons e rest ih =>
    simp only [Sparse.above, Bool.and_eq_true, decide_eq_true_eq] at h
    simp only [Sparse.remove]
    split
    · simp [Sparse.above, h]
    · split
      · exact Sparse.above_mono (by omega) h.2
      · simp only [Sparse.above, Bool.and_eq_true, decide_eq_true_eq]; exact ⟨h.1, ih h.2⟩

/-- Taking a value away keeps the canonical form. -/
theorem Sparse.remove_wf (key : Nat) {m : Sparse α} (h : Sparse.wf m = true) : Sparse.wf (Sparse.remove key m) = true := by
  cases m with
  | nil => rfl
  | cons e rest =>
    simp only [Sparse.remove]
    split
    · exact h
    · split
      · exact Sparse.wf_tail h
      · exact Sparse.above_remove h

/-- Reading a key just taken away gives nothing. -/
theorem Sparse.get_remove_same (key : Nat) {m : Sparse α} (h : Sparse.wf m = true) :
    Sparse.get key (Sparse.remove key m) = none := by
  induction m with
  | nil => rfl
  | cons e rest ih =>
    simp only [Sparse.remove]
    split
    · simp only [Sparse.get]; rw [if_pos ‹_›]
    · split
      · subst_vars; exact Sparse.get_of_above h (le_refl _)
      · simp only [Sparse.get]; rw [if_neg ‹_›, if_neg ‹_›]; exact ih (Sparse.wf_tail h)

/-- Every entry a write leaves is the written one or an old one. -/
theorem Sparse.mem_set {key : Nat} {v : α} {e : Nat × α} {m : Sparse α} (h : e ∈ Sparse.set key v m) :
    e = (key, v) ∨ e ∈ m := by
  induction m with
  | nil => simpa [Sparse.set] using h
  | cons a rest ih =>
    simp only [Sparse.set] at h
    split at h
    · simpa using h
    · split at h
      · rcases List.mem_cons.1 h with h | h <;> simp [h]
      · rcases List.mem_cons.1 h with h | h
        · simp [h]
        · rcases ih h with h | h <;> simp [h]

theorem Sparse.set_ne_nil (key : Nat) (v : α) (m : Sparse α) : Sparse.set key v m ≠ [] := by
  cases m with
  | nil => simp [Sparse.set]
  | cons e rest => simp only [Sparse.set]; split <;> [simp; (split <;> simp)]

theorem Sparse.mem_of_get {key : Nat} {v : α} {m : Sparse α} (h : Sparse.get key m = some v) : (key, v) ∈ m := by
  induction m with
  | nil => simp at h
  | cons e rest ih =>
    simp only [Sparse.get] at h
    split at h
    · simp at h
    · split at h
      · obtain ⟨k, a⟩ := e; simp_all
      · exact List.mem_cons_of_mem _ (ih h)

end

/-! ### Font memory -/

theorem Memory.place_wf (m : Memory) (a : Nat) (b : Option Byte) (h : m.wf = true) : (m.place a b).wf = true := by
  cases b with
  | none => exact Sparse.remove_wf a h
  | some b => exact Sparse.set_wf a b h

theorem Memory.read_place_same (m : Memory) (a : Nat) (b : Option Byte) (h : m.wf = true) :
    (m.place a b).read a = b := by
  cases b with
  | none => exact Sparse.get_remove_same a h
  | some b => exact Sparse.get_set_same a b m

/-! ### Frame memory -/

@[simp] theorem Frame.get_empty (c r : Nat) : Frame.get [] c r = none := rfl

theorem Frame.row_wf {g : Frame} (h : g.wf = true) {r : Nat} {row : Sparse Half} (hr : Sparse.get r g = some row) :
    Sparse.wf row = true := by
  simp only [Frame.wf, Bool.and_eq_true, List.all_eq_true] at h
  exact (h.2 _ (Sparse.mem_of_get hr)).1

theorem Frame.rowD_wf {g : Frame} (h : g.wf = true) (r : Nat) : Sparse.wf ((Sparse.get r g).getD []) = true := by
  cases hr : Sparse.get r g with
  | none => rfl
  | some row => exact Frame.row_wf h hr

/-- Every cell after a write: the written one holds the value, every other what it held (R62). -/
theorem Frame.get_write {g : Frame} (h : g.wf = true) (c r : Nat) (v : Half) (c' r' : Nat) :
    Frame.get (g.write c r v) c' r' = if c' = c ∧ r' = r then some v else Frame.get g c' r' := by
  have hg : Sparse.wf g = true := by simp only [Frame.wf, Bool.and_eq_true] at h; exact h.1
  by_cases hr : r' = r
  · subst hr
    have hw : Frame.get (g.write c r' v) c' r' = Sparse.get c' (Sparse.set c v ((Sparse.get r' g).getD [])) := by
      simp [Frame.get, Frame.write]
    rw [hw]
    by_cases hc : c' = c
    · subst hc; simp
    · rw [Sparse.get_set_other hc v (Frame.rowD_wf h r'), if_neg (by tauto)]
      cases hx : Sparse.get r' g <;> simp [Frame.get, hx]
  · rw [if_neg (by tauto)]
    simp only [Frame.get, Frame.write]
    rw [Sparse.get_set_other hr _ hg]

/-- A write keeps the canonical form. -/
theorem Frame.write_wf {g : Frame} (h : g.wf = true) (c r : Nat) (v : Half) : (g.write c r v).wf = true := by
  have hrow := Frame.rowD_wf h r
  simp only [Frame.wf, Bool.and_eq_true, List.all_eq_true] at h ⊢
  refine ⟨Sparse.set_wf _ _ h.1, fun e he => ?_⟩
  rcases Sparse.mem_set he with rfl | he
  · simp [Sparse.set_wf _ _ hrow, Sparse.set_ne_nil]
  · exact h.2 e he

end Sys2Proof.Machine
end

