-- ==== Sys2Proof/Laws/State.lean ====
section
/-! SUPPORT. One lemma for each field of the state under each update, true by `rfl`, so that no proof unfolds a record
update. -/

namespace Sys2Proof.Machine

/-! ### Recording a fault -/

section
variable (s : State) (f : FaultCode)

@[simp] theorem withFault_life : (s.withFault f).life = s.life := rfl
@[simp] theorem withFault_rm : (s.withFault f).rm = s.rm := rfl
@[simp] theorem withFault_cm : (s.withFault f).cm = s.cm := rfl
@[simp] theorem withFault_blPresent : (s.withFault f).blPresent = s.blPresent := rfl
@[simp] theorem withFault_W : (s.withFault f).W = s.W := rfl
@[simp] theorem withFault_H : (s.withFault f).H = s.H := rfl
@[simp] theorem withFault_orient : (s.withFault f).orient = s.orient := rfl
@[simp] theorem withFault_powerOn : (s.withFault f).powerOn = s.powerOn := rfl
@[simp] theorem withFault_inverted : (s.withFault f).inverted = s.inverted := rfl
@[simp] theorem withFault_blOn : (s.withFault f).blOn = s.blOn := rfl
@[simp] theorem withFault_lvl : (s.withFault f).lvl = s.lvl := rfl
@[simp] theorem withFault_trace : (s.withFault f).trace = s.trace := rfl
@[simp] theorem withFault_xfers : (s.withFault f).xfers = s.xfers := rfl
@[simp] theorem withFault_faults : (s.withFault f).faults = s.faults ++ [f] := rfl
@[simp] theorem withFault_ret : (s.withFault f).ret = s.ret := rfl
@[simp] theorem withFault_dev : (s.withFault f).dev = s.dev := rfl
@[simp] theorem withFault_font : (s.withFault f).font = s.font := rfl
@[simp] theorem withFault_par : (s.withFault f).par = s.par := rfl
@[simp] theorem withFault_pending : (s.withFault f).pending = s.pending := rfl

end

/-! ### The result -/

section
variable (s : State) (r : Result)

@[simp] theorem answer_life : (s.answer r).life = s.life := rfl
@[simp] theorem answer_rm : (s.answer r).rm = s.rm := rfl
@[simp] theorem answer_cm : (s.answer r).cm = s.cm := rfl
@[simp] theorem answer_blPresent : (s.answer r).blPresent = s.blPresent := rfl
@[simp] theorem answer_W : (s.answer r).W = s.W := rfl
@[simp] theorem answer_H : (s.answer r).H = s.H := rfl
@[simp] theorem answer_orient : (s.answer r).orient = s.orient := rfl
@[simp] theorem answer_powerOn : (s.answer r).powerOn = s.powerOn := rfl
@[simp] theorem answer_inverted : (s.answer r).inverted = s.inverted := rfl
@[simp] theorem answer_blOn : (s.answer r).blOn = s.blOn := rfl
@[simp] theorem answer_lvl : (s.answer r).lvl = s.lvl := rfl
@[simp] theorem answer_trace : (s.answer r).trace = s.trace := rfl
@[simp] theorem answer_xfers : (s.answer r).xfers = s.xfers := rfl
@[simp] theorem answer_faults : (s.answer r).faults = s.faults := rfl
@[simp] theorem answer_ret : (s.answer r).ret = r := rfl
@[simp] theorem answer_dev : (s.answer r).dev = s.dev := rfl
@[simp] theorem answer_font : (s.answer r).font = s.font := rfl
@[simp] theorem answer_par : (s.answer r).par = s.par := rfl
@[simp] theorem answer_pending : (s.answer r).pending = s.pending := rfl

end

/-! ### The session flags -/

section
variable (s : State) (on : Bool)

@[simp] theorem setPower_life : (s.setPower on).life = s.life := rfl
@[simp] theorem setPower_rm : (s.setPower on).rm = s.rm := rfl
@[simp] theorem setPower_cm : (s.setPower on).cm = s.cm := rfl
@[simp] theorem setPower_blPresent : (s.setPower on).blPresent = s.blPresent := rfl
@[simp] theorem setPower_W : (s.setPower on).W = s.W := rfl
@[simp] theorem setPower_H : (s.setPower on).H = s.H := rfl
@[simp] theorem setPower_orient : (s.setPower on).orient = s.orient := rfl
@[simp] theorem setPower_powerOn : (s.setPower on).powerOn = some on := rfl
@[simp] theorem setPower_inverted : (s.setPower on).inverted = s.inverted := rfl
@[simp] theorem setPower_blOn : (s.setPower on).blOn = s.blOn := rfl
@[simp] theorem setPower_lvl : (s.setPower on).lvl = s.lvl := rfl
@[simp] theorem setPower_trace : (s.setPower on).trace = s.trace := rfl
@[simp] theorem setPower_xfers : (s.setPower on).xfers = s.xfers := rfl
@[simp] theorem setPower_faults : (s.setPower on).faults = s.faults := rfl
@[simp] theorem setPower_ret : (s.setPower on).ret = s.ret := rfl
@[simp] theorem setPower_dev : (s.setPower on).dev = s.dev := rfl
@[simp] theorem setPower_font : (s.setPower on).font = s.font := rfl
@[simp] theorem setPower_par : (s.setPower on).par = s.par := rfl
@[simp] theorem setPower_pending : (s.setPower on).pending = s.pending := rfl

end

/-! ### Inversion -/

section
variable (s : State) (on : Bool)

@[simp] theorem setInverted_life : (s.setInverted on).life = s.life := rfl
@[simp] theorem setInverted_rm : (s.setInverted on).rm = s.rm := rfl
@[simp] theorem setInverted_cm : (s.setInverted on).cm = s.cm := rfl
@[simp] theorem setInverted_blPresent : (s.setInverted on).blPresent = s.blPresent := rfl
@[simp] theorem setInverted_W : (s.setInverted on).W = s.W := rfl
@[simp] theorem setInverted_H : (s.setInverted on).H = s.H := rfl
@[simp] theorem setInverted_orient : (s.setInverted on).orient = s.orient := rfl
@[simp] theorem setInverted_powerOn : (s.setInverted on).powerOn = s.powerOn := rfl
@[simp] theorem setInverted_inverted : (s.setInverted on).inverted = some on := rfl
@[simp] theorem setInverted_blOn : (s.setInverted on).blOn = s.blOn := rfl
@[simp] theorem setInverted_lvl : (s.setInverted on).lvl = s.lvl := rfl
@[simp] theorem setInverted_trace : (s.setInverted on).trace = s.trace := rfl
@[simp] theorem setInverted_xfers : (s.setInverted on).xfers = s.xfers := rfl
@[simp] theorem setInverted_faults : (s.setInverted on).faults = s.faults := rfl
@[simp] theorem setInverted_ret : (s.setInverted on).ret = s.ret := rfl
@[simp] theorem setInverted_dev : (s.setInverted on).dev = s.dev := rfl
@[simp] theorem setInverted_font : (s.setInverted on).font = s.font := rfl
@[simp] theorem setInverted_par : (s.setInverted on).par = s.par := rfl
@[simp] theorem setInverted_pending : (s.setInverted on).pending = s.pending := rfl

end

/-! ### Backlight -/

section
variable (s : State) (on : Bool)

@[simp] theorem setBacklight_life : (s.setBacklight on).life = s.life := rfl
@[simp] theorem setBacklight_rm : (s.setBacklight on).rm = s.rm := rfl
@[simp] theorem setBacklight_cm : (s.setBacklight on).cm = s.cm := rfl
@[simp] theorem setBacklight_blPresent : (s.setBacklight on).blPresent = s.blPresent := rfl
@[simp] theorem setBacklight_W : (s.setBacklight on).W = s.W := rfl
@[simp] theorem setBacklight_H : (s.setBacklight on).H = s.H := rfl
@[simp] theorem setBacklight_orient : (s.setBacklight on).orient = s.orient := rfl
@[simp] theorem setBacklight_powerOn : (s.setBacklight on).powerOn = s.powerOn := rfl
@[simp] theorem setBacklight_inverted : (s.setBacklight on).inverted = s.inverted := rfl
@[simp] theorem setBacklight_blOn : (s.setBacklight on).blOn = some on := rfl
@[simp] theorem setBacklight_lvl : (s.setBacklight on).lvl = s.lvl := rfl
@[simp] theorem setBacklight_trace : (s.setBacklight on).trace = s.trace := rfl
@[simp] theorem setBacklight_xfers : (s.setBacklight on).xfers = s.xfers := rfl
@[simp] theorem setBacklight_faults : (s.setBacklight on).faults = s.faults := rfl
@[simp] theorem setBacklight_ret : (s.setBacklight on).ret = s.ret := rfl
@[simp] theorem setBacklight_dev : (s.setBacklight on).dev = s.dev := rfl
@[simp] theorem setBacklight_font : (s.setBacklight on).font = s.font := rfl
@[simp] theorem setBacklight_par : (s.setBacklight on).par = s.par := rfl
@[simp] theorem setBacklight_pending : (s.setBacklight on).pending = s.pending := rfl

end

/-! ### Events -/

section
variable (s : State) (e : Event)

@[simp] theorem emit_life : (emit e s).life = s.life := rfl
@[simp] theorem emit_rm : (emit e s).rm = s.rm := rfl
@[simp] theorem emit_cm : (emit e s).cm = s.cm := rfl
@[simp] theorem emit_blPresent : (emit e s).blPresent = s.blPresent := rfl
@[simp] theorem emit_W : (emit e s).W = s.W := rfl
@[simp] theorem emit_H : (emit e s).H = s.H := rfl
@[simp] theorem emit_orient : (emit e s).orient = s.orient := rfl
@[simp] theorem emit_powerOn : (emit e s).powerOn = s.powerOn := rfl
@[simp] theorem emit_inverted : (emit e s).inverted = s.inverted := rfl
@[simp] theorem emit_blOn : (emit e s).blOn = s.blOn := rfl
@[simp] theorem emit_lvl : (emit e s).lvl = s.lvl := rfl
@[simp] theorem emit_trace : (emit e s).trace = s.trace ++ [e] := rfl
@[simp] theorem emit_xfers : (emit e s).xfers = s.xfers := rfl
@[simp] theorem emit_faults : (emit e s).faults = s.faults := rfl
@[simp] theorem emit_ret : (emit e s).ret = s.ret := rfl
@[simp] theorem emit_dev : (emit e s).dev = s.dev := rfl
@[simp] theorem emit_font : (emit e s).font = s.font := rfl
@[simp] theorem emit_par : (emit e s).par = s.par := rfl
@[simp] theorem emit_pending : (emit e s).pending = s.pending := rfl

end

/-! ### Line drives -/

section
variable (s : State) (l : Line) (v : Level)

@[simp] theorem drive_life : (drive l v s).life = s.life := rfl
@[simp] theorem drive_rm : (drive l v s).rm = s.rm := rfl
@[simp] theorem drive_cm : (drive l v s).cm = s.cm := rfl
@[simp] theorem drive_blPresent : (drive l v s).blPresent = s.blPresent := rfl
@[simp] theorem drive_W : (drive l v s).W = s.W := rfl
@[simp] theorem drive_H : (drive l v s).H = s.H := rfl
@[simp] theorem drive_orient : (drive l v s).orient = s.orient := rfl
@[simp] theorem drive_powerOn : (drive l v s).powerOn = s.powerOn := rfl
@[simp] theorem drive_inverted : (drive l v s).inverted = s.inverted := rfl
@[simp] theorem drive_blOn : (drive l v s).blOn = s.blOn := rfl
@[simp] theorem drive_lvl : (drive l v s).lvl = s.lvl.drive l v := rfl
@[simp] theorem drive_trace : (drive l v s).trace = s.trace ++ [.drive l v] := rfl
@[simp] theorem drive_xfers : (drive l v s).xfers = s.xfers := rfl
@[simp] theorem drive_faults : (drive l v s).faults = s.faults := rfl
@[simp] theorem drive_ret : (drive l v s).ret = s.ret := rfl
@[simp] theorem drive_dev : (drive l v s).dev = s.dev.onDrive l v := rfl
@[simp] theorem drive_font : (drive l v s).font = s.font := rfl
@[simp] theorem drive_par : (drive l v s).par = s.par := rfl
@[simp] theorem drive_pending : (drive l v s).pending = s.pending := rfl

end

/-! ### The start of a transfer -/

section
variable (s : State) (dc : Level)

@[simp] theorem xferStart_life : (xferStart dc s).life = s.life := by simp [xferStart]
@[simp] theorem xferStart_rm : (xferStart dc s).rm = s.rm := by simp [xferStart]
@[simp] theorem xferStart_cm : (xferStart dc s).cm = s.cm := by simp [xferStart]
@[simp] theorem xferStart_blPresent : (xferStart dc s).blPresent = s.blPresent := by simp [xferStart]
@[simp] theorem xferStart_W : (xferStart dc s).W = s.W := by simp [xferStart]
@[simp] theorem xferStart_H : (xferStart dc s).H = s.H := by simp [xferStart]
@[simp] theorem xferStart_orient : (xferStart dc s).orient = s.orient := by simp [xferStart]
@[simp] theorem xferStart_powerOn : (xferStart dc s).powerOn = s.powerOn := by simp [xferStart]
@[simp] theorem xferStart_inverted : (xferStart dc s).inverted = s.inverted := by simp [xferStart]
@[simp] theorem xferStart_blOn : (xferStart dc s).blOn = s.blOn := by simp [xferStart]
@[simp] theorem xferStart_lvl : (xferStart dc s).lvl = { s.lvl with dc := some dc, cs := some false } := by simp [xferStart, Levels.drive]
@[simp] theorem xferStart_trace : (xferStart dc s).trace = s.trace ++ [.drive .dc dc] ++ [.drive .cs false] := by simp [xferStart]
@[simp] theorem xferStart_xfers : (xferStart dc s).xfers = s.xfers + 1 := by simp [xferStart]
@[simp] theorem xferStart_faults : (xferStart dc s).faults = s.faults := by simp [xferStart]
@[simp] theorem xferStart_ret : (xferStart dc s).ret = s.ret := by simp [xferStart]
@[simp] theorem xferStart_dev : (xferStart dc s).dev = s.dev := by simp [xferStart, Dev.onDrive]
@[simp] theorem xferStart_font : (xferStart dc s).font = s.font := by simp [xferStart]
@[simp] theorem xferStart_par : (xferStart dc s).par = s.par := by simp [xferStart]
@[simp] theorem xferStart_pending : (xferStart dc s).pending = s.pending := by simp [xferStart]

end

/-! ### A failed transfer -/

section
variable (s : State)

@[simp] theorem xferFailed_life : (xferFailed s).life = s.life := rfl
@[simp] theorem xferFailed_rm : (xferFailed s).rm = s.rm := rfl
@[simp] theorem xferFailed_cm : (xferFailed s).cm = s.cm := rfl
@[simp] theorem xferFailed_blPresent : (xferFailed s).blPresent = s.blPresent := rfl
@[simp] theorem xferFailed_W : (xferFailed s).W = s.W := rfl
@[simp] theorem xferFailed_H : (xferFailed s).H = s.H := rfl
@[simp] theorem xferFailed_orient : (xferFailed s).orient = s.orient := rfl
@[simp] theorem xferFailed_powerOn : (xferFailed s).powerOn = s.powerOn := rfl
@[simp] theorem xferFailed_inverted : (xferFailed s).inverted = s.inverted := rfl
@[simp] theorem xferFailed_blOn : (xferFailed s).blOn = s.blOn := rfl
@[simp] theorem xferFailed_lvl : (xferFailed s).lvl = { s.lvl with cs := none } := rfl
@[simp] theorem xferFailed_trace : (xferFailed s).trace = s.trace ++ [.busFail] := rfl
@[simp] theorem xferFailed_xfers : (xferFailed s).xfers = s.xfers := rfl
@[simp] theorem xferFailed_faults : (xferFailed s).faults = s.faults := rfl
@[simp] theorem xferFailed_ret : (xferFailed s).ret = s.ret := rfl
@[simp] theorem xferFailed_dev : (xferFailed s).dev = s.dev.forget := rfl
@[simp] theorem xferFailed_font : (xferFailed s).font = s.font := rfl
@[simp] theorem xferFailed_par : (xferFailed s).par = s.par := rfl
@[simp] theorem xferFailed_pending : (xferFailed s).pending = s.pending := rfl

end

/-! ### A frame's bytes -/

section
variable (s : State) (dc : Level) (r : FrameRun)

@[simp] theorem xferBytes_life : (xferBytes dc r s).life = s.life := rfl
@[simp] theorem xferBytes_rm : (xferBytes dc r s).rm = s.rm := rfl
@[simp] theorem xferBytes_cm : (xferBytes dc r s).cm = s.cm := rfl
@[simp] theorem xferBytes_blPresent : (xferBytes dc r s).blPresent = s.blPresent := rfl
@[simp] theorem xferBytes_W : (xferBytes dc r s).W = s.W := rfl
@[simp] theorem xferBytes_H : (xferBytes dc r s).H = s.H := rfl
@[simp] theorem xferBytes_orient : (xferBytes dc r s).orient = s.orient := rfl
@[simp] theorem xferBytes_powerOn : (xferBytes dc r s).powerOn = s.powerOn := rfl
@[simp] theorem xferBytes_inverted : (xferBytes dc r s).inverted = s.inverted := rfl
@[simp] theorem xferBytes_blOn : (xferBytes dc r s).blOn = s.blOn := rfl
@[simp] theorem xferBytes_lvl : (xferBytes dc r s).lvl = s.lvl := rfl
@[simp] theorem xferBytes_trace : (xferBytes dc r s).trace = s.trace ++ r.sent.map (Event.byte dc) := rfl
@[simp] theorem xferBytes_xfers : (xferBytes dc r s).xfers = s.xfers := rfl
@[simp] theorem xferBytes_faults : (xferBytes dc r s).faults = s.faults := rfl
@[simp] theorem xferBytes_ret : (xferBytes dc r s).ret = s.ret := rfl
@[simp] theorem xferBytes_dev : (xferBytes dc r s).dev = r.dev := rfl
@[simp] theorem xferBytes_font : (xferBytes dc r s).font = s.font := rfl
@[simp] theorem xferBytes_par : (xferBytes dc r s).par = s.par := rfl
@[simp] theorem xferBytes_pending : (xferBytes dc r s).pending = s.pending := rfl

end

/-! ### The reset pulse -/

section
variable (s : State)

@[simp] theorem resetPulse_life : (resetPulse s).life = s.life := by simp [resetPulse, hold]
@[simp] theorem resetPulse_rm : (resetPulse s).rm = s.rm := by simp [resetPulse, hold]
@[simp] theorem resetPulse_cm : (resetPulse s).cm = s.cm := by simp [resetPulse, hold]
@[simp] theorem resetPulse_blPresent : (resetPulse s).blPresent = s.blPresent := by simp [resetPulse, hold]
@[simp] theorem resetPulse_W : (resetPulse s).W = s.W := by simp [resetPulse, hold]
@[simp] theorem resetPulse_H : (resetPulse s).H = s.H := by simp [resetPulse, hold]
@[simp] theorem resetPulse_orient : (resetPulse s).orient = s.orient := by simp [resetPulse, hold]
@[simp] theorem resetPulse_powerOn : (resetPulse s).powerOn = s.powerOn := by simp [resetPulse, hold]
@[simp] theorem resetPulse_inverted : (resetPulse s).inverted = s.inverted := by simp [resetPulse, hold]
@[simp] theorem resetPulse_blOn : (resetPulse s).blOn = s.blOn := by simp [resetPulse, hold]
@[simp] theorem resetPulse_lvl : (resetPulse s).lvl = { s.lvl with rst := some true } := by simp [resetPulse, hold, Levels.drive]
@[simp] theorem resetPulse_xfers : (resetPulse s).xfers = s.xfers := by simp [resetPulse, hold]
@[simp] theorem resetPulse_faults : (resetPulse s).faults = s.faults := by simp [resetPulse, hold]
@[simp] theorem resetPulse_ret : (resetPulse s).ret = s.ret := by simp [resetPulse, hold]
@[simp] theorem resetPulse_dev : (resetPulse s).dev = s.dev.forget := by simp [resetPulse, hold, Dev.onDrive]
@[simp] theorem resetPulse_font : (resetPulse s).font = s.font := by simp [resetPulse, hold]
@[simp] theorem resetPulse_par : (resetPulse s).par = s.par := by simp [resetPulse, hold]
@[simp] theorem resetPulse_pending : (resetPulse s).pending = s.pending := by simp [resetPulse, hold]

end

@[simp] theorem resetPulse_trace (s : State) : (resetPulse s).trace = s.trace ++ pulseEvents := by
  simp [resetPulse, hold, pulseEvents]

/-! ### The start of the bring-up -/

section
variable (w h : Half) (o : Fin 4) (s : State)

@[simp] theorem startBringUp_life : (startBringUp w h o s).life = .configuring := rfl
@[simp] theorem startBringUp_rm : (startBringUp w h o s).rm = s.rm := by simp [startBringUp]
@[simp] theorem startBringUp_cm : (startBringUp w h o s).cm = s.cm := by simp [startBringUp]
@[simp] theorem startBringUp_blPresent : (startBringUp w h o s).blPresent = s.blPresent := by simp [startBringUp]
@[simp] theorem startBringUp_W : (startBringUp w h o s).W = some w.toNat := by simp [startBringUp]
@[simp] theorem startBringUp_H : (startBringUp w h o s).H = some h.toNat := by simp [startBringUp]
@[simp] theorem startBringUp_orient : (startBringUp w h o s).orient = some o := by simp [startBringUp]
@[simp] theorem startBringUp_powerOn : (startBringUp w h o s).powerOn = s.powerOn := by simp [startBringUp]
@[simp] theorem startBringUp_inverted : (startBringUp w h o s).inverted = s.inverted := by simp [startBringUp]
@[simp] theorem startBringUp_blOn : (startBringUp w h o s).blOn = s.blOn := by simp [startBringUp]
@[simp] theorem startBringUp_lvl : (startBringUp w h o s).lvl = { s.lvl with rst := some true } := by simp [startBringUp]
@[simp] theorem startBringUp_trace : (startBringUp w h o s).trace = s.trace ++ pulseEvents := by simp [startBringUp]
@[simp] theorem startBringUp_xfers : (startBringUp w h o s).xfers = s.xfers := by simp [startBringUp]
@[simp] theorem startBringUp_faults : (startBringUp w h o s).faults = s.faults := by simp [startBringUp]
@[simp] theorem startBringUp_ret : (startBringUp w h o s).ret = s.ret := by simp [startBringUp]
@[simp] theorem startBringUp_dev : (startBringUp w h o s).dev = s.dev.forget := by simp [startBringUp]
@[simp] theorem startBringUp_font : (startBringUp w h o s).font = s.font := by simp [startBringUp]
@[simp] theorem startBringUp_par : (startBringUp w h o s).par = s.par := by simp [startBringUp]
@[simp] theorem startBringUp_pending : (startBringUp w h o s).pending = s.pending := by simp [startBringUp]

end

/-! ### A message queued -/

section
variable (s : State) (m : Inbound)

@[simp] theorem withMessage_life : (s.withMessage m).life = s.life := rfl
@[simp] theorem withMessage_rm : (s.withMessage m).rm = s.rm := rfl
@[simp] theorem withMessage_cm : (s.withMessage m).cm = s.cm := rfl
@[simp] theorem withMessage_blPresent : (s.withMessage m).blPresent = s.blPresent := rfl
@[simp] theorem withMessage_W : (s.withMessage m).W = s.W := rfl
@[simp] theorem withMessage_H : (s.withMessage m).H = s.H := rfl
@[simp] theorem withMessage_orient : (s.withMessage m).orient = s.orient := rfl
@[simp] theorem withMessage_powerOn : (s.withMessage m).powerOn = s.powerOn := rfl
@[simp] theorem withMessage_inverted : (s.withMessage m).inverted = s.inverted := rfl
@[simp] theorem withMessage_blOn : (s.withMessage m).blOn = s.blOn := rfl
@[simp] theorem withMessage_lvl : (s.withMessage m).lvl = s.lvl := rfl
@[simp] theorem withMessage_trace : (s.withMessage m).trace = s.trace := rfl
@[simp] theorem withMessage_xfers : (s.withMessage m).xfers = s.xfers := rfl
@[simp] theorem withMessage_faults : (s.withMessage m).faults = s.faults := rfl
@[simp] theorem withMessage_ret : (s.withMessage m).ret = s.ret := rfl
@[simp] theorem withMessage_dev : (s.withMessage m).dev = s.dev := rfl
@[simp] theorem withMessage_font : (s.withMessage m).font = s.font := rfl
@[simp] theorem withMessage_par : (s.withMessage m).par = s.par := rfl
@[simp] theorem withMessage_pending : (s.withMessage m).pending = m :: s.pending := rfl

end

/-! ### A frame sent -/

section
variable (s : State) (dc : Level) (bytes : List Byte) (d : Dev)

@[simp] theorem afterFrame_life : (afterFrame dc bytes d s).life = s.life := rfl
@[simp] theorem afterFrame_rm : (afterFrame dc bytes d s).rm = s.rm := rfl
@[simp] theorem afterFrame_cm : (afterFrame dc bytes d s).cm = s.cm := rfl
@[simp] theorem afterFrame_blPresent : (afterFrame dc bytes d s).blPresent = s.blPresent := rfl
@[simp] theorem afterFrame_W : (afterFrame dc bytes d s).W = s.W := rfl
@[simp] theorem afterFrame_H : (afterFrame dc bytes d s).H = s.H := rfl
@[simp] theorem afterFrame_orient : (afterFrame dc bytes d s).orient = s.orient := rfl
@[simp] theorem afterFrame_powerOn : (afterFrame dc bytes d s).powerOn = s.powerOn := rfl
@[simp] theorem afterFrame_inverted : (afterFrame dc bytes d s).inverted = s.inverted := rfl
@[simp] theorem afterFrame_blOn : (afterFrame dc bytes d s).blOn = s.blOn := rfl
@[simp] theorem afterFrame_lvl : (afterFrame dc bytes d s).lvl = { s.lvl with dc := some dc, cs := some true } := rfl
@[simp] theorem afterFrame_trace : (afterFrame dc bytes d s).trace = s.trace ++ frameEvents dc bytes := rfl
@[simp] theorem afterFrame_xfers : (afterFrame dc bytes d s).xfers = s.xfers + 1 := rfl
@[simp] theorem afterFrame_faults : (afterFrame dc bytes d s).faults = s.faults := rfl
@[simp] theorem afterFrame_ret : (afterFrame dc bytes d s).ret = s.ret := rfl
@[simp] theorem afterFrame_dev : (afterFrame dc bytes d s).dev = d := rfl
@[simp] theorem afterFrame_font : (afterFrame dc bytes d s).font = s.font := rfl
@[simp] theorem afterFrame_par : (afterFrame dc bytes d s).par = s.par := rfl
@[simp] theorem afterFrame_pending : (afterFrame dc bytes d s).pending = s.pending := rfl

end

/-! ### The controller forgets -/

section
variable (d : Dev) 

@[simp] theorem forget_cmd : (d.forget).cmd = none := rfl
@[simp] theorem forget_params : (d.forget).params = [] := rfl
@[simp] theorem forget_colS : (d.forget).colS = none := rfl
@[simp] theorem forget_colE : (d.forget).colE = none := rfl
@[simp] theorem forget_rowS : (d.forget).rowS = none := rfl
@[simp] theorem forget_rowE : (d.forget).rowE = none := rfl
@[simp] theorem forget_ramwr : (d.forget).ramwr = false := rfl
@[simp] theorem forget_ptrC : (d.forget).ptrC = d.ptrC := rfl
@[simp] theorem forget_ptrR : (d.forget).ptrR = d.ptrR := rfl
@[simp] theorem forget_pend : (d.forget).pend = none := rfl
@[simp] theorem forget_sleepOut : (d.forget).sleepOut = none := rfl
@[simp] theorem forget_dispOn : (d.forget).dispOn = none := rfl
@[simp] theorem forget_invOn : (d.forget).invOn = none := rfl
@[simp] theorem forget_normal : (d.forget).normal = none := rfl
@[simp] theorem forget_madctl : (d.forget).madctl = none := rfl
@[simp] theorem forget_cfg : (d.forget).cfg = [] := rfl
@[simp] theorem forget_gram : (d.forget).gram = [] := rfl

end

/-! ### A command latched -/

section
variable (d : Dev) (b : Byte)

@[simp] theorem latched_cmd : (d.latched b).cmd = some b := rfl
@[simp] theorem latched_params : (d.latched b).params = [] := rfl
@[simp] theorem latched_colS : (d.latched b).colS = d.colS := rfl
@[simp] theorem latched_colE : (d.latched b).colE = d.colE := rfl
@[simp] theorem latched_rowS : (d.latched b).rowS = d.rowS := rfl
@[simp] theorem latched_rowE : (d.latched b).rowE = d.rowE := rfl
@[simp] theorem latched_ramwr : (d.latched b).ramwr = false := rfl
@[simp] theorem latched_ptrC : (d.latched b).ptrC = d.ptrC := rfl
@[simp] theorem latched_ptrR : (d.latched b).ptrR = d.ptrR := rfl
@[simp] theorem latched_pend : (d.latched b).pend = d.pend := rfl
@[simp] theorem latched_sleepOut : (d.latched b).sleepOut = d.sleepOut := rfl
@[simp] theorem latched_dispOn : (d.latched b).dispOn = d.dispOn := rfl
@[simp] theorem latched_invOn : (d.latched b).invOn = d.invOn := rfl
@[simp] theorem latched_normal : (d.latched b).normal = d.normal := rfl
@[simp] theorem latched_madctl : (d.latched b).madctl = d.madctl := rfl
@[simp] theorem latched_cfg : (d.latched b).cfg = d.cfg := rfl
@[simp] theorem latched_gram : (d.latched b).gram = d.gram := rfl

end

/-! ### A fill drawn -/

section
variable (d : Dev) (cmd : CmdTable) (p : Panel) (f : Fill) (g : Frame)

@[simp] theorem afterFill_cmd : (d.afterFill cmd p f g).cmd = some cmd.ramwr := rfl
@[simp] theorem afterFill_params : (d.afterFill cmd p f g).params = [] := rfl
@[simp] theorem afterFill_colS : (d.afterFill cmd p f g).colS = some (physical f.x p.cm) := rfl
@[simp] theorem afterFill_colE : (d.afterFill cmd p f g).colE = some (physical (f.x + f.w - 1) p.cm) := rfl
@[simp] theorem afterFill_rowS : (d.afterFill cmd p f g).rowS = some (physical f.y p.rm) := rfl
@[simp] theorem afterFill_rowE : (d.afterFill cmd p f g).rowE = some (physical (f.y + f.h - 1) p.rm) := rfl
@[simp] theorem afterFill_ramwr : (d.afterFill cmd p f g).ramwr = true := rfl
@[simp] theorem afterFill_ptrC : (d.afterFill cmd p f g).ptrC = (f.x + p.cm).toNat := rfl
@[simp] theorem afterFill_ptrR : (d.afterFill cmd p f g).ptrR = (f.y + f.h + p.rm).toNat := rfl
@[simp] theorem afterFill_pend : (d.afterFill cmd p f g).pend = none := rfl
@[simp] theorem afterFill_sleepOut : (d.afterFill cmd p f g).sleepOut = d.sleepOut := rfl
@[simp] theorem afterFill_dispOn : (d.afterFill cmd p f g).dispOn = d.dispOn := rfl
@[simp] theorem afterFill_invOn : (d.afterFill cmd p f g).invOn = d.invOn := rfl
@[simp] theorem afterFill_normal : (d.afterFill cmd p f g).normal = d.normal := rfl
@[simp] theorem afterFill_madctl : (d.afterFill cmd p f g).madctl = d.madctl := rfl
@[simp] theorem afterFill_cfg : (d.afterFill cmd p f g).cfg = d.cfg := rfl
@[simp] theorem afterFill_gram : (d.afterFill cmd p f g).gram = g := rfl

end

/-! ### Outcomes of a run -/

@[simp] theorem Run.state_ok (s : State) : Run.state (.ok s) = s := rfl
@[simp] theorem Run.state_error (s : State) : Run.state (.error s) = s := rfl
@[simp] theorem raise_state (f : FaultCode) (s : State) : Run.state (raise f s) = s.withFault f := rfl
@[simp] theorem bind_ok (s : State) (k : State → Run) : ((Except.ok s : Run) >>= k) = k s := rfl
@[simp] theorem bind_error (s : State) (k : State → Run) : ((Except.error s : Run) >>= k) = Except.error s := rfl
@[simp] theorem bind_raise (f : FaultCode) (s : State) (k : State → Run) : (raise f s >>= k) = raise f s := rfl

end Sys2Proof.Machine
end

