-- ==== Sys2Proof/Laws/Controller.lean ====
section
/-! SUPPORT. The laws of the display controller: what a whole frame of bytes does when no byte faults, how a window's
parameters and a rectangle's pixels are taken, and the controller's invariant kept by every byte. -/

namespace Sys2Proof.Machine

variable {par : Params}

/-! ### Frames that are consumed whole -/

/-- The frame's bytes are all shifted out and consumed without a fault, from `d` to `d'`. -/
def Consumes (par : Params) (dc : Level) (bytes : List Byte) (d d' : Dev) : Prop :=
  devFrame par dc bytes d = { sent := bytes, dev := d', fault := none }

theorem Consumes.nil (dc : Level) (d : Dev) : Consumes par dc [] d d := rfl

theorem Consumes.cons {dc : Level} {b : Byte} {bs : List Byte} {d d' d'' : Dev}
    (h : devByte par dc b d = .ok d') (hs : Consumes par dc bs d' d'') : Consumes par dc (b :: bs) d d'' := by
  unfold Consumes at hs ⊢
  simp [devFrame, h, hs]

theorem Consumes.single {dc : Level} {b : Byte} {d d' : Dev} (h : devByte par dc b d = .ok d') :
    Consumes par dc [b] d d' := Consumes.cons h (Consumes.nil dc d')

theorem Consumes.append {dc : Level} {xs ys : List Byte} {d d' d'' : Dev}
    (hx : Consumes par dc xs d d') (hy : Consumes par dc ys d' d'') : Consumes par dc (xs ++ ys) d d'' := by
  induction xs generalizing d with
  | nil =>
    have : d' = d := by simpa [Consumes, devFrame] using hx.symm
    subst this; exact hy
  | cons b bs ih =>
    simp only [Consumes, devFrame] at hx
    split at hx
    next d1 h1 =>
      have hbs : Consumes par dc bs d1 d' := by
        simp only [FrameRun.mk.injEq, List.cons.injEq, true_and] at hx
        simp only [Consumes]; rw [← hx.2.1, ← hx.2.2]
        cases hr : devFrame par dc bs d1; simp_all
      exact Consumes.cons h1 (ih hbs)
    next f d1 h1 => simp at hx

/-- A frame either is consumed whole or stops at a fault after a prefix of its bytes. -/
theorem devFrame_sent_of_no_fault {dc : Level} {bs : List Byte} {d : Dev} (h : (devFrame par dc bs d).fault = none) :
    (devFrame par dc bs d).sent = bs := by
  induction bs generalizing d with
  | nil => rfl
  | cons b bs ih =>
    simp only [devFrame] at h ⊢
    split at h
    next d1 h1 => simp [ih h]
    next f d1 h1 => simp at h

theorem consumes_iff {dc : Level} {bs : List Byte} {d d' : Dev} :
    Consumes par dc bs d d' ↔ (devFrame par dc bs d).fault = none ∧ (devFrame par dc bs d).dev = d' := by
  constructor
  · intro h; rw [h]; exact ⟨rfl, rfl⟩
  · rintro ⟨h1, h2⟩
    have h3 := devFrame_sent_of_no_fault h1
    simp only [Consumes]
    cases hr : devFrame par dc bs d; simp_all

/-! ### The faults a byte can raise -/

/-- A fault of the controller: one of its own codes (R281), or the code that stands for a byte that is no command's, which
only a state that no run reaches can raise (log 10). -/
def DevRun.faultsIn (r : DevRun) : Prop :=
  match r with
  | .ok _ => True
  | .error fd => fd.1.isController = true ∨ fd.1 = .unknownWireCommand

theorem onLatch_faults (b : Byte) (d : Dev) (name : WireName) : (onLatch b d name).faultsIn := by
  cases name <;> try exact trivial
  show DevRun.faultsIn (latchRamwr d)
  unfold latchRamwr
  split
  · split
    · exact .inl rfl
    · exact trivial
  · exact .inl rfl

theorem onParam_faults (b : Byte) (d : Dev) (name : WireName) : (onParam b d name).faultsIn := by
  have h1 : (paramNone d).faultsIn := .inl rfl
  have h2 : (paramCaset d).faultsIn := by
    unfold paramCaset
    split
    · exact trivial
    · split
      · exact .inl rfl
      · exact trivial
  have h3 : (paramRaset d).faultsIn := by
    unfold paramRaset
    split
    · exact trivial
    · split
      · exact .inl rfl
      · exact trivial
  have h4 : (paramMadctl d).faultsIn := by
    unfold paramMadctl
    split
    · exact trivial
    · split
      · exact .inl rfl
      · exact trivial
  cases name <;> first | exact h1 | exact h2 | exact h3 | exact h4 | exact trivial

theorem pixelByte_faults (b : Byte) (d : Dev) : (pixelByte par b d).faultsIn := by
  unfold pixelByte pixelWrite
  repeat' split
  all_goals first | exact trivial | exact .inl rfl

theorem devByte_faults (dc : Level) (b : Byte) (d : Dev) : (devByte par dc b d).faultsIn := by
  unfold devByte devCommand devData
  repeat' split
  all_goals first | exact .inl rfl | exact .inr rfl | exact onLatch_faults .. | exact pixelByte_faults .. | exact onParam_faults ..

theorem devFrame_faults {dc : Level} {bs : List Byte} {f : FaultCode} : ∀ {d : Dev},
    (devFrame par dc bs d).fault = some f → f.isController = true ∨ f = .unknownWireCommand := by
  induction bs with
  | nil => intro d h; cases h
  | cons b bs ih =>
    intro d h
    have hb := devByte_faults (par := par) dc b d
    rw [devFrame] at h
    split at h
    · exact ih h
    · rename_i hd; rw [hd] at hb; cases h; exact hb

theorem devFrame_not_busFailure {dc : Level} {bs : List Byte} {f : FaultCode} {d : Dev}
    (h : (devFrame par dc bs d).fault = some f) : f ≠ .busFailure := by
  rintro rfl
  rcases devFrame_faults h with h | h
  · exact absurd h (by decide)
  · cases h

/-- What a reset, or a failed transfer, leaves of the controller (R131, R171). -/
theorem forget_unknown (d : Dev) : d.forget.Unknown where
  cmd := rfl
  params := rfl
  window := ⟨rfl, rfl, rfl, rfl⟩
  ramwr := rfl
  pend := rfl
  modes := ⟨rfl, rfl, rfl, rfl, rfl⟩
  cfg := fun _ => rfl
  gram := fun _ _ => rfl

/-! ### Commands and parameters -/

/-- A command byte on a clean controller is latched and has its own effect (R172). -/
theorem devByte_command (hc : CodesDistinct par.cmd) {d : Dev} (hd : d.Clean par.cmd) (name : WireName) :
    devByte par false (par.cmd.code name) d = onLatch (par.cmd.code name) (d.latched (par.cmd.code name)) name := by
  simp [devByte, devCommand, hd.1, hd.2, nameOf_code hc, Dev.latched]

/-- A data byte outside a memory write is a parameter of the latched command (R173). -/
theorem devByte_param (hc : CodesDistinct par.cmd) {d : Dev} {name : WireName}
    (hd : d.cmd = some (par.cmd.code name)) (hr : d.ramwr = false) (b : Byte) :
    devByte par true b d = onParam (par.cmd.code name) { d with params := d.params ++ [b] } name := by
  simp [devByte, devData, hd, hr, nameOf_code hc]

/-- Four parameter bytes set the window's rows (R176). -/
theorem consumes_raset (hc : CodesDistinct par.cmd) {d : Dev} (hd : d.cmd = some par.cmd.raset) (hr : d.ramwr = false)
    (hp : d.params = []) (a b : Half) :
    Consumes par true (boundBytes a b) d
      { d with params := boundBytes a b, rowS := some a, rowE := some b } := by
  have hn : ∀ d' : Dev, d'.cmd = some par.cmd.raset → d'.ramwr = false → ∀ x, devByte par true x d' =
      paramRaset { d' with params := d'.params ++ [x] } := fun d' h1 h2 x => devByte_param (name := .raset) hc h1 h2 x
  refine Consumes.cons (d' := { d with params := [hi8 a] }) ((hn d hd hr _).trans (by simp [paramRaset, hp])) ?_
  refine Consumes.cons (d' := { d with params := [hi8 a, lo8 a] })
    ((hn { d with params := [hi8 a] } hd hr _).trans (by simp [paramRaset])) ?_
  refine Consumes.cons (d' := { d with params := [hi8 a, lo8 a, hi8 b] })
    ((hn { d with params := [hi8 a, lo8 a] } hd hr _).trans (by simp [paramRaset])) ?_
  exact Consumes.single
    ((hn { d with params := [hi8 a, lo8 a, hi8 b] } hd hr _).trans (by simp [paramRaset, paramBound, boundBytes]))

/-- Four parameter bytes set the window's columns (R175). -/
theorem consumes_caset (hc : CodesDistinct par.cmd) {d : Dev} (hd : d.cmd = some par.cmd.caset) (hr : d.ramwr = false)
    (hp : d.params = []) (a b : Half) :
    Consumes par true (boundBytes a b) d
      { d with params := boundBytes a b, colS := some a, colE := some b } := by
  have hn : ∀ d' : Dev, d'.cmd = some par.cmd.caset → d'.ramwr = false → ∀ x, devByte par true x d' =
      paramCaset { d' with params := d'.params ++ [x] } := fun d' h1 h2 x => devByte_param (name := .caset) hc h1 h2 x
  refine Consumes.cons (d' := { d with params := [hi8 a] }) ((hn d hd hr _).trans (by simp [paramCaset, hp])) ?_
  refine Consumes.cons (d' := { d with params := [hi8 a, lo8 a] })
    ((hn { d with params := [hi8 a] } hd hr _).trans (by simp [paramCaset])) ?_
  refine Consumes.cons (d' := { d with params := [hi8 a, lo8 a, hi8 b] })
    ((hn { d with params := [hi8 a, lo8 a] } hd hr _).trans (by simp [paramCaset])) ?_
  exact Consumes.single
    ((hn { d with params := [hi8 a, lo8 a, hi8 b] } hd hr _).trans (by simp [paramCaset, paramBound, boundBytes]))

/-! ### Pixels -/

/-- An open memory write over columns `c0..c1` and rows up to `r1`, with no half pixel (R35, R177). -/
structure Writing (par : Params) (c0 c1 r1 : Half) (d : Dev) : Prop where
  cmd : ∃ b, d.cmd = some b
  ramwr : d.ramwr = true
  pend : d.pend = none
  colS : d.colS = some c0
  colE : d.colE = some c1
  rowE : d.rowE = some r1

/-- Everything a complete pixel can do when the window is set (R179 to R181). -/
theorem pixelWrite_of {c0 c1 r1 : Half} {d : Dev} (h1 : d.colS = some c0) (h2 : d.colE = some c1)
    (h3 : d.rowE = some r1) (v : Half) :
    pixelWrite par v d =
      if r1.toNat < d.ptrR then .error (.windowOverrun, d)
      else
        match d.extent par with
        | none => .error (.outOfGram, d)
        | some lim =>
          if lim.cols ≤ d.ptrC ∨ lim.rows ≤ d.ptrR then .error (.outOfGram, d)
          else .ok (Dev.advance c0 c1 { d with gram := d.gram.write d.ptrC d.ptrR v }) := by
  obtain ⟨cmd, params, colS, colE, rowS, rowE, ramwr, ptrC, ptrR, pend, sleepOut, dispOn, invOn, normal, madctl, cfg, gram⟩ := d
  subst h1 h2 h3; rfl

/-- One whole pixel, inside the window and `GRAM_LIMIT`, is written and the pointer moves (R178, R179). -/
theorem consumes_pixel {c0 c1 r1 : Half} {d : Dev} (hw : Writing par c0 c1 r1 d) {e : Extent}
    (he : d.extent par = some e) (hr : d.ptrR ≤ r1.toNat) (hc : d.ptrC < e.cols) (hr' : d.ptrR < e.rows) (v : Half) :
    Consumes par true [hi8 v, lo8 v] d
      (Dev.advance c0 c1 { d with gram := d.gram.write d.ptrC d.ptrR v }) := by
  obtain ⟨⟨b, h1⟩, h2, h3, h4, h5, h6⟩ := hw
  refine Consumes.cons (d' := { d with pend := some (hi8 v) })
    (by simp [devByte, devData, h1, h2, pixelByte, h3]) (Consumes.single ?_)
  have hd : ({ d with cmd := some b, ramwr := true, pend := none } : Dev) = d := by rw [← h1, ← h2, ← h3]
  have : devByte par true (lo8 v) { d with pend := some (hi8 v) } = pixelWrite par (be16 (hi8 v) (lo8 v)) d := by
    simp [devByte, devData, h1, h2, pixelByte, hd]
  rw [this, be16_hi8_lo8]
  rw [pixelWrite_of h4 h5 h6, he, if_neg (by omega)]
  exact if_neg (by omega)

/-- The rest of a row, from column `c` to the window's last, all of one colour (R179). -/
theorem consumes_row {c0 c1 r1 : Half} {d : Dev} (hw : Writing par c0 c1 r1 d) {e : Extent}
    (he : d.extent par = some e) (hcols : c1.toNat < e.cols) (v : Half) {r : Nat} (hr : r ≤ r1.toNat) (hr' : r < e.rows) :
    ∀ (n c : Nat) (g : Frame), c + n = c1.toNat → g.wf = true →
      ∃ g', g'.wf = true ∧
        Consumes par true (pixelStream v (n + 1)) { d with ptrC := c, ptrR := r, gram := g }
          { d with ptrC := c0.toNat, ptrR := r + 1, gram := g' } ∧
        ∀ c' r', Frame.get g' c' r' =
          if c ≤ c' ∧ c' ≤ c1.toNat ∧ r' = r then some v else Frame.get g c' r' := by
  intro n
  induction n with
  | zero =>
    intro c g hc hg
    refine ⟨g.write c r v, Frame.write_wf hg c r v, ?_, ?_⟩
    · have h := consumes_pixel (d := { d with ptrC := c, ptrR := r, gram := g }) (c0 := c0) (c1 := c1) (r1 := r1)
        ⟨hw.cmd, hw.ramwr, hw.pend, hw.colS, hw.colE, hw.rowE⟩ (e := e) he hr (by simp; omega) hr' v
      simpa [Dev.advance, pixelStream, show ¬ c < c1.toNat by omega] using h
    · intro c' r'
      rw [Frame.get_write hg]
      by_cases h : c' = c ∧ r' = r
      · rw [if_pos h, if_pos (by omega)]
      · rw [if_neg h, if_neg (by omega)]
  | succ n ih =>
    intro c g hc hg
    obtain ⟨g', hg', hcons, hget⟩ := ih (c + 1) (g.write c r v) (by omega) (Frame.write_wf hg c r v)
    refine ⟨g', hg', ?_, ?_⟩
    · have h := consumes_pixel (d := { d with ptrC := c, ptrR := r, gram := g }) (c0 := c0) (c1 := c1) (r1 := r1)
        ⟨hw.cmd, hw.ramwr, hw.pend, hw.colS, hw.colE, hw.rowE⟩ (e := e) he hr (by simp; omega) hr' v
      have h' := by simpa [Dev.advance, show c < c1.toNat by omega] using h
      exact Consumes.append (xs := [hi8 v, lo8 v]) h' hcons
    · intro c' r'
      rw [hget, Frame.get_write hg]
      by_cases h : c' = c ∧ r' = r
      · rw [if_neg (by omega), if_pos h, if_pos (by omega)]
      · rw [if_neg h]
        by_cases h2 : c + 1 ≤ c' ∧ c' ≤ c1.toNat ∧ r' = r
        · rw [if_pos h2, if_pos (by omega)]
        · rw [if_neg h2, if_neg (by omega)]

theorem pixelStream_add (v : Half) (m n : Nat) : pixelStream v (m + n) = pixelStream v m ++ pixelStream v n := by
  induction m with
  | zero => simp [pixelStream]
  | succ m ih => rw [Nat.succ_add]; simp [pixelStream, ih]

/-- `n + 1` whole rows, from row `r` on, all of one colour: the window's cells hold it, every other cell is as before, and
the pointer is at the start of the row after (R179, R223). -/
theorem consumes_rows {c0 c1 r1 : Half} {d : Dev} (hw : Writing par c0 c1 r1 d) {e : Extent}
    (he : d.extent par = some e) (hcols : c1.toNat < e.cols) (hc : c0.toNat ≤ c1.toNat) (v : Half) :
    ∀ (n r : Nat) (g : Frame), r + n ≤ r1.toNat + 1 → r + n ≤ e.rows → g.wf = true →
      ∃ g', g'.wf = true ∧
        Consumes par true (pixelStream v (n * (c1.toNat - c0.toNat + 1)))
          { d with ptrC := c0.toNat, ptrR := r, gram := g }
          { d with ptrC := c0.toNat, ptrR := r + n, gram := g' } ∧
        ∀ c' r', Frame.get g' c' r' =
          if c0.toNat ≤ c' ∧ c' ≤ c1.toNat ∧ r ≤ r' ∧ r' < r + n then some v else Frame.get g c' r' := by
  intro n
  induction n with
  | zero =>
    intro r g _ _ hg
    refine ⟨g, hg, ?_, fun c' r' => ?_⟩
    · simpa [pixelStream] using Consumes.nil true _
    · rw [if_neg (by omega)]
  | succ n ih =>
    intro r g hr hr' hg
    obtain ⟨g1, hg1, hc1, hget1⟩ := consumes_row hw he hcols v (r := r) (by omega) (by omega)
      (c1.toNat - c0.toNat) c0.toNat g (by omega) hg
    obtain ⟨g2, hg2, hc2, hget2⟩ := ih (r + 1) g1 (by omega) (by omega) hg1
    refine ⟨g2, hg2, ?_, fun c' r' => ?_⟩
    · have := Consumes.append hc1 hc2
      rw [← pixelStream_add] at this
      rw [show (n + 1) * (c1.toNat - c0.toNat + 1) = c1.toNat - c0.toNat + 1 + n * (c1.toNat - c0.toNat + 1) by ring,
        show r + (n + 1) = r + 1 + n by omega]
      exact this
    · rw [hget2, hget1]
      by_cases h2 : c0.toNat ≤ c' ∧ c' ≤ c1.toNat ∧ r + 1 ≤ r' ∧ r' < r + 1 + n
      · rw [if_pos h2, if_pos (by omega)]
      · rw [if_neg h2]
        by_cases h3 : c0.toNat ≤ c' ∧ c' ≤ c1.toNat ∧ r' = r
        · rw [if_pos h3, if_pos (by omega)]
        · rw [if_neg h3, if_neg (by omega)]

end Sys2Proof.Machine
end

