-- ==== Sys2Proof/Laws/Ops.lean ====
section
/-! SUPPORT. The laws of the shared operations: the three ends of a transfer, and the lifting of a relation that every
transfer and every recorded fault keeps to everything that is built from them. -/

namespace Sys2Proof.Machine

/-! ### The three ends of a transfer (R131, R132, R280) -/

theorem xfer_ok {dc : Level} {bytes : List Byte} {s : State} (hb : busOk s.par s.xfers = true)
    (hf : (devFrame s.par dc bytes s.dev).fault = none) :
    xfer dc bytes s = .ok (afterFrame dc bytes (devFrame s.par dc bytes s.dev).dev s) := by
  have hs := devFrame_sent_of_no_fault hf
  simp [xfer, xferStart, drive, Dev.onDrive, Levels.drive, hb, hf, xferBytes, hs, afterFrame, frameEvents]

theorem xfer_raised {dc : Level} {bytes : List Byte} {s : State} {f : FaultCode} (hb : busOk s.par s.xfers = true)
    (hf : (devFrame s.par dc bytes s.dev).fault = some f) :
    xfer dc bytes s = .raised (afterFault dc (devFrame s.par dc bytes s.dev).sent
      (devFrame s.par dc bytes s.dev).dev f s) := by
  simp [xfer, xferStart, drive, Dev.onDrive, Levels.drive, hb, hf, xferBytes, afterFault, State.withFault]

theorem xfer_fail {dc : Level} {bytes : List Byte} {s : State} (hb : busOk s.par s.xfers = false) :
    xfer dc bytes s = .fail (afterBusFail dc s.dev.forget s) := by
  simp [xfer, xferStart, drive, Dev.onDrive, Levels.drive, hb, xferFailed, afterBusFail]

theorem send_ok {dc : Level} {bytes : List Byte} {s : State} (hb : busOk s.par s.xfers = true)
    (hf : (devFrame s.par dc bytes s.dev).fault = none) :
    send dc bytes s = .ok (afterFrame dc bytes (devFrame s.par dc bytes s.dev).dev s) := by
  simp [send, Sending.orElse, xfer_ok hb hf]

theorem send_raised {dc : Level} {bytes : List Byte} {s : State} {f : FaultCode} (hb : busOk s.par s.xfers = true)
    (hf : (devFrame s.par dc bytes s.dev).fault = some f) :
    send dc bytes s = .error (afterFault dc (devFrame s.par dc bytes s.dev).sent
      (devFrame s.par dc bytes s.dev).dev f s) := by
  simp [send, Sending.orElse, xfer_raised hb hf]

theorem send_fail {dc : Level} {bytes : List Byte} {s : State} (hb : busOk s.par s.xfers = false) :
    send dc bytes s = .error (afterBusFailure dc s.dev.forget s) := by
  simp [send, Sending.orElse, xfer_fail hb, busFailure, raise, State.withFault, afterBusFailure, afterBusFail]

/-- A frame by itself that is not a failed transfer ends as any other (log 2). -/
theorem sendFrame_eq_send {dc : Level} {bytes : List Byte} {s : State} (hb : busOk s.par s.xfers = true) :
    sendFrame dc bytes s = send dc bytes s := by
  cases hf : (devFrame s.par dc bytes s.dev).fault with
  | none => simp [sendFrame, send, Sending.orElse, xfer_ok hb hf]
  | some f => simp [sendFrame, send, Sending.orElse, xfer_raised hb hf]

theorem sendFrame_fail {dc : Level} {bytes : List Byte} {s : State} (hb : busOk s.par s.xfers = false) :
    sendFrame dc bytes s = .error (afterFrameFailure dc s.dev.forget s) := by
  simp [sendFrame, Sending.orElse, xfer_fail hb, frameFailure, raise, State.withFault, afterFrameFailure, afterBusFail]

/-- Everything a transfer can end in. -/
theorem xfer_cases {P : Sending → Prop} (dc : Level) (bytes : List Byte) (s : State)
    (ok : busOk s.par s.xfers = true → (devFrame s.par dc bytes s.dev).fault = none →
      P (.ok (afterFrame dc bytes (devFrame s.par dc bytes s.dev).dev s)))
    (raised : ∀ f, busOk s.par s.xfers = true → (devFrame s.par dc bytes s.dev).fault = some f →
      P (.raised (afterFault dc (devFrame s.par dc bytes s.dev).sent (devFrame s.par dc bytes s.dev).dev f s)))
    (fail : busOk s.par s.xfers = false → P (.fail (afterBusFail dc s.dev.forget s))) : P (xfer dc bytes s) := by
  by_cases hb : busOk s.par s.xfers = true
  · cases hf : (devFrame s.par dc bytes s.dev).fault with
    | none => rw [xfer_ok hb hf]; exact ok hb hf
    | some f => rw [xfer_raised hb hf]; exact raised f hb hf
  · have hb : busOk s.par s.xfers = false := by simpa using hb
    rw [xfer_fail hb]; exact fail hb

/-- Everything a transfer of a request other than INITIALIZE can end in. -/
theorem send_cases {P : Run → Prop} (dc : Level) (bytes : List Byte) (s : State)
    (ok : busOk s.par s.xfers = true → (devFrame s.par dc bytes s.dev).fault = none →
      P (.ok (afterFrame dc bytes (devFrame s.par dc bytes s.dev).dev s)))
    (raised : ∀ f, busOk s.par s.xfers = true → (devFrame s.par dc bytes s.dev).fault = some f →
      P (.error (afterFault dc (devFrame s.par dc bytes s.dev).sent (devFrame s.par dc bytes s.dev).dev f s)))
    (fail : busOk s.par s.xfers = false → P (.error (afterBusFailure dc s.dev.forget s))) : P (send dc bytes s) := by
  by_cases hb : busOk s.par s.xfers = true
  · cases hf : (devFrame s.par dc bytes s.dev).fault with
    | none => rw [send_ok hb hf]; exact ok hb hf
    | some f => rw [send_raised hb hf]; exact raised f hb hf
  · have hb : busOk s.par s.xfers = false := by simpa using hb
    rw [send_fail hb]; exact fail hb

/-- Everything a frame by itself can end in. -/
theorem sendFrame_cases {P : Run → Prop} (dc : Level) (bytes : List Byte) (s : State)
    (ok : busOk s.par s.xfers = true → (devFrame s.par dc bytes s.dev).fault = none →
      P (.ok (afterFrame dc bytes (devFrame s.par dc bytes s.dev).dev s)))
    (raised : ∀ f, busOk s.par s.xfers = true → (devFrame s.par dc bytes s.dev).fault = some f →
      P (.error (afterFault dc (devFrame s.par dc bytes s.dev).sent (devFrame s.par dc bytes s.dev).dev f s)))
    (fail : busOk s.par s.xfers = false → P (.error (afterFrameFailure dc s.dev.forget s))) :
    P (sendFrame dc bytes s) := by
  by_cases hb : busOk s.par s.xfers = true
  · rw [sendFrame_eq_send hb]
    exact send_cases dc bytes s ok raised fun h => by rw [hb] at h; cases h
  · have hb : busOk s.par s.xfers = false := by simpa using hb
    rw [sendFrame_fail hb]; exact fail hb

theorem send_consumes {dc : Level} {bytes : List Byte} {s : State} {d : Dev} (hb : busOk s.par s.xfers = true)
    (h : Consumes s.par dc bytes s.dev d) : send dc bytes s = .ok (afterFrame dc bytes d s) := by
  obtain ⟨h1, h2⟩ := consumes_iff.1 h
  rw [send_ok hb h1, h2]

theorem sendFrame_consumes {dc : Level} {bytes : List Byte} {s : State} {d : Dev} (hb : busOk s.par s.xfers = true)
    (h : Consumes s.par dc bytes s.dev d) : sendFrame dc bytes s = .ok (afterFrame dc bytes d s) :=
  (sendFrame_eq_send hb).trans (send_consumes hb h)

/-! ### Runs -/

theorem Run.bind_ok {r : Run} {k : State → Run} {s : State} (h : r = .ok s) : (r >>= k) = k s := by subst h; rfl

theorem Run.bind_error {r : Run} {k : State → Run} {s : State} (h : r = .error s) : (r >>= k) = .error s := by
  subst h; rfl

/-- Where a run ends, seen from where it started: `F` if it goes on, `E` if a fault ended it. -/
def Run.Ends (F E : State → State → Prop) (s : State) : Run → Prop
  | .ok t => F s t
  | .error t => E s t

theorem Run.Ends.mono {F E F' E' : State → State → Prop} {s : State} {r : Run} (h : r.Ends F E s)
    (hF : ∀ t, F s t → F' s t) (hE : ∀ t, E s t → E' s t) : r.Ends F' E' s := by
  cases r with
  | ok t => exact hF t h
  | error t => exact hE t h

/-- A pair of relations that compose, and that recording a fault keeps; `BusFailure` and the controller's faults are recorded
by a transfer only (R132, R281). -/
structure Composes (F E : State → State → Prop) : Prop where
  refl : ∀ s, F s s
  trans : ∀ {s t u}, F s t → F t u → F s u
  transE : ∀ {s t u}, F s t → E t u → E s u
  fault : ∀ f s, f ≠ .busFailure ∧ f.isController = false → E s (s.withFault f)

namespace Composes

variable {F E : State → State → Prop}

theorem ok (h : Composes F E) (s : State) : Run.Ends F E s (.ok s) := h.refl s

theorem raise (h : Composes F E) (f : FaultCode) (s : State)
    (hf : f ≠ .busFailure ∧ f.isController = false := by decide) : Run.Ends F E s (raise f s) := h.fault f s hf

theorem bindOk (h : Composes F E) {s : State} {r : Run} {k : State → Run} (hr : r.Ends F E s)
    (hk : ∀ t, r = .ok t → (k t).Ends F E t) : Run.Ends F E s (r >>= k) := by
  cases r with
  | error t => exact hr
  | ok t =>
    have := hk t rfl
    show Run.Ends F E s (k t)
    cases hkt : k t with
    | error u => rw [hkt] at this; exact h.transE hr this
    | ok u => rw [hkt] at this; exact h.trans hr this

theorem bind (h : Composes F E) {s : State} {r : Run} {k : State → Run} (hr : r.Ends F E s)
    (hk : ∀ t, (k t).Ends F E t) : Run.Ends F E s (r >>= k) := h.bindOk hr fun t _ => hk t

theorem ite (_ : Composes F E) {s : State} {c : Prop} [Decidable c] {a b : Run} (ha : a.Ends F E s)
    (hb : b.Ends F E s) : (if c then a else b).Ends F E s := by split <;> assumption

theorem readyGate (h : Composes F E) (s : State) : (readyGate s).Ends F E s := by
  unfold Machine.readyGate
  exact h.ite (h.raise _ _) (h.ite (h.raise _ _) (h.ok _))

theorem clipped (h : Composes F E) (s : State) : (clipped s).Ends F E s := by
  unfold Machine.clipped; split
  · exact h.raise _ _
  · exact h.ok _

theorem withPanel (h : Composes F E) {k : Panel → State → Run} {s : State}
    (hk : ∀ p, s.life = .ready → s.panel = some p → (k p s).Ends F E s) : (withPanel k s).Ends F E s := by
  unfold Machine.withPanel
  refine h.bindOk (h.readyGate s) fun t ht => ?_
  unfold Machine.readyGate at ht
  split at ht
  · cases ht
  · split at ht
    · cases ht
    · rename_i hr
      obtain rfl : s = t := Except.ok.inj ht
      split
      · rename_i p hp; exact hk p (by simpa using hr) hp
      · exact h.raise _ _

end Composes

/-- What every frame sent keeps as well. -/
structure Lifts (F E : State → State → Prop) : Prop extends Composes F E where
  send : ∀ dc bytes s, (send dc bytes s).Ends F E s

namespace Lifts

variable {F E : State → State → Prop}

theorem wcmd (h : Lifts F E) (name : WireName) (s : State) : (wcmd name s).Ends F E s := h.send _ _ _

theorem wdata (h : Lifts F E) (bytes : List Byte) (s : State) : (wdata bytes s).Ends F E s := h.send _ _ _

theorem window (h : Lifts F E) (p : Panel) (x0 y0 x1 y1 : Int) (s : State) : (window p x0 y0 x1 y1 s).Ends F E s :=
  h.bind (h.wcmd _ _) fun _ => h.bind (h.wdata _ _) fun _ => h.bind (h.wcmd _ _) fun _ => h.bind (h.wdata _ _) fun _ =>
    h.wcmd _ _

theorem rect (h : Lifts F E) (p : Panel) (x y w k : Int) (c : Half) (s : State) : (rect p x y w k c s).Ends F E s := by
  unfold Machine.rect
  exact h.ite (h.raise _ _) (h.ite (h.raise _ _) (h.ite (h.clipped _)
    (h.ite (h.raise _ _) (h.bind (h.window _ _ _ _ _ _) fun _ => h.wdata _ _))))

end Lifts

end Sys2Proof.Machine
end

