-- ==== Sys2Proof/Laws/Draw.lean ====
section
/-! SUPPORT. The laws of drawing: the window, one rectangle, and lists of fills drawn one after another. -/

namespace Sys2Proof.Machine

/-! ### Physical addresses -/

theorem toNat_physical {v : Int} {m : Nat} (h0 : 0 ≤ v) (h1 : v + m ≤ 0xFFFF) :
    (physical v m).toNat = (v + m).toNat := by
  have : (physical v m).toNat = ((v + m) % (2 ^ 16 : Nat)).toNat := by simp [physical, BitVec.toNat_ofInt]
  rw [this, Int.emod_eq_of_lt (by omega) (by norm_num; omega)]

/-! ### Frames and the window -/

theorem wcmd_ok {s : State} {name : WireName} {d : Dev} (hr : FrameReady s)
    (h : onLatch (s.par.cmd.code name) (s.dev.latched (s.par.cmd.code name)) name = .ok d) :
    wcmd name s = .ok (afterFrame false [s.par.cmd.code name] d s) :=
  send_consumes hr.2.1 (Consumes.single ((devByte_command hr.1 hr.2.2 name).trans h))

theorem wireCommand_ok {s : State} {name : WireName} {d : Dev} (hr : FrameReady s)
    (h : onLatch (s.par.cmd.code name) (s.dev.latched (s.par.cmd.code name)) name = .ok d) :
    wireCommand name s = .ok (afterFrame false [s.par.cmd.code name] d s) :=
  (sendFrame_eq_send hr.2.1).trans (wcmd_ok hr h)

theorem Dev.clean_of {cmd : CmdTable} {d : Dev} (hp : d.pend = none) (hl : d.params.length = 0 ∨ 4 ≤ d.params.length) :
    d.Clean cmd := by
  refine ⟨hp, ?_⟩
  simp only [Dev.cutShort, Bool.and_eq_false_iff]
  exact .inr (by simp; omega)

/-- The window of R139 on a clean controller and a reliable bus. -/
theorem window_ok {p : Panel} {s : State} (hc : CodesDistinct s.par.cmd) (hb : BusReliable s.par)
    (hd : s.dev.Clean s.par.cmd) {x0 y0 x1 y1 : Int} (hx : (physical x0 p.cm).toNat ≤ (physical x1 p.cm).toNat)
    (hy : (physical y0 p.rm).toNat ≤ (physical y1 p.rm).toNat) :
    window p x0 y0 x1 y1 s = .ok (afterWindow p x0 y0 x1 y1 s) := by
  have h1 := wcmd_ok (name := .raset) (d := s.dev.latched s.par.cmd.raset) ⟨hc, hb _, hd⟩ rfl
  have h2 := send_consumes (dc := true) (s := afterFrame false [s.par.cmd.code .raset] (s.dev.latched s.par.cmd.raset) s)
    (hb _) (consumes_raset hc rfl rfl rfl (physical y0 p.rm) (physical y1 p.rm))
  unfold window
  rw [Run.bind_ok h1, Run.bind_ok (r := wdata _ _) h2]
  generalize hs2 : afterFrame true _ _ (afterFrame false _ _ s) = s2
  have hp2 : s2.par = s.par := by rw [← hs2]; rfl
  have hcl : s2.dev.Clean s2.par.cmd := by
    apply Dev.clean_of
    · rw [← hs2]; exact hd.1
    · rw [← hs2]; right; simp [afterFrame, boundBytes]
  have h3 := wcmd_ok (s := s2) (name := .caset) (d := s2.dev.latched s2.par.cmd.caset) ⟨hp2 ▸ hc, hp2 ▸ hb _, hcl⟩ rfl
  have h4 := send_consumes (dc := true)
    (s := afterFrame false [s2.par.cmd.code .caset] (s2.dev.latched s2.par.cmd.caset) s2)
    ((show BusReliable s2.par from hp2 ▸ hb) _)
    (consumes_caset (hp2 ▸ hc) rfl rfl rfl (physical x0 p.cm) (physical x1 p.cm))
  rw [Run.bind_ok h3, Run.bind_ok (r := wdata _ _) h4]
  generalize hs4 : afterFrame true _ _ (afterFrame false _ _ s2) = s4
  have hp4 : s4.par = s.par := by rw [← hs4, ← hp2]; rfl
  have hcl4 : s4.dev.Clean s4.par.cmd := by
    apply Dev.clean_of
    · rw [← hs4]; exact hcl.1
    · rw [← hs4]; right; simp [afterFrame, boundBytes]
  have h5 := wcmd_ok (s := s4) (name := .ramwr) (d := s4.dev.opened s4.par.cmd (physical x0 p.cm) (physical y0 p.rm)
    (physical x1 p.cm) (physical y1 p.rm)) ⟨hp4 ▸ hc, hp4 ▸ hb _, hcl4⟩ (by
      subst hs4 hs2
      simp only [onLatch, latchRamwr, afterFrame, Dev.latched]
      rw [if_neg (by omega)]
      simp [Dev.opened, CmdTable.code])
  rw [h5]
  subst hs4 hs2
  simp [afterWindow, afterFrame, windowEvents, Dev.opened, Dev.latched, CmdTable.code]

/-! ### One rectangle -/

/-- A pixel is a rectangle of size 1 by 1 (R220). -/
theorem plot_eq_rect (p : Panel) (x y : Int) (c : Half) (s : State) : plot p x y c s = rect p x y 1 1 c s := by
  unfold plot rect
  by_cases h1 : x < 0 ∨ y < 0
  · rw [if_pos h1, if_pos h1]
  · rw [if_neg h1, if_neg h1, if_neg (show ¬((1 : Int) ≤ 0 ∨ (1 : Int) ≤ 0) by omega)]
    by_cases h2 : (p.width : Int) ≤ x ∨ (p.height : Int) ≤ y
    · rw [if_pos h2, if_pos h2]
    · rw [if_neg h2, if_neg h2]
      have hw : min (1 : Int) (p.width - x) = 1 := by omega
      have hh : min (1 : Int) (p.height - y) = 1 := by omega
      simp only [hw, hh]
      simp [pixelStream, pixelBytes]

/-- What a rectangle that is drawn does: its fill, clipped to the panel, and nothing else (R220, R223). -/
theorem rect_draws {p : Panel} {s : State} (hd : Drawable p s) {f : Fill} (hl : f.Legal) (ha : f.Admitted s.par p) :
    ∃ t, rect p f.x f.y f.w f.h f.color s = .ok t ∧ Drawn p ([f].filterMap (Fill.clip p)) s t := by
  obtain ⟨hx, hy, hw, hh⟩ := hl
  unfold rect
  rw [if_neg (by omega), if_neg (by omega)]
  by_cases hoff : (p.width : Int) ≤ f.x ∨ (p.height : Int) ≤ f.y
  · rw [if_pos hoff]
    have hs : s.par.clip = .silent := by
      rcases ha with h | h
      · exact h
      · simp only [Fill.Inside] at h; omega
    refine ⟨s, by simp [clipped, hs], s.dev.gram, hd.frame, ?_, fun c r => ?_⟩
    · simp [Fill.clip, hoff, afterFills]
    · simp [Fill.clip, hoff, paint]
  · rw [if_neg hoff]
    obtain ⟨f1, f2, f3, f4⟩ := hd.fits
    generalize hw' : min f.w (p.width - f.x) = w'
    generalize hh' : min f.h (p.height - f.y) = h'
    rw [if_neg (by
      rintro ⟨hc, h⟩
      rcases ha with h2 | h2
      · rw [h2] at hc; exact absurd hc (by decide)
      · simp only [Fill.Inside] at h2; omega)]
    have b1 : 1 ≤ w' := by omega
    have b2 : 1 ≤ h' := by omega
    have b3 : f.x + w' ≤ p.width := by omega
    have b4 : f.y + h' ≤ p.height := by omega
    have c0 := toNat_physical (v := f.x) (m := p.cm) hx (by omega)
    have c1 := toNat_physical (v := f.x + w' - 1) (m := p.cm) (by omega) (by omega)
    have r0 := toNat_physical (v := f.y) (m := p.rm) hy (by omega)
    have r1 := toNat_physical (v := f.y + h' - 1) (m := p.rm) (by omega) (by omega)
    have hwin := window_ok (p := p) hd.codes hd.bus hd.clean (x0 := f.x) (y0 := f.y) (x1 := f.x + w' - 1)
      (y1 := f.y + h' - 1) (by omega) (by omega)
    rw [Run.bind_ok hwin]
    obtain ⟨e, he, e1, e2⟩ := hd.gram
    obtain ⟨g, hg, hcons, hget⟩ := consumes_rows (par := s.par) (c0 := physical f.x p.cm)
      (c1 := physical (f.x + w' - 1) p.cm) (r1 := physical (f.y + h' - 1) p.rm)
      (d := (afterWindow p f.x f.y (f.x + w' - 1) (f.y + h' - 1) s).dev)
      ⟨⟨_, rfl⟩, rfl, rfl, rfl, rfl, rfl⟩ (e := e) (by simpa [Dev.extent, afterWindow, Dev.opened] using he)
      (by omega) (by omega) f.color h'.toNat (physical f.y p.rm).toNat s.dev.gram (by omega) (by omega) hd.frame
    have hlen : h'.toNat * ((physical (f.x + w' - 1) p.cm).toNat - (physical f.x p.cm).toNat + 1) = (w' * h').toNat := by
      rw [show (physical (f.x + w' - 1) p.cm).toNat - (physical f.x p.cm).toNat + 1 = w'.toNat by omega]
      zify
      rw [Int.toNat_of_nonneg (by omega), Int.toNat_of_nonneg (by omega), Int.toNat_of_nonneg (by positivity)]
      ring
    rw [hlen] at hcons
    have hsend := send_consumes (s := afterWindow p f.x f.y (f.x + w' - 1) (f.y + h' - 1) s) (dc := true)
      (hd.bus _) (d := _) hcons
    refine ⟨_, hsend, g, hg, ?_, fun c r => ?_⟩
    · have hclip : f.clip p = some { f with w := w', h := h' } := by simp [Fill.clip, hoff, hw', hh']
      simp only [List.filterMap_cons, hclip, List.filterMap_nil, afterFills, List.getLast?_singleton]
      simp [afterFrame, afterWindow, Fill.events, Dev.afterFill, Dev.opened]
      omega
    · have hclip : f.clip p = some { f with w := w', h := h' } := by simp [Fill.clip, hoff, hw', hh']
      rw [hget]
      simp only [List.filterMap_cons, hclip, List.filterMap_nil, paint, List.foldl_cons, List.foldl_nil, Fill.covers,
        decide_eq_true_eq]
      by_cases hin : f.x + (p.cm : Int) ≤ c ∧ (c : Int) < f.x + w' + p.cm ∧ f.y + (p.rm : Int) ≤ r ∧
          (r : Int) < f.y + h' + p.rm
      · rw [if_pos (by omega), if_pos hin]
      · rw [if_neg (by omega), if_neg hin]

/-! ### Lists of fills -/

theorem paint_append (p : Panel) (fs gs : List Fill) (c r : Nat) (old : Option Half) :
    paint p (fs ++ gs) c r old = paint p gs c r (paint p fs c r old) := by simp [paint]

theorem drawn_nil {p : Panel} {s t : State} (h : Drawn p [] s t) : t = s := by
  obtain ⟨g, _, ht, _⟩ := h
  simpa [afterFills] using ht

theorem drawn_refl {p : Panel} {s : State} (h : s.dev.gram.wf = true) : Drawn p [] s s :=
  ⟨s.dev.gram, h, by simp [afterFills], fun c r => by simp [paint]⟩

/-- What drawing leaves as it was. -/
theorem drawn_frame {p : Panel} {fs : List Fill} {s t : State} (h : Drawn p fs s t) :
    t.par = s.par ∧ t.font = s.font ∧ t.life = s.life ∧ t.panel = s.panel ∧ t.dev.madctl = s.dev.madctl := by
  obtain ⟨g, _, ht, _⟩ := h
  subst ht
  simp only [afterFills]
  split
  · exact ⟨rfl, rfl, rfl, rfl, rfl⟩
  · exact ⟨rfl, rfl, rfl, rfl, rfl⟩

theorem drawn_trans {p : Panel} {fs gs : List Fill} {s t u : State} (h1 : Drawn p fs s t) (h2 : Drawn p gs t u) :
    Drawn p (fs ++ gs) s u := by
  cases gs with
  | nil => rw [drawn_nil h2, List.append_nil]; exact h1
  | cons g0 gs0 =>
    cases fs with
    | nil => rw [← drawn_nil h1]; exact h2
    | cons f0 fs0 =>
      obtain ⟨g1, hg1, ht, hp1⟩ := h1
      obtain ⟨g2, hg2, hu, hp2⟩ := h2
      refine ⟨g2, hg2, ?_, fun c r => ?_⟩
      · have e1 : (f0 :: fs0 ++ g0 :: gs0).getLast? = (g0 :: gs0).getLast? := by
          rw [List.getLast?_append, List.getLast?_eq_some_getLast (List.cons_ne_nil g0 gs0), Option.some_or]
        obtain ⟨l2, hl2⟩ : ∃ l, (g0 :: gs0).getLast? = some l := ⟨_, List.getLast?_eq_some_getLast (by simp)⟩
        obtain ⟨l1, hl1⟩ : ∃ l, (f0 :: fs0).getLast? = some l := ⟨_, List.getLast?_eq_some_getLast (by simp)⟩
        rw [hu, ht]
        simp only [afterFills, hl1, e1, hl2]
        simp [Dev.afterFill, List.flatMap_append, List.append_assoc]
        omega
      · have hd : Frame.get t.dev.gram c r = Frame.get g1 c r := by
          obtain ⟨l1, hl1⟩ : ∃ l, (f0 :: fs0).getLast? = some l := ⟨_, List.getLast?_eq_some_getLast (by simp)⟩
          rw [ht]; simp only [afterFills, hl1]; rfl
        rw [hp2, hd, hp1, paint_append]

theorem drawable_of_drawn {p : Panel} {fs : List Fill} {s t : State} (hd : Drawable p s) (h : Drawn p fs s t) :
    Drawable p t := by
  obtain ⟨e1, e2, e3, e4, e5⟩ := drawn_frame h
  obtain ⟨e, he, hb⟩ := hd.gram
  refine ⟨e3 ▸ hd.ready, e4 ▸ hd.panel, hd.fits, e1 ▸ hd.codes, e1 ▸ hd.bus, ⟨e, ?_, hb⟩, ?_, ?_⟩
  · simpa [Dev.extent, e5, e1] using he
  · obtain ⟨g, _, ht, _⟩ := h
    subst ht
    simp only [afterFills]
    split
    · exact hd.clean
    · exact Dev.clean_of rfl (.inl rfl)
  · obtain ⟨g, hg, ht, _⟩ := h
    subst ht
    simp only [afterFills]
    split
    · exact hd.frame
    · exact hg

/-! ### A drawing request is a list of rectangles -/

/-- The rectangles of a list of fills, drawn in order until one faults. -/
def drawFills (p : Panel) : List Fill → State → Run
  | [], s => .ok s
  | f :: fs, s => rect p f.x f.y f.w f.h f.color s >>= drawFills p fs

theorem drawFills_append (p : Panel) (fs gs : List Fill) :
    ∀ s, drawFills p (fs ++ gs) s = (drawFills p fs s >>= drawFills p gs) := by
  induction fs with
  | nil => intro s; rfl
  | cons f fs ih =>
    intro s
    simp only [List.cons_append, drawFills]
    cases rect p f.x f.y f.w f.h f.color s with
    | error t => rfl
    | ok t => exact ih t

theorem drawFills_single (p : Panel) (f : Fill) (s : State) :
    drawFills p [f] s = rect p f.x f.y f.w f.h f.color s := by
  simp only [drawFills]; cases rect p f.x f.y f.w f.h f.color s <;> rfl

theorem plot_eq_drawFills (p : Panel) (x y : Int) (c : Half) (s : State) :
    plot p x y c s = drawFills p [Fill.pixel x y c] s := by rw [drawFills_single, plot_eq_rect]; rfl

theorem Run.bind_congr {r : Run} {k k' : State → Run} (h : ∀ t, r = .ok t → k t = k' t) : (r >>= k) = (r >>= k') := by
  cases r with
  | error t => rfl
  | ok t => exact h t rfl

theorem rect_keeps {p : Panel} {x y w h : Int} {c : Half} {s t : State} (hr : rect p x y w h c s = .ok t) :
    t.font = s.font := by
  have hl : Lifts (fun s t => t.font = s.font) (fun _ _ => True) :=
    ⟨⟨fun _ => rfl, fun a b => b.trans a, fun _ _ => trivial, fun _ _ _ => trivial⟩, fun dc bytes s => by
      by_cases hb : busOk s.par s.xfers = true
      · cases hf : (devFrame s.par dc bytes s.dev).fault with
        | none => rw [send_ok hb hf]; rfl
        | some f => rw [send_raised hb hf]; trivial
      · rw [send_fail (by simpa using hb)]; trivial⟩
  have := hl.rect p x y w h c s
  rw [hr] at this; exact this

theorem drawFills_keeps (p : Panel) (fs : List Fill) : ∀ {s t : State}, drawFills p fs s = .ok t → t.font = s.font := by
  induction fs with
  | nil => intro s t h; cases h; rfl
  | cons f fs ih =>
    intro s t h
    simp only [drawFills] at h
    cases hr : rect p f.x f.y f.w f.h f.color s with
    | error u => rw [hr] at h; cases h
    | ok u => rw [hr] at h; exact (ih h).trans (rect_keeps hr)

/-- Fills that nothing stops are all drawn, each clipped to the panel (R220, R222, R223). -/
theorem drawFills_draws {p : Panel} (fs : List Fill) : ∀ {s : State}, Drawable p s → Admissible s.par p fs →
    ∃ t, drawFills p fs s = .ok t ∧ Drawn p (fs.filterMap (Fill.clip p)) s t := by
  induction fs with
  | nil => intro s hd _; exact ⟨s, rfl, drawn_refl hd.frame⟩
  | cons f fs ih =>
    intro s hd ha
    have hf := ha f (List.mem_cons_self ..)
    obtain ⟨t, ht, hdr⟩ := rect_draws hd hf.1 hf.2
    obtain ⟨u, hu, hdr2⟩ := ih (drawable_of_drawn hd hdr) (fun g hg => by
      rw [(drawn_frame hdr).1]; exact ha g (List.mem_cons_of_mem _ hg))
    refine ⟨u, by rw [drawFills, Run.bind_ok ht, hu], ?_⟩
    rw [show f :: fs = [f] ++ fs from rfl, List.filterMap_append]
    exact drawn_trans hdr hdr2

/-- A fill that is stopped leaves the state as it was, with its fault (R220, R234). -/
theorem rect_stops {p : Panel} {s : State} {f : Fill} {c : FaultCode} (h : f.fault s.par p = some c) :
    rect p f.x f.y f.w f.h f.color s = .error (s.withFault c) := by
  unfold Fill.fault at h
  unfold rect
  by_cases h1 : f.x < 0 ∨ f.y < 0
  · rw [if_pos h1] at h; rw [if_pos h1]; cases h; rfl
  · rw [if_neg h1] at h; rw [if_neg h1]
    by_cases h2 : f.w ≤ 0 ∨ f.h ≤ 0
    · rw [if_pos h2] at h; rw [if_pos h2]; cases h; rfl
    · rw [if_neg h2] at h; rw [if_neg h2]
      by_cases h3 : s.par.clip = .fault ∧ ¬f.Inside p
      · rw [if_pos h3] at h; cases h
        by_cases h4 : (p.width : Int) ≤ f.x ∨ (p.height : Int) ≤ f.y
        · rw [if_pos h4]; simp [clipped, h3.1, raise]
        · rw [if_neg h4, if_pos ⟨h3.1, by have := h3.2; simp only [Fill.Inside] at this; omega⟩]; rfl
      · rw [if_neg h3] at h; cases h

/-- Fills drawn up to the first that is stopped: those before it stay drawn (R220, R280). -/
theorem drawFills_stops {p : Panel} {fs gs : List Fill} {f : Fill} {s : State} {c : FaultCode} (hd : Drawable p s)
    (ha : Admissible s.par p fs) (hf : f.fault s.par p = some c) :
    ∃ t, drawFills p (fs ++ f :: gs) s = .error (t.withFault c) ∧ Drawn p (fs.filterMap (Fill.clip p)) s t := by
  obtain ⟨t, ht, hdr⟩ := drawFills_draws fs hd ha
  refine ⟨t, ?_, hdr⟩
  rw [drawFills_append, Run.bind_ok ht, drawFills, Run.bind_error]
  exact rect_stops (by rw [(drawn_frame hdr).1]; exact hf)

/-- In a ready session a request that needs the panel runs with it. -/
theorem withPanel_ready {p : Panel} {s : State} (hr : s.life = .ready) (hp : s.panel = some p) (k : Panel → State → Run) :
    withPanel k s = k p s := by
  have hg : readyGate s = .ok s := by simp [readyGate, hr]
  rw [withPanel, Run.bind_ok hg]
  simp only [hp]

/-- A drawing request whose run is a list of fills, none of them stopped, ends with the result `Unit`. -/
theorem draws_of_fills {p : Panel} {fills : List Fill} {s : State} {k : Panel → State → Run} (hd : Drawable p s)
    (h : k p s = drawFills p fills s) (ha : Admissible s.par p fills) :
    Draws p fills s (complete (withPanel (fun p s => do let s ← k p s; .ok (s.answer .unit)) s)) := by
  obtain ⟨t, ht, hdr⟩ := drawFills_draws fills hd ha
  refine ⟨t, ?_, hdr⟩
  rw [withPanel_ready hd.ready hd.panel]
  rw [Run.bind_ok (h.trans ht)]
  rfl

/-- The same with a fill that is stopped. -/
theorem stops_of_fills {p : Panel} {fs gs : List Fill} {f : Fill} {s : State} {c : FaultCode} {k : Panel → State → Run}
    (hd : Drawable p s) (h : k p s = drawFills p (fs ++ f :: gs) s) (ha : Admissible s.par p fs)
    (hf : f.fault s.par p = some c) :
    ∃ t, complete (withPanel (fun p s => do let s ← k p s; .ok (s.answer .unit)) s) = .next (t.withFault c) ∧
      Drawn p (fs.filterMap (Fill.clip p)) s t := by
  obtain ⟨t, ht, hdr⟩ := drawFills_stops (gs := gs) hd ha hf
  refine ⟨t, ?_, hdr⟩
  rw [withPanel_ready hd.ready hd.panel]
  rw [Run.bind_error (h.trans ht)]
  rfl

end Sys2Proof.Machine
end

