-- ==== Sys2Proof/Laws/Shapes.lean ====
section
/-! SUPPORT. The laws of the line and the circles: their loops draw exactly the fills of Safety.lean, and the lifting of a
relation through them. -/

namespace Sys2Proof.Machine

/-! ### Lines -/

/-- The closed form of R227's accumulator moves as the accumulator does: after `k` steps the error is
`dx / 2 - k * dy + m * dx`, and lies in `[0, dx)`. -/
theorem minorOffset_spec {dx dy : Int} (hdx : 0 < dx) (k : Nat) :
    0 ≤ dx / 2 - k * dy + minorOffset dx dy k * dx ∧ dx / 2 - k * dy + minorOffset dx dy k * dx < dx := by
  have h1 := Int.emod_nonneg (k * dy + (dx - 1 - dx / 2)) (ne_of_gt hdx)
  have h2 := Int.emod_lt_of_pos (k * dy + (dx - 1 - dx / 2)) hdx
  have h3 := Int.emod_add_mul_ediv (k * dy + (dx - 1 - dx / 2)) dx
  unfold minorOffset
  rw [mul_comm dx] at h3
  omega

/-- The accumulator's value decides the minor coordinate. -/
theorem minorOffset_unique {dx dy m : Int} (hdx : 0 < dx) (k : Nat) (h0 : 0 ≤ dx / 2 - k * dy + m * dx)
    (h1 : dx / 2 - k * dy + m * dx < dx) : m = minorOffset dx dy k := by
  obtain ⟨g0, g1⟩ := minorOffset_spec (dy := dy) hdx k
  have e : (m - minorOffset dx dy k) * dx = m * dx - minorOffset dx dy k * dx := by ring
  have a : m - minorOffset dx dy k < 1 := by
    by_contra hc
    have : 1 * dx ≤ (m - minorOffset dx dy k) * dx := Int.mul_le_mul_of_nonneg_right (by omega) hdx.le
    omega
  have b : -1 < m - minorOffset dx dy k := by
    by_contra hc
    have : (m - minorOffset dx dy k) * dx ≤ -1 * dx := Int.mul_le_mul_of_nonneg_right (by omega) hdx.le
    omega
  omega

theorem minorOffset_zero {dx : Int} (hdx : 0 < dx) (dy : Int) : minorOffset dx dy 0 = 0 :=
  (minorOffset_unique (dy := dy) hdx 0 (by simp; omega) (by simp; omega)).symm

/-- The pixel number `k` of a line. -/
def linePixel (steep : Bool) (x0 y0 ystep dx dy : Int) (c : Half) (k : Nat) : Fill :=
  if steep then Fill.pixel (y0 + ystep * minorOffset dx dy k) (x0 + k) c
  else Fill.pixel (x0 + k) (y0 + ystep * minorOffset dx dy k) c

theorem linePixels_eq (steep : Bool) (x0 y0 x1 y1 : Int) (c : Half) :
    linePixels steep x0 y0 x1 y1 c =
      (List.range' 0 (x1 - x0 + 1).toNat).map
        (linePixel steep x0 y0 (if y0 < y1 then 1 else -1) (x1 - x0) |y1 - y0| c) := by
  rw [← List.range_eq_range']; rfl

theorem bresenhamLoop_eq {p : Panel} {steep : Bool} {c : Half} {x0 y0 ystep dx dy : Int} (hdx : 0 < dx)
    (hdy0 : 0 ≤ dy) (hdy : dy ≤ dx) (n : Nat) : ∀ (k : Nat) (s : State),
      bresenhamLoop p steep c dx dy ystep n (x0 + k) (y0 + ystep * minorOffset dx dy k)
        (dx / 2 - k * dy + minorOffset dx dy k * dx) s =
      drawFills p ((List.range' k n).map (linePixel steep x0 y0 ystep dx dy c)) s := by
  induction n with
  | zero => intro k s; rfl
  | succ n ih =>
    intro k s
    obtain ⟨g0, g1⟩ := minorOffset_spec (dy := dy) hdx k
    have hrest : ∀ t, (if dx / 2 - k * dy + minorOffset dx dy k * dx - dy < 0 then
          bresenhamLoop p steep c dx dy ystep n (x0 + k + 1) (y0 + ystep * minorOffset dx dy k + ystep)
            (dx / 2 - k * dy + minorOffset dx dy k * dx - dy + dx) t
        else bresenhamLoop p steep c dx dy ystep n (x0 + k + 1) (y0 + ystep * minorOffset dx dy k)
          (dx / 2 - k * dy + minorOffset dx dy k * dx - dy) t) =
        drawFills p ((List.range' (k + 1) n).map (linePixel steep x0 y0 ystep dx dy c)) t := by
      intro t
      rw [← ih (k + 1) t]
      split <;> rename_i he
      · have hm : minorOffset dx dy k + 1 = minorOffset dx dy (k + 1) :=
          minorOffset_unique hdx _ (by push_cast; linarith) (by push_cast; linarith)
        rw [← hm]
        congr 1 <;> push_cast <;> ring
      · have hm : minorOffset dx dy k = minorOffset dx dy (k + 1) :=
          minorOffset_unique hdx _ (by push_cast; linarith) (by push_cast; linarith)
        rw [← hm]
        congr 1 <;> push_cast <;> ring
    rw [List.range'_succ, List.map_cons, bresenhamLoop, drawFills]
    split <;> rename_i hs
    · rw [plot_eq_rect]
      have hp : linePixel steep x0 y0 ystep dx dy c k = Fill.pixel (y0 + ystep * minorOffset dx dy k) (x0 + k) c := if_pos hs
      rw [hp]
      exact Run.bind_congr fun t _ => hrest t
    · rw [plot_eq_rect]
      have hp : linePixel steep x0 y0 ystep dx dy c k = Fill.pixel (x0 + k) (y0 + ystep * minorOffset dx dy k) c := if_neg hs
      rw [hp]
      exact Run.bind_congr fun t _ => hrest t

theorem bresenhamOrdered_eq {p : Panel} {steep : Bool} {c : Half} {x0 y0 x1 y1 : Int} (hdx : x0 < x1)
    (hdy : |y1 - y0| ≤ x1 - x0) (s : State) :
    bresenhamOrdered p steep x0 y0 x1 y1 c s = drawFills p (linePixels steep x0 y0 x1 y1 c) s := by
  rw [linePixels_eq]
  have h := bresenhamLoop_eq (p := p) (steep := steep) (c := c) (x0 := x0) (y0 := y0)
    (ystep := if y0 < y1 then 1 else -1) (dx := x1 - x0)
    (dy := |y1 - y0|) (by omega) (abs_nonneg _) hdy (x1 - x0 + 1).toNat 0 s
  rw [minorOffset_zero (by omega)] at h
  unfold bresenhamOrdered
  simpa using h

theorem bresenhamSwap_eq {p : Panel} {steep : Bool} {c : Half} {x0 y0 x1 y1 : Int} (hdx : x0 ≠ x1)
    (hdy : |y1 - y0| ≤ |x1 - x0|) (s : State) :
    bresenhamSwap p steep x0 y0 x1 y1 c s = drawFills p (linePixelsOrdered steep x0 y0 x1 y1 c) s := by
  unfold bresenhamSwap linePixelsOrdered
  by_cases h : x1 < x0
  · rw [if_pos h, if_pos h]
    exact bresenhamOrdered_eq h (by
      rw [← abs_of_pos (show 0 < x0 - x1 by omega), abs_sub_comm y0, abs_sub_comm x0]; exact hdy) s
  · rw [if_neg h, if_neg h]
    exact bresenhamOrdered_eq (by omega) (by rw [← abs_of_pos (show 0 < x1 - x0 by omega)]; exact hdy) s

/-- LINE draws its fills (R226, R227). -/
theorem drawLine_eq {p : Panel} {c : Half} {x0 y0 x1 y1 : Int} (h0 : 0 ≤ x0 ∧ 0 ≤ y0 ∧ 0 ≤ x1 ∧ 0 ≤ y1) (s : State) :
    drawLine p x0 y0 x1 y1 c s = drawFills p (lineFills x0 y0 x1 y1 c) s := by
  unfold drawLine lineFills
  rw [if_neg (show ¬(x0 < 0 ∨ y0 < 0 ∨ x1 < 0 ∨ y1 < 0) by omega)]
  by_cases hx : x0 = x1
  · rw [if_pos hx, if_pos hx, drawFills_single]
  · rw [if_neg hx, if_neg hx]
    by_cases hy : y0 = y1
    · rw [if_pos hy, if_pos hy, drawFills_single]
    · rw [if_neg hy, if_neg hy]
      unfold bresenham
      by_cases hs : |x1 - x0| < |y1 - y0|
      · rw [if_pos hs, if_pos hs]; exact bresenhamSwap_eq hy hs.le s
      · rw [if_neg hs, if_neg hs]; exact bresenhamSwap_eq hx (by omega) s

/-! ### Circles -/

theorem span_eq (p : Panel) (cx row a : Int) (left right : Bool) (f : Half) (s : State) :
    span p cx row a left right f s = drawFills p (spanFills cx row a left right f) s := by
  cases left <;> cases right <;> simp only [span, spanFills, drawFills_single]
  rfl

theorem spans_eq (p : Panel) (cx cy x y : Int) (quads : Byte) (f : Half) (s : State) :
    spans p cx cy x y quads f s = drawFills p (stepSpans cx cy quads f (x, y)) s := by
  unfold spans stepSpans
  rw [List.append_assoc, List.append_assoc, drawFills_append, span_eq]
  refine Run.bind_congr fun t _ => ?_
  rw [drawFills_append, span_eq]
  refine Run.bind_congr fun u _ => ?_
  rw [drawFills_append, span_eq]
  exact Run.bind_congr fun v _ => span_eq ..

theorem plotSelected_eq (p : Panel) (quads : Byte) (c : Half) (pts : List (Quadrant × Int × Int)) :
    ∀ s, plotSelected p quads c pts s = drawFills p (pts.filterMap fun q =>
      if selects quads q.1 then some (Fill.pixel q.2.1 q.2.2 c) else none) s := by
  induction pts with
  | nil => intro s; rfl
  | cons q rest ih =>
    intro s
    obtain ⟨q, px, py⟩ := q
    rw [plotSelected]
    by_cases hs : selects quads q = true
    · rw [if_pos hs, plot_eq_rect]
      simp only [List.filterMap_cons, hs, if_true, drawFills]
      exact Run.bind_congr fun t _ => ih t
    · rw [if_neg hs]
      simp only [List.filterMap_cons, hs]
      exact ih s

/-- The outline points of a step are the selected ones of the eight (R93, R229). -/
theorem stepPixels_eq (cx cy x y : Int) (quads : Byte) (c : Half) :
    stepPixels cx cy quads c (x, y) = (symmetricPoints cx cy x y).filterMap fun q =>
      if selects quads q.1 then some (Fill.pixel q.2.1 q.2.2 c) else none := rfl

theorem circleStep_eq (p : Panel) (cx cy x y : Int) (c : Half) (quads : Byte) (fill : Bool) (f : Half) (s : State) :
    circleStep p cx cy x y c quads fill f s = drawFills p
      ((if fill then stepSpans cx cy quads f (x, y) else []) ++ stepPixels cx cy quads c (x, y)) s := by
  unfold circleStep
  cases fill
  · exact plotSelected_eq ..
  · rw [if_pos rfl, if_pos rfl, drawFills_append, spans_eq]
    exact Run.bind_congr fun t _ => plotSelected_eq ..

theorem circleLoop_eq (p : Panel) (cx cy : Int) (c : Half) (quads : Byte) (fill : Bool) (f : Half) (n : Nat) :
    ∀ x y err s, circleLoop p cx cy c quads fill f n x y err s =
      drawFills p ((octantSteps n x y err).flatMap fun xy =>
        (if fill then stepSpans cx cy quads f xy else []) ++ stepPixels cx cy quads c xy) s := by
  induction n with
  | zero => intro x y err s; rfl
  | succ n ih =>
    intro x y err s
    rw [octantSteps, circleLoop]
    by_cases hxy : x < y
    · rw [if_pos hxy, if_pos hxy]; rfl
    · rw [if_neg hxy, if_neg hxy, List.flatMap_cons, drawFills_append, circleStep_eq]
      refine Run.bind_congr fun t _ => ?_
      by_cases he : err < 0
      · rw [if_pos he, if_pos he]; exact ih ..
      · rw [if_neg he, if_neg he]; exact ih ..

/-- A circle request draws its fills (R228 to R233). -/
theorem checkedCircle_eq {cx cy r : Int} (h0 : 0 ≤ cx ∧ 0 ≤ cy ∧ 0 ≤ r) (p : Panel) (c : Half) (quads : Byte)
    (fill : Bool) (f : Half) (s : State) :
    checkedCircle p cx cy r c quads fill f s = drawFills p (circleFills cx cy r c quads fill f) s := by
  unfold checkedCircle
  rw [if_neg (by omega), if_neg (by omega)]
  exact circleLoop_eq ..

end Sys2Proof.Machine
end

