-- ==== Sys2Proof/Laws/Text.lean ====
section
/-! SUPPORT. The laws of TEXT: the glyph blitter draws exactly the fills of Safety.lean. -/

namespace Sys2Proof.Machine

/-- The fill of row `j` of column `i` of a glyph, where its bit is set (R263). -/
def rowFill (scale : Nat) (c : Half) (gx gy : Int) (i : Nat) (b : Byte) (j : Nat) : Option Fill :=
  if b.getLsbD j then some { x := gx + i * scale, y := gy + j * scale, w := scale, h := scale, color := c } else none

theorem columnFills_eq (scale : Nat) (c : Half) (gx gy : Int) (height i : Nat) (b : Byte) :
    columnFills scale c gx gy height i b = (List.range' 0 height).filterMap (rowFill scale c gx gy i b) := by
  rw [← List.range_eq_range']; rfl

theorem blitBit_eq_rect (p : Panel) (scale : Nat) (c : Half) (gx gy : Int) (i j : Nat) (s : State) :
    blitBit p scale c gx gy i j s = rect p (gx + i * scale) (gy + j * scale) scale scale c s := by
  unfold blitBit
  split
  · rename_i h; subst h; rw [plot_eq_rect]; simp
  · rfl

theorem blitRows_eq (p : Panel) (scale : Nat) (c : Half) (gx gy : Int) (i : Nat) (b : Byte) (n : Nat) :
    ∀ j s, blitRows p scale c gx gy i b n j s =
      drawFills p ((List.range' j n).filterMap (rowFill scale c gx gy i b)) s := by
  induction n with
  | zero => intro j s; rfl
  | succ n ih =>
    intro j s
    rw [List.range'_succ, List.filterMap_cons, blitRows]
    by_cases hb : b.getLsbD j = true
    · rw [if_pos hb, blitBit_eq_rect]
      simp only [rowFill, hb, if_true, drawFills]
      exact Run.bind_congr fun t _ => ih _ t
    · rw [if_neg hb]
      simp only [rowFill, hb]
      exact ih _ s

/-- The fills of column `i` of a glyph (R262, R263). -/
def colFills (font : Memory) (fn : Font) (scale : Nat) (c : Half) (gx gy : Int) (ch : Byte) (i : Nat) : List Fill :=
  match glyphByte font fn ch i with
  | some b => columnFills scale c gx gy fn.height i b
  | none => []

theorem glyphFills_eq (font : Memory) (fn : Font) (scale : Nat) (c : Half) (gx gy : Int) (ch : Byte) (n : Nat) :
    glyphFills font fn scale c gx gy ch n = (List.range' 0 n).flatMap (colFills font fn scale c gx gy ch) := by
  rw [← List.range_eq_range']; rfl

/-- The columns that can be read are drawn, and the blitter goes on after them. -/
theorem blitColumns_more (p : Panel) (fn : Font) (scale : Nat) (c : Half) (gx gy : Int) (ch : Byte) (font : Memory)
    (m n : Nat) : ∀ {i : Nat} {s : State}, s.font = font →
      (∀ k, i ≤ k → k < i + n → (glyphByte font fn ch k).isSome = true) →
      blitColumns p fn scale c gx gy ch (n + m) i s =
        (drawFills p ((List.range' i n).flatMap (colFills font fn scale c gx gy ch)) s >>=
          blitColumns p fn scale c gx gy ch m (i + n)) := by
  induction n with
  | zero => intro i s _ _; rw [Nat.zero_add]; rfl
  | succ n ih =>
    intro i s hf hr
    obtain ⟨b, hb⟩ := Option.isSome_iff_exists.1 (hr i (le_refl _) (by omega))
    have hb' : s.font.read (fn.columnAddress ch i) = some b := by rw [hf]; exact hb
    rw [List.range'_succ, List.flatMap_cons, drawFills_append, Nat.succ_add, blitColumns, hb', bind_assoc]
    simp only [colFills, hb, columnFills_eq, blitRows_eq]
    refine Run.bind_congr fun t ht => ?_
    rw [ih ((drawFills_keeps _ _ ht).trans hf) fun k h1 h2 => hr k (by omega) (by omega),
      show i + (n + 1) = i + 1 + n by omega]

/-- A glyph all of whose bytes can be read is drawn whole (R262, R263). -/
theorem glyph_eq {p : Panel} {fn : Font} {scale : Nat} {c : Half} {gx gy : Int} {ch : Byte} {font : Memory} {s : State}
    (hf : s.font = font) (hr : ∀ k < fn.width, (glyphByte font fn ch k).isSome = true) :
    glyph p fn scale c gx gy ch s = drawFills p (glyphFills font fn scale c gx gy ch fn.width) s := by
  have h := blitColumns_more p fn scale c gx gy ch font 0 fn.width (i := 0) hf fun k _ hk => hr k (by omega)
  rw [glyphFills_eq]
  refine h.trans ?_
  cases drawFills p ((List.range' 0 fn.width).flatMap (colFills font fn scale c gx gy ch)) s <;> rfl

/-- A glyph with a byte that cannot be read stops there; the columns before it are drawn (R262). -/
theorem glyph_stops {p : Panel} {fn : Font} {scale : Nat} {c : Half} {gx gy : Int} {ch : Byte} {font : Memory} {i : Nat}
    {s : State} (hf : s.font = font) (hi : i < fn.width) (hr : ∀ k < i, (glyphByte font fn ch k).isSome = true)
    (hn : glyphByte font fn ch i = none) :
    glyph p fn scale c gx gy ch s =
      (drawFills p (glyphFills font fn scale c gx gy ch i) s >>= raise .fontMemoryUnreadable) := by
  have h := blitColumns_more p fn scale c gx gy ch font (fn.width - i) i (i := 0) hf fun k _ hk => hr k (by omega)
  rw [show i + (fn.width - i) = fn.width by omega, ← glyphFills_eq, Nat.zero_add] at h
  refine h.trans (Run.bind_congr fun t ht => ?_)
  obtain ⟨m, hm⟩ : ∃ m, fn.width - i = m + 1 := ⟨fn.width - i - 1, by omega⟩
  have hn' : t.font.read (fn.columnAddress ch i) = none := by rw [drawFills_keeps _ _ ht, hf]; exact hn
  rw [hm, blitColumns, hn']

theorem covers_iff (fn : Font) (ch : Byte) : fn.covers ch = true ↔ fn.first ≤ ch.toNat ∧ ch.toNat ≤ fn.last :=
  decide_eq_true_iff

/-- The characters that can be read are drawn, and the text goes on after them (R261, R264, R265). -/
theorem textLoop_more (p : Panel) (fn : Font) (scale : Nat) (c : Half) (x : Int) (font : Memory) (more codes : List Byte) :
    ∀ {cursor : Int × Int} {s : State}, s.font = font → FontReadable font fn codes →
      textLoop p fn scale c x (codes ++ more) cursor s =
        (drawFills p (textFills p font fn scale c x codes cursor) s >>=
          textLoop p fn scale c x more (textCursor p fn scale x codes cursor)) := by
  induction codes with
  | nil => intro cursor s _ _; rfl
  | cons ch rest ih =>
    intro cursor s hf hr
    have hrest : FontReadable font fn rest := fun ch' h => hr ch' (List.mem_cons_of_mem _ h)
    rw [List.cons_append, textFills, textLoop, textCursor]
    by_cases hc : fn.first ≤ ch.toNat ∧ ch.toNat ≤ fn.last
    · rw [if_pos hc, if_pos hc, if_pos ((covers_iff fn ch).2 hc), textCursor, drawFills_append, bind_assoc]
      have hg := glyph_eq (p := p) (scale := scale) (c := c) (gx := (glyphOrigin p fn scale x cursor).1)
        (gy := (glyphOrigin p fn scale x cursor).2) hf (hr ch (List.mem_cons_self ..) hc.1 hc.2)
      refine (congrArg (· >>= _) hg).trans (Run.bind_congr fun t ht => ?_)
      rw [show textCursor p fn scale x (ch :: rest) cursor = _ from if_pos hc]
      exact ih ((drawFills_keeps _ _ ht).trans hf) hrest
    · rw [if_neg hc, if_neg hc, if_neg (fun h => hc ((covers_iff fn ch).1 h)), List.nil_append,
        show textCursor p fn scale x (ch :: rest) cursor = _ from if_neg hc]
      exact ih hf hrest

/-- TEXT draws its fills (R261 to R265). -/
theorem drawText_eq {p : Panel} {fn : Font} {scale : Nat} {x y : Int} {codes : List Byte} {s : State} (hx : 0 ≤ x)
    (hy : 0 ≤ y) (hs : 1 ≤ scale) (hv : fn.valid = true) (hr : FontReadable s.font fn codes) (c : Half) :
    drawText p x y c scale fn codes s = drawFills p (textFills p s.font fn scale c x codes (x, y)) s := by
  unfold drawText
  rw [if_neg (by omega), if_neg (by omega), if_neg (by simp [hv])]
  have h := textLoop_more p fn scale c x s.font [] codes (cursor := (x, y)) rfl hr
  rw [List.append_nil] at h
  rw [h]
  cases drawFills p (textFills p s.font fn scale c x codes (x, y)) s <;> rfl

/-- TEXT over a glyph byte that cannot be read draws what comes before it, and stops (R262). -/
theorem drawText_stops {p : Panel} {fn : Font} {scale : Nat} {x y : Int} {pre post : List Byte} {ch : Byte} {i : Nat}
    {s : State} (hx : 0 ≤ x) (hy : 0 ≤ y) (hs : 1 ≤ scale) (hv : fn.valid = true)
    (hc : fn.first ≤ ch.toNat ∧ ch.toNat ≤ fn.last) (hr : FontReadable s.font fn pre) (hi : i < fn.width)
    (hk : ∀ k < i, (glyphByte s.font fn ch k).isSome = true) (hn : glyphByte s.font fn ch i = none) (c : Half) :
    drawText p x y c scale fn (pre ++ ch :: post) s =
      (drawFills p (textFillsInto p s.font fn scale c x pre (x, y) ch i) s >>= raise .fontMemoryUnreadable) := by
  unfold drawText
  rw [if_neg (by omega), if_neg (by omega), if_neg (by simp [hv]), textLoop_more p fn scale c x s.font _ pre rfl hr,
    textFillsInto, drawFills_append, bind_assoc]
  refine Run.bind_congr fun t ht => ?_
  rw [textLoop, if_pos ((covers_iff fn ch).2 hc)]
  have hg := glyph_stops (p := p) (scale := scale) (c := c)
    (gx := (glyphOrigin p fn scale x (textCursor p fn scale x pre (x, y))).1)
    (gy := (glyphOrigin p fn scale x (textCursor p fn scale x pre (x, y))).2) (drawFills_keeps _ _ ht) hi hk hn
  refine (congrArg (· >>= _) hg).trans ?_
  rw [bind_assoc]
  rfl

end Sys2Proof.Machine
end

