-- ==== Sys2Proof/Laws/Lift.lean ====
section
/-! SUPPORT. What every transfer and every recorded fault keeps, every request and every wire frame keeps: the lifting of
a pair of relations (Laws/Ops.lean) to `exec`, one lemma for each operation. -/

namespace Sys2Proof.Machine

/-- What every rectangle drawn on the panel `p` keeps as well. -/
structure LiftsDraw (p : Panel) (F E : State → State → Prop) : Prop extends Composes F E where
  rect : ∀ x y w k c s, (rect p x y w k c s).Ends F E s

theorem Lifts.draw {F E : State → State → Prop} (h : Lifts F E) (p : Panel) : LiftsDraw p F E :=
  ⟨h.toComposes, fun _ _ _ _ _ _ => h.rect ..⟩

namespace LiftsDraw

variable {p : Panel} {F E : State → State → Prop}

theorem plot (h : LiftsDraw p F E) (x y : Int) (c : Half) (s : State) : (plot p x y c s).Ends F E s := by
  rw [plot_eq_rect]; exact h.rect ..

/-! ### Lines, circles, text -/

theorem bresenhamLoop (h : LiftsDraw p F E) (steep : Bool) (c : Half) (dx dy ystep : Int) (n : Nat) :
    ∀ x y err s, (bresenhamLoop p steep c dx dy ystep n x y err s).Ends F E s := by
  induction n with
  | zero => intro x y err s; exact h.ok s
  | succ n ih =>
    intro x y err s
    rw [Machine.bresenhamLoop]
    exact h.ite (h.bind (h.plot ..) fun t => h.ite (ih ..) (ih ..)) (h.bind (h.plot ..) fun t => h.ite (ih ..) (ih ..))

theorem drawLine (h : LiftsDraw p F E) (x0 y0 x1 y1 : Int) (c : Half) (s : State) :
    (drawLine p x0 y0 x1 y1 c s).Ends F E s := by
  unfold Machine.drawLine Machine.bresenham bresenhamSwap bresenhamOrdered
  exact h.ite (h.raise _ _) (h.ite (h.rect ..) (h.ite (h.rect ..)
    (h.ite (h.ite (h.bresenhamLoop ..) (h.bresenhamLoop ..)) (h.ite (h.bresenhamLoop ..) (h.bresenhamLoop ..)))))

theorem plotSelected (h : LiftsDraw p F E) (quads : Byte) (c : Half) (pts : List (Quadrant × Int × Int)) :
    ∀ s, (plotSelected p quads c pts s).Ends F E s := by
  induction pts with
  | nil => intro s; exact h.ok s
  | cons q rest ih =>
    intro s
    obtain ⟨q, px, py⟩ := q
    rw [Machine.plotSelected]
    exact h.ite (h.bind (h.plot ..) ih) (h.bind (h.ok s) ih)

theorem span (h : LiftsDraw p F E) (cx row a : Int) (left right : Bool) (f : Half) (s : State) :
    (span p cx row a left right f s).Ends F E s := by
  cases left <;> cases right <;> simp only [Machine.span]
  · exact h.ok s
  all_goals exact h.rect ..

theorem spans (h : LiftsDraw p F E) (cx cy x y : Int) (quads : Byte) (f : Half) (s : State) :
    (spans p cx cy x y quads f s).Ends F E s :=
  h.bind (h.span ..) fun _ => h.bind (h.span ..) fun _ => h.bind (h.span ..) fun _ => h.span ..

theorem circleStep (h : LiftsDraw p F E) (cx cy x y : Int) (c : Half) (quads : Byte) (fill : Bool) (f : Half)
    (s : State) : (circleStep p cx cy x y c quads fill f s).Ends F E s := by
  cases fill
  · exact h.plotSelected ..
  · exact h.bind (h.spans ..) fun t => h.plotSelected ..

theorem circleLoop (h : LiftsDraw p F E) (cx cy : Int) (c : Half) (quads : Byte) (fill : Bool) (f : Half)
    (n : Nat) : ∀ x y err s, (circleLoop p cx cy c quads fill f n x y err s).Ends F E s := by
  induction n with
  | zero => intro x y err s; exact h.ok s
  | succ n ih =>
    intro x y err s
    rw [Machine.circleLoop]
    exact h.ite (h.ok s) (h.bind (h.circleStep ..) fun t => h.ite (ih ..) (ih ..))

theorem checkedCircle (h : LiftsDraw p F E) (cx cy r : Int) (c : Half) (quads : Byte) (fill : Bool) (f : Half)
    (s : State) : (checkedCircle p cx cy r c quads fill f s).Ends F E s := by
  unfold Machine.checkedCircle
  exact h.ite (h.raise _ _) (h.ite (h.raise _ _) (h.circleLoop ..))

theorem blitRows (h : LiftsDraw p F E) (scale : Nat) (c : Half) (gx gy : Int) (i : Nat) (b : Byte) (n : Nat) :
    ∀ j s, (blitRows p scale c gx gy i b n j s).Ends F E s := by
  induction n with
  | zero => intro j s; exact h.ok s
  | succ n ih =>
    intro j s
    rw [Machine.blitRows]
    refine h.ite (h.bind ?_ fun t => ih ..) (h.bind (h.ok s) fun t => ih ..)
    rw [blitBit_eq_rect]; exact h.rect ..

theorem blitColumns (h : LiftsDraw p F E) (fn : Font) (scale : Nat) (c : Half) (gx gy : Int) (ch : Byte) (n : Nat) :
    ∀ i s, (blitColumns p fn scale c gx gy ch n i s).Ends F E s := by
  induction n with
  | zero => intro i s; exact h.ok s
  | succ n ih =>
    intro i s
    rw [Machine.blitColumns]
    split
    · exact h.raise ..
    · exact h.bind (h.blitRows ..) fun t => ih ..

theorem textLoop (h : LiftsDraw p F E) (fn : Font) (scale : Nat) (c : Half) (x : Int) (codes : List Byte) :
    ∀ cursor s, (textLoop p fn scale c x codes cursor s).Ends F E s := by
  induction codes with
  | nil => intro cursor s; exact h.ok s
  | cons ch rest ih =>
    intro cursor s
    rw [Machine.textLoop]
    exact h.ite (h.bind (h.blitColumns ..) fun t => ih ..) (ih ..)

theorem drawText (h : LiftsDraw p F E) (x y : Int) (c : Half) (scale : Nat) (fn : Font) (codes : List Byte)
    (s : State) : (drawText p x y c scale fn codes s).Ends F E s := by
  unfold Machine.drawText
  exact h.ite (h.raise _ _) (h.ite (h.raise _ _) (h.ite (h.raise _ _) (h.textLoop ..)))

end LiftsDraw

/-! ### Every instruction -/

/-- A run that is finished off by a last update: `F` before it, `D` after it. -/
theorem Run.Ends.finish {F D E : State → State → Prop} {s : State} {r : Run} (hr : r.Ends F E s) {g : State → State}
    (hg : ∀ t, r = .ok t → F s t → D s (g t)) : Run.Ends D E s (r >>= fun t => .ok (g t)) := by
  cases r with
  | error t => exact hr
  | ok t => exact hg t rfl hr

/-- What is kept while an instruction is under way (`F`), when it completes (`D`) and when a fault ends it (`E`). -/
structure LiftsExec (F D E : State → State → Prop) : Prop extends Lifts F E where
  answer : ∀ r {s t}, F s t → D s (t.answer r)
  power : ∀ on {s t}, F s t → t.life = .ready → D s ((t.setPower on).answer .unit)
  inverted : ∀ on {s t}, F s t → t.life = .ready → D s ((t.setInverted on).answer .unit)
  backlight : ∀ on s, s.blPresent = some true → D s (((drive .bl on s).setBacklight on).answer (.backlight true))
  pulse : ∀ s, s.life = .uninitialized → D s ((resetPulse s).answer .unit)

/-- Sending a frame does not change the lifecycle when it completes. -/
theorem send_life {dc : Level} {bytes : List Byte} {s t : State} (h : send dc bytes s = .ok t) : t.life = s.life := by
  by_cases hb : busOk s.par s.xfers = true
  · cases hf : (devFrame s.par dc bytes s.dev).fault with
    | none => rw [send_ok hb hf] at h; cases h; rfl
    | some f => rw [send_raised hb hf] at h; cases h
  · rw [send_fail (by simpa using hb)] at h; cases h

namespace LiftsExec

variable {F D E : State → State → Prop}

/-- After the gate a run continues in the same state, which is ready. -/
theorem gated (h : LiftsExec F D E) {k : State → Run} {s : State} (hk : s.life = .ready → (k s).Ends D E s) :
    Run.Ends D E s (readyGate s >>= k) := by
  unfold readyGate
  by_cases h1 : s.life = .failed
  · rw [if_pos h1]; exact h.fault _ _ (by decide)
  · rw [if_neg h1]
    by_cases h2 : s.life ≠ .ready
    · rw [if_pos h2]; exact h.fault _ _ (by decide)
    · rw [if_neg h2]; exact hk (by simpa using h2)

theorem panelled (h : LiftsExec F D E) {k : Panel → State → Run} {s : State} (hk : ∀ p, (k p s).Ends D E s) :
    Run.Ends D E s (Machine.withPanel k s) := by
  unfold Machine.withPanel
  refine h.gated fun _ => ?_
  split
  · exact hk _
  · exact h.fault _ _ (by decide)

theorem session (h : LiftsExec F D E) {k : Panel → State → Run} (s : State) (hk : ∀ p, (k p s).Ends F E s) :
    ∃ r, complete (Machine.withPanel (fun p s => do let s ← k p s; .ok (s.answer .unit)) s) = complete r ∧
      r.Ends D E s :=
  ⟨_, rfl, h.panelled fun p => (hk p).finish fun _ _ ht => h.answer _ ht⟩

/-- Every instruction ends in a next state that the relations tie to the state it started in. The WIRE instructions have no
last update, CREATE is one update, and INITIALIZE has a course of its own (`initialise_ends`), so these come as premises. -/
theorem exec (h : LiftsExec F D E) (i : Instr) (s : State)
    (frame : ∀ name : WireName, i = name.instr → (Machine.wireCommand name s).Ends D E s)
    (create : ∀ rm cm bl, i = .create rm cm bl → D s
      { s with
        life := .uninitialized, rm := some rm, cm := some cm, blPresent := some bl, W := none, H := none,
        orient := none, powerOn := none, inverted := none, blOn := none, ret := .unit })
    (init : ∀ w k o, i = .initialise w k o → ∃ r, execInitialise w k o s = complete r ∧ r.Ends D E s) :
    ∃ r, Machine.exec i s = complete r ∧ r.Ends D E s := by
  have wire : ∀ name : WireName, i = name.instr → ∃ r, complete (Machine.wireCommand name s) = complete r ∧ r.Ends D E s :=
    fun name hn => ⟨_, rfl, frame name hn⟩
  cases i with
  | create rm cm bl => exact ⟨.ok _, rfl, create rm cm bl rfl⟩
  | reset =>
    refine ⟨_, rfl, ?_⟩
    by_cases h1 : s.life = .failed
    · rw [if_pos h1]; exact h.fault _ _ (by decide)
    · rw [if_neg h1]
      by_cases h2 : s.life ≠ .uninitialized
      · rw [if_pos h2]; exact h.fault _ _ (by decide)
      · rw [if_neg h2]; exact h.pulse s (by simpa using h2)
  | initialise w k o => exact init w k o rfl
  | writeCommand code =>
    refine ⟨_, rfl, h.gated fun _ => ?_⟩
    split
    · exact h.fault _ _ (by decide)
    · exact (h.send _ _ _).finish fun _ _ ht => h.answer _ ht
  | writeData data => exact ⟨_, rfl, h.gated fun _ => (h.wdata _ _).finish fun _ _ ht => h.answer _ ht⟩
  | setAddressWindow x0 y0 x1 y1 =>
    refine ⟨_, rfl, h.panelled fun p => ?_⟩
    split
    · exact (h.window _ _ _ _ _ _).finish fun _ _ ht => h.answer _ ht
    · exact h.fault _ _ (by decide)
  | power on =>
    exact ⟨_, rfl, h.gated fun hr => (h.wcmd _ _).finish fun _ ho ht => h.power on ht ((send_life ho).trans hr)⟩
  | backlight on =>
    refine ⟨_, rfl, h.gated fun _ => ?_⟩
    split
    · exact h.fault _ _ (by decide)
    · exact h.answer _ (h.refl s)
    · rename_i hb; exact h.backlight on s hb
  | backlightQuery =>
    refine ⟨_, rfl, h.gated fun _ => ?_⟩
    split
    · exact h.fault _ _ (by decide)
    · exact h.answer _ (h.refl s)
    · split
      · exact h.fault _ _ (by decide)
      · exact h.answer _ (h.refl s)
  | invert on =>
    exact ⟨_, rfl, h.gated fun hr => (h.wcmd _ _).finish fun _ ho ht => h.inverted on ht ((send_life ho).trans hr)⟩
  | packColor r g b => exact ⟨.ok _, rfl, h.answer _ (h.refl s)⟩
  | setPixel x y c => exact h.session s fun p => (h.draw p).plot ..
  | fillRect x y w k c => exact h.session s fun p => (h.draw p).rect ..
  | hline x y len c => exact h.session s fun p => (h.draw p).rect ..
  | vline x y len c => exact h.session s fun p => (h.draw p).rect ..
  | line x0 y0 x1 y1 c => exact h.session s fun p => (h.draw p).drawLine ..
  | circle cx cy r c => exact h.session s fun p => (h.draw p).checkedCircle ..
  | circleFilled cx cy r c hasFill fc => exact h.session s fun p => (h.draw p).checkedCircle ..
  | circleSegment cx cy r c quads fill hasFill fc => exact h.session s fun p => (h.draw p).checkedCircle ..
  | text x y c scale fw fh fs fe fb codes => exact h.session s fun p => (h.draw p).drawText ..
  | swreset => exact wire .swreset rfl
  | slpout => exact wire .slpout rfl
  | noron => exact wire .noron rfl
  | invoff => exact wire .invoff rfl
  | invon => exact wire .invon rfl
  | dispoff => exact wire .dispoff rfl
  | dispon => exact wire .dispon rfl
  | caset => exact wire .caset rfl
  | raset => exact wire .raset rfl
  | ramwr => exact wire .ramwr rfl
  | madctl => exact wire .madctl rfl
  | colmod => exact wire .colmod rfl
  | frmctr1 => exact wire .frmctr1 rfl
  | frmctr2 => exact wire .frmctr2 rfl
  | frmctr3 => exact wire .frmctr3 rfl
  | invctr => exact wire .invctr rfl
  | pwctr1 => exact wire .pwctr1 rfl
  | pwctr2 => exact wire .pwctr2 rfl
  | pwctr3 => exact wire .pwctr3 rfl
  | pwctr4 => exact wire .pwctr4 rfl
  | pwctr5 => exact wire .pwctr5 rfl
  | vmctr1 => exact wire .vmctr1 rfl
  | gmctrp1 => exact wire .gmctrp1 rfl
  | gmctrn1 => exact wire .gmctrn1 rfl

/-- The same of an instruction known to have a next state. -/
theorem next (h : LiftsExec F D E) {i : Instr} {s t : State} (he : Machine.exec i s = .next t)
    (frame : ∀ name : WireName, i = name.instr → (Machine.wireCommand name s).Ends D E s)
    (create : ∀ rm cm bl, i = .create rm cm bl → D s
      { s with
        life := .uninitialized, rm := some rm, cm := some cm, blPresent := some bl, W := none, H := none,
        orient := none, powerOn := none, inverted := none, blOn := none, ret := .unit })
    (init : ∀ w k o, i = .initialise w k o → ∃ r, execInitialise w k o s = complete r ∧ r.Ends D E s) :
    ∃ r : Run, r.Ends D E s ∧ r.state = t := by
  obtain ⟨r, hr, hr2⟩ := h.exec i s frame create init
  rw [hr] at he
  exact ⟨r, hr2, Host.Outcome.next.inj he⟩

end LiftsExec

end Sys2Proof.Machine
end

