-- ==== Sys2Proof/Laws/Invariant.lean ====
section
/-! SUPPORT. The controller's invariant is kept by every byte, by a reset and by every transfer. -/

namespace Sys2Proof.Machine

variable {par : Params}

/-- The controller's invariant where a byte leaves it, faulting or not. -/
def DevRun.Inv (par : Params) : DevRun → Prop
  | .ok d => DevInv par d
  | .error fd => DevInv par fd.2

/-- Outside a memory write only frame memory and the configuration matter. -/
theorem DevInv.closed {d : Dev} (hg : d.gram.wf = true) (hc : Sparse.wf d.cfg = true) (hp : d.pend = none)
    (hr : d.ramwr = false)
    (hb : ∀ c r, Frame.get d.gram c r ≠ none →
      ∃ o : Fin 4, c < (gramLimitOf par.gramLimit o).cols ∧ r < (gramLimitOf par.gramLimit o).rows) : DevInv par d :=
  ⟨hg, hc, fun h => absurd hp h, fun h => absurd h (by simp [hr]), hb⟩

theorem devInv_forget (d : Dev) : DevInv par d.forget :=
  DevInv.closed rfl rfl rfl rfl (fun c r h => absurd (Frame.get_empty c r) h)

theorem devInv_powerUp : DevInv par Dev.powerUp :=
  DevInv.closed rfl rfl rfl rfl (fun c r h => absurd (Frame.get_empty c r) h)

theorem onLatch_inv {d : Dev} (h : DevInv par d) (hp : d.pend = none) (hr : d.ramwr = false) {b : Byte}
    (hcmd : d.cmd = some b) {name : WireName} (hn : par.cmd.code name = b) : (onLatch b d name).Inv par := by
  have hopq : (latchOpaque b d).Inv par := DevInv.closed h.gram (Sparse.set_wf _ _ h.cfg) hp hr h.bounds
  have hcl : ∀ d' : Dev, d'.gram = d.gram → d'.cfg = d.cfg → d'.pend = none → d'.ramwr = false → DevInv par d' :=
    fun d' h1 h2 h3 h4 => DevInv.closed (h1 ▸ h.gram) (h2 ▸ h.cfg) h3 h4 (h1 ▸ h.bounds)
  cases name <;> first
    | exact hopq
    | exact hcl _ rfl rfl hp hr
    | skip
  · exact DevInv.closed rfl rfl rfl rfl (fun c r h => absurd (Frame.get_empty c r) h)
  · show DevRun.Inv par (latchRamwr d)
    unfold latchRamwr
    split
    · split
      · exact h
      · rename_i colS colE rowS rowE h1 h2 h3 h4 h5
        refine ⟨h.gram, h.cfg, fun h => absurd rfl h, fun _ => ⟨by rw [← hn] at hcmd; exact hcmd, colS, colE, rowS, rowE,
          h1, h2, h3, h4, ?_⟩, h.bounds⟩
        simp only [not_or, not_lt] at h5
        exact ⟨le_refl _, h5.1, le_refl _, by simp; omega⟩
    · exact h

theorem onParam_inv {d : Dev} (h : DevInv par d) (hp : d.pend = none) (hr : d.ramwr = false) (b : Byte)
    (name : WireName) : (onParam b d name).Inv par := by
  have hcl : ∀ d' : Dev, d'.gram = d.gram → d'.cfg = d.cfg → d'.pend = none → d'.ramwr = false → DevInv par d' :=
    fun d' h1 h2 h3 h4 => DevInv.closed (h1 ▸ h.gram) (h2 ▸ h.cfg) h3 h4 (h1 ▸ h.bounds)
  have hopq : (paramOpaque b d).Inv par := DevInv.closed h.gram (Sparse.set_wf _ _ h.cfg) hp hr h.bounds
  have h1 : (paramNone d).Inv par := h
  have h2 : (paramCaset d).Inv par := by
    unfold paramCaset; split
    · exact hcl _ rfl rfl hp hr
    · split <;> exact h
  have h3 : (paramRaset d).Inv par := by
    unfold paramRaset; split
    · exact hcl _ rfl rfl hp hr
    · split <;> exact h
  have h4 : (paramMadctl d).Inv par := by
    unfold paramMadctl; split
    · exact hcl _ rfl rfl hp hr
    · split <;> exact h
  cases name <;> first | exact hopq | exact h1 | exact h2 | exact h3 | exact h4

theorem pixelWrite_inv {d : Dev} (h : DevInv par d) (v : Half) :
    (pixelWrite par v d).Inv par := by
  unfold pixelWrite
  split
  · rename_i colS colE rowE h1 h2 h3
    split
    · exact h
    · rename_i hrow
      split
      · exact h
      · rename_i lim hlim
        split
        · exact h
        · rename_i hin
          have hwf := Frame.write_wf h.gram d.ptrC d.ptrR v
          have hb : ∀ c r, Frame.get (d.gram.write d.ptrC d.ptrR v) c r ≠ none →
              ∃ o : Fin 4, c < (gramLimitOf par.gramLimit o).cols ∧ r < (gramLimitOf par.gramLimit o).rows := by
            intro c r hg
            rw [Frame.get_write h.gram] at hg
            by_cases hcr : c = d.ptrC ∧ r = d.ptrR
            · obtain ⟨o, ho⟩ : ∃ o, gramLimitOf par.gramLimit o = lim := by
                simp only [Dev.extent, Option.map_eq_some_iff] at hlim
                obtain ⟨o, _, ho⟩ := hlim; exact ⟨o, ho⟩
              exact ⟨o, by rw [ho, hcr.1]; omega, by rw [ho, hcr.2]; omega⟩
            · rw [if_neg hcr] at hg; exact h.bounds c r hg
          have hw : d.ramwr = true → _ := h.window
          show DevInv par (Dev.advance colS colE _)
          unfold Dev.advance
          split
          · rename_i hlt
            have hlt : d.ptrC < colE.toNat := hlt
            refine ⟨hwf, h.cfg, h.pend, fun hr => ?_, hb⟩
            obtain ⟨hc, s1, e1, s2, e2, g1, g2, g3, g4, g5⟩ := hw hr
            obtain rfl : e1 = colE := Option.some.inj (g2.symm.trans h2)
            exact ⟨hc, s1, e1, s2, e2, g1, g2, g3, g4, by
              show s1.toNat ≤ d.ptrC + 1 ∧ d.ptrC + 1 ≤ e1.toNat ∧ s2.toNat ≤ d.ptrR ∧ d.ptrR ≤ e2.toNat + 1
              omega⟩
          · refine ⟨hwf, h.cfg, h.pend, fun hr => ?_, hb⟩
            obtain ⟨hc, s1, e1, s2, e2, g1, g2, g3, g4, g5⟩ := hw hr
            obtain rfl : s1 = colS := Option.some.inj (g1.symm.trans h1)
            obtain rfl : e1 = colE := Option.some.inj (g2.symm.trans h2)
            obtain rfl : e2 = rowE := Option.some.inj (g4.symm.trans h3)
            exact ⟨hc, s1, e1, s2, e2, g1, g2, g3, g4, by simp; omega⟩
  · exact h

/-- Every byte keeps the controller's invariant, faulting or not (R170). -/
theorem devByte_inv {d : Dev} (h : DevInv par d) (dc : Level) (b : Byte) : (devByte par dc b d).Inv par := by
  unfold devByte
  cases dc
  · show DevRun.Inv par (devCommand par b d)
    unfold devCommand
    split
    · exact h
    · rename_i hp
      have hp : d.pend = none := by simpa using hp
      split
      · exact h
      · split
        · rename_i name hn
          exact onLatch_inv (d := d.latched b) (DevInv.closed h.gram h.cfg hp rfl h.bounds) hp rfl rfl (code_of_nameOf hn)
        · exact h
  · show DevRun.Inv par (devData par b d)
    unfold devData
    split
    · exact h
    · rename_i c hc
      split
      · rename_i hr
        unfold pixelByte
        split
        · exact ⟨h.gram, h.cfg, fun _ => hr, h.window, h.bounds⟩
        · exact pixelWrite_inv (d := { d with pend := none })
            ⟨h.gram, h.cfg, fun h => absurd rfl h, h.window, h.bounds⟩ _
      · rename_i hr
        have hr : d.ramwr = false := by simpa using hr
        have hp : d.pend = none := by
          by_contra hne
          rw [h.pend hne] at hr; cases hr
        have h' : DevInv par { d with params := d.params ++ [b] } := DevInv.closed h.gram h.cfg hp hr h.bounds
        simp only []
        split
        · exact onParam_inv h' hp hr _ _
        · exact h'

/-- So does every frame. -/
theorem devFrame_inv (dc : Level) (bytes : List Byte) : ∀ {d : Dev}, DevInv par d →
    DevInv par (devFrame par dc bytes d).dev := by
  induction bytes with
  | nil => intro d h; exact h
  | cons b bs ih =>
    intro d h
    have hb := devByte_inv h dc b
    rw [devFrame]
    split
    · rename_i d' hd; rw [hd] at hb; exact ih hb
    · rename_i f d' hd; rw [hd] at hb; exact hb

end Sys2Proof.Machine
end

