-- ==== Sys2Proof/Laws/BringUp.lean ====
section
/-! SUPPORT. The laws of INITIALIZE: what every transfer keeps the bring-up keeps; what the sequence does when every
transfer completes; and where it stops when one fails. -/

namespace Sys2Proof.Machine

/-! ### Lifting -/

/-- Where a transfer, or a run of them, ends: `F` if it completed, `G` if the bus failed, `E` if the controller faulted. -/
def Sending.Ends (F G E : State → State → Prop) (s : State) : Sending → Prop
  | .ok t => F s t
  | .fail t => G s t
  | .raised t => E s t

/-- Relations that a transfer and a settle event keep. -/
structure LiftsBringUp (F G E : State → State → Prop) : Prop where
  refl : ∀ s, F s s
  trans : ∀ {s t u}, F s t → F t u → F s u
  transG : ∀ {s t u}, F s t → G t u → G s u
  transE : ∀ {s t u}, F s t → E t u → E s u
  settle : ∀ k s, F s (settle k s)
  xfer : ∀ dc bytes s, (xfer dc bytes s).Ends F G E s

namespace LiftsBringUp

variable {F G E : State → State → Prop}

theorem mono (h : LiftsBringUp F G E) {s t : State} (hst : F s t) {r : Sending} (hr : r.Ends F G E t) :
    r.Ends F G E s := by
  cases r with
  | ok u => exact h.trans hst hr
  | fail u => exact h.transG hst hr
  | raised u => exact h.transE hst hr

theorem bringUpStep (h : LiftsBringUp F G E) (st : BringUpStep) (s : State) : (bringUpStep st s).Ends F G E s := by
  unfold Machine.bringUpStep
  have h1 := h.xfer false [s.par.cmd.code st.name] s
  generalize Machine.xfer false [s.par.cmd.code st.name] s = r1 at h1
  cases r1 with
  | fail u => exact h1
  | raised u => exact h1
  | ok t =>
    dsimp only
    have h2 : (sendParams st.params t).Ends F G E t := by
      unfold sendParams; split
      · exact h.refl t
      · exact h.xfer _ _ _
    have h2 := h.mono h1 h2
    generalize sendParams st.params t = r2 at h2
    cases r2 with
    | fail u => exact h2
    | raised u => exact h2
    | ok u =>
      refine h.trans h2 ?_
      unfold settleAfter; split
      · exact h.settle _ _
      · exact h.refl _

theorem bringUp (h : LiftsBringUp F G E) (steps : List BringUpStep) : ∀ s, (bringUp steps s).Ends F G E s := by
  induction steps with
  | nil => intro s; exact h.refl s
  | cons st rest ih =>
    intro s
    rw [Machine.bringUp]
    have h1 := h.bringUpStep st s
    generalize Machine.bringUpStep st s = r1 at h1
    cases r1 with
    | fail u => exact h1
    | raised u => exact h1
    | ok t => exact h.mono h1 (ih t)

end LiftsBringUp

/-- Everything INITIALIZE can end in (R135, R137, R280), from relations that its transfers keep. -/
theorem initialise_ends {F G E D E' : State → State → Prop} (h : LiftsBringUp F G E) (width height : Half)
    (orient : Byte) (s : State) (fault : ∀ f, f ≠ .busFailure → E' s (s.withFault f))
    (ok : ∀ o t, s.life = .uninitialized → sessionParameters width height orient s = some o →
      F (startBringUp width height o s) t →
      D s ((({ t with life := .ready } : State).setPower true |>.setInverted false).answer (.status true)))
    (fail : ∀ o t, s.life = .uninitialized → sessionParameters width height orient s = some o →
      G (startBringUp width height o s) t → D s (({ t with life := .failed } : State).answer (.status false)))
    (raised : ∀ o t, s.life = .uninitialized → sessionParameters width height orient s = some o →
      E (startBringUp width height o s) t → E' s t) :
    ∃ r, execInitialise width height orient s = complete r ∧ r.Ends D E' s := by
  refine ⟨_, rfl, ?_⟩
  by_cases h1 : s.life = .failed
  · rw [if_pos h1]; exact fault _ (by decide)
  rw [if_neg h1]
  by_cases h2 : s.life ≠ .uninitialized
  · rw [if_pos h2]; exact fault _ (by decide)
  rw [if_neg h2]
  have h2 : s.life = .uninitialized := by simpa using h2
  cases hp : sessionParameters width height orient s with
  | none => exact fault _ (by decide)
  | some o =>
    dsimp only
    have hb := h.bringUp (initSeq s.par.init o) (startBringUp width height o s)
    generalize bringUp (initSeq s.par.init o) (startBringUp width height o s) = r at hb
    cases r with
    | ok t => exact ok o t h2 hp hb
    | fail t => exact fail o t h2 hp hb
    | raised t => exact raised o t h2 hp hb

/-! ### One step -/

theorem Sparse.set_set {α : Type} (key : Nat) (u v : α) (m : Sparse α) :
    Sparse.set key v (Sparse.set key u m) = Sparse.set key v m := by
  induction m with
  | nil => simp [Sparse.set]
  | cons e rest ih =>
    obtain ⟨k, a⟩ := e
    simp only [Sparse.set]
    split
    · simp [Sparse.set]
    · split
      · simp [Sparse.set]
      · rename_i h1 h2; simp [Sparse.set, h1, h2, ih]

theorem onLatch_opaque {name : WireName} (h : isOpaque name = true) (b : Byte) (d : Dev) :
    onLatch b d name = latchOpaque b d := by cases name <;> first | rfl | cases h

theorem onParam_opaque {name : WireName} (h : isOpaque name = true) (b : Byte) (d : Dev) :
    onParam b d name = paramOpaque b d := by cases name <;> first | rfl | cases h

variable {par : Params}

/-- The parameters of an opaque command are kept as its configuration (R184). -/
theorem consumes_opaque (hc : CodesDistinct par.cmd) {name : WireName} (ho : isOpaque name = true) (xs : List Byte) :
    ∀ {d : Dev} {ps : List Byte} {m : Sparse (List Byte)}, d.cmd = some (par.cmd.code name) → d.ramwr = false →
      d.params = ps → d.cfg = Sparse.set (par.cmd.code name).toNat ps m →
      Consumes par true xs d
        { d with params := ps ++ xs, cfg := Sparse.set (par.cmd.code name).toNat (ps ++ xs) m } := by
  induction xs with
  | nil =>
    intro d ps m _ _ h3 h4
    rw [List.append_nil, ← h4, ← h3]; exact Consumes.nil true d
  | cons x xs ih =>
    intro d ps m h1 h2 h3 h4
    have hb := devByte_param hc h1 h2 x
    rw [onParam_opaque ho] at hb
    have hi := ih (ps := ps ++ [x]) (m := m)
      (d := { d with params := d.params ++ [x], cfg := Sparse.set (par.cmd.code name).toNat (d.params ++ [x]) d.cfg }) h1 h2
      (by rw [h3]) (by simp only [h3, h4, Sparse.set_set])
    simp only [List.append_assoc, List.singleton_append] at hi
    exact Consumes.cons hb hi

/-- Any four bytes are a RASET block (R106, R176). -/
theorem consumes_raset_bytes (hc : CodesDistinct par.cmd) {d : Dev} (hd : d.cmd = some par.cmd.raset)
    (hr : d.ramwr = false) (hp : d.params = []) {ps : List Byte} (hl : ps.length = 4) :
    Consumes par true ps d
      { d with params := ps, rowS := some (paramBound ps 0), rowE := some (paramBound ps 2) } := by
  match ps, hl with
  | [a, b, e, f], _ =>
    have h := consumes_raset hc hd hr hp (be16 a b) (be16 e f)
    simpa [boundBytes, paramBound] using h

/-- Any four bytes are a CASET block (R106, R175). -/
theorem consumes_caset_bytes (hc : CodesDistinct par.cmd) {d : Dev} (hd : d.cmd = some par.cmd.caset)
    (hr : d.ramwr = false) (hp : d.params = []) {ps : List Byte} (hl : ps.length = 4) :
    Consumes par true ps d
      { d with params := ps, colS := some (paramBound ps 0), colE := some (paramBound ps 2) } := by
  match ps, hl with
  | [a, b, e, f], _ =>
    have h := consumes_caset hc hd hr hp (be16 a b) (be16 e f)
    simpa [boundBytes, paramBound] using h

/-- What a bring-up step leaves the controller in (R172, R175, R176, R182 to R203). -/
def stepEffect (cmd : CmdTable) (d : Dev) (st : BringUpStep) : Dev :=
  let b := cmd.code st.name
  let d := d.latched b
  match st.name with
  | .swreset => { d.forget with cmd := some b, params := [] }
  | .slpout => { d with sleepOut := some true }
  | .noron => { d with normal := some true }
  | .invoff => { d with invOn := some false }
  | .invon => { d with invOn := some true }
  | .dispoff => { d with dispOn := some false }
  | .dispon => { d with dispOn := some true }
  | .caset => { d with params := st.params, colS := some (paramBound st.params 0), colE := some (paramBound st.params 2) }
  | .raset => { d with params := st.params, rowS := some (paramBound st.params 0), rowE := some (paramBound st.params 2) }
  | .madctl => { d with params := st.params, madctl := st.params.head? }
  | .ramwr => d
  | _ => { d with params := st.params, cfg := Sparse.set b.toNat st.params d.cfg }

/-- A step the controller takes without a fault: its parameters are as many as its command takes (R104, R136). -/
def stepOk (st : BringUpStep) : Prop :=
  match st.name with
  | .swreset | .slpout | .noron | .invoff | .invon | .dispoff | .dispon => st.params = []
  | .caset | .raset => st.params.length = 4
  | .madctl => st.params.length = 1
  | .ramwr => False
  | _ => True

theorem step_consumes (hc : CodesDistinct par.cmd) {d : Dev} (hd : d.Clean par.cmd) {st : BringUpStep}
    (hs : stepOk st) :
    ∃ d1, Consumes par false [par.cmd.code st.name] d d1 ∧
      ((st.params = [] ∧ stepEffect par.cmd d st = d1) ∨
        (st.params ≠ [] ∧ Consumes par true st.params d1 (stepEffect par.cmd d st))) ∧
      (stepEffect par.cmd d st).Clean par.cmd := by
  have hcmd := devByte_command hc hd st.name
  have hpend : (d.latched (par.cmd.code st.name)).pend = none := hd.1
  obtain ⟨k, name, ps⟩ := st
  simp only at hcmd hpend
  have hopq : isOpaque name = true →
      stepEffect par.cmd d ⟨k, name, ps⟩ = { d.latched (par.cmd.code name) with
        params := ps, cfg := Sparse.set (par.cmd.code name).toNat ps d.cfg } →
      ∃ d1, Consumes par false [par.cmd.code name] d d1 ∧
      ((ps = [] ∧ stepEffect par.cmd d ⟨k, name, ps⟩ = d1) ∨
        (ps ≠ [] ∧ Consumes par true ps d1 (stepEffect par.cmd d ⟨k, name, ps⟩))) ∧
      (stepEffect par.cmd d ⟨k, name, ps⟩).Clean par.cmd := by
    intro ho he
    rw [onLatch_opaque ho] at hcmd
    refine ⟨_, Consumes.single hcmd, ?_, ?_⟩
    · by_cases hps : ps = []
      · subst hps; exact .inl ⟨rfl, he⟩
      · refine .inr ⟨hps, ?_⟩
        rw [he]
        exact consumes_opaque hc ho ps (d := { d.latched (par.cmd.code name) with
          cfg := Sparse.set (par.cmd.code name).toNat [] d.cfg }) (ps := []) (m := d.cfg) rfl rfl rfl rfl
    · rw [he]
      refine ⟨hpend, ?_⟩
      have h1 : par.cmd.code name ≠ par.cmd.caset := fun h => by
        have := code_injective hc (m := name) (n := .caset) h; subst this; cases ho
      have h2 : par.cmd.code name ≠ par.cmd.raset := fun h => by
        have := code_injective hc (m := name) (n := .raset) h; subst this; cases ho
      simp [Dev.cutShort, Dev.latched, h1, h2]
  cases name
  case caset =>
    have hl : ps.length = 4 := hs
    refine ⟨_, Consumes.single hcmd, .inr ⟨fun h => absurd (h ▸ hl : ([] : List Byte).length = 4) (by decide), ?_⟩, Dev.clean_of hpend (.inr (by simp [stepEffect, hl]))⟩
    exact consumes_caset_bytes hc rfl rfl rfl hl
  case raset =>
    have hl : ps.length = 4 := hs
    refine ⟨_, Consumes.single hcmd, .inr ⟨fun h => absurd (h ▸ hl : ([] : List Byte).length = 4) (by decide), ?_⟩, Dev.clean_of hpend (.inr (by simp [stepEffect, hl]))⟩
    exact consumes_raset_bytes hc rfl rfl rfl hl
  case ramwr => exact absurd hs id
  case madctl =>
    have hl : ps.length = 1 := hs
    match ps, hl with
    | [x], _ =>
      refine ⟨_, Consumes.single hcmd, .inr ⟨by simp, Consumes.single ?_⟩, hpend, ?_⟩
      · exact (devByte_param (name := .madctl) hc rfl rfl x).trans (by simp [onParam, paramMadctl, Dev.latched, stepEffect])
      · have h1 : par.cmd.madctl ≠ par.cmd.caset := fun h => by
          have := code_injective hc (m := .madctl) (n := .caset) h; cases this
        have h2 : par.cmd.madctl ≠ par.cmd.raset := fun h => by
          have := code_injective hc (m := .madctl) (n := .raset) h; cases this
        simp [Dev.cutShort, Dev.latched, stepEffect, CmdTable.code, h1, h2]
  case swreset =>
    obtain rfl : ps = [] := hs
    exact ⟨_, Consumes.single hcmd, .inl ⟨rfl, rfl⟩, Dev.clean_of rfl (.inl rfl)⟩
  case slpout =>
    obtain rfl : ps = [] := hs
    exact ⟨_, Consumes.single hcmd, .inl ⟨rfl, rfl⟩, Dev.clean_of hpend (.inl rfl)⟩
  case noron =>
    obtain rfl : ps = [] := hs
    exact ⟨_, Consumes.single hcmd, .inl ⟨rfl, rfl⟩, Dev.clean_of hpend (.inl rfl)⟩
  case invoff =>
    obtain rfl : ps = [] := hs
    exact ⟨_, Consumes.single hcmd, .inl ⟨rfl, rfl⟩, Dev.clean_of hpend (.inl rfl)⟩
  case invon =>
    obtain rfl : ps = [] := hs
    exact ⟨_, Consumes.single hcmd, .inl ⟨rfl, rfl⟩, Dev.clean_of hpend (.inl rfl)⟩
  case dispoff =>
    obtain rfl : ps = [] := hs
    exact ⟨_, Consumes.single hcmd, .inl ⟨rfl, rfl⟩, Dev.clean_of hpend (.inl rfl)⟩
  case dispon =>
    obtain rfl : ps = [] := hs
    exact ⟨_, Consumes.single hcmd, .inl ⟨rfl, rfl⟩, Dev.clean_of hpend (.inl rfl)⟩
  all_goals exact hopq rfl rfl

/-! ### The whole sequence, every transfer completing -/

/-- How many transfers a step starts. -/
def stepTransfers (st : BringUpStep) : Nat := if st.params = [] then 1 else 2

/-- The levels after a step: DC at the level of its last frame, CS deasserted. -/
def stepLevels (l : Levels) (st : BringUpStep) : Levels :=
  { l with dc := some (decide (st.params ≠ [])), cs := some true }

/-- The state after a step whose transfers complete. -/
def afterStep (s : State) (st : BringUpStep) : State :=
  { s with
    xfers := s.xfers + stepTransfers st, lvl := stepLevels s.lvl st,
    trace := s.trace ++ bringUpStepEvents s.par st, dev := stepEffect s.par.cmd s.dev st }

theorem settleAfter_eq (k : Nat) (s : State) :
    settleAfter k s = { s with trace := s.trace ++ if (initDelayOf s.par k).isSome then [.settle k] else [] } := by
  unfold settleAfter; split <;> simp [settle, emit]

theorem bringUpStep_ok {s : State} {st : BringUpStep} (hc : CodesDistinct s.par.cmd) (hd : s.dev.Clean s.par.cmd)
    (hs : stepOk st) (hb : ∀ m, s.xfers ≤ m → m < s.xfers + stepTransfers st → busOk s.par m = true) :
    bringUpStep st s = .ok (afterStep s st) := by
  obtain ⟨d1, h1, h2, _⟩ := step_consumes hc hd hs
  obtain ⟨g1, g2⟩ := consumes_iff.1 h1
  have hx := xfer_ok (hb _ (le_refl _) (by unfold stepTransfers; split <;> omega)) g1
  unfold bringUpStep
  rw [hx, g2]
  dsimp only
  rcases h2 with ⟨hp, he⟩ | ⟨hp, hcons⟩
  · simp only [sendParams, hp, if_true, settleAfter_eq]
    simp [afterStep, afterFrame, stepTransfers, stepLevels, bringUpStepEvents, hp, he]
    congr
  · simp only [sendParams, hp, if_false]
    obtain ⟨k1, k2⟩ := consumes_iff.1 hcons
    rw [xfer_ok (s := afterFrame false [s.par.cmd.code st.name] d1 s)
      (hb (s.xfers + 1) (by omega) (by simp [stepTransfers, hp])) k1]
    dsimp only
    rw [settleAfter_eq]
    simp only [afterStep, afterFrame, stepTransfers, stepLevels, bringUpStepEvents, hp, if_false]
    simp only [k2]
    simp
    exact ⟨hp, by congr⟩

theorem bringUp_ok (steps : List BringUpStep) : ∀ {s : State}, CodesDistinct s.par.cmd → s.dev.Clean s.par.cmd →
    (∀ st ∈ steps, stepOk st) →
    (∀ m, s.xfers ≤ m → m < s.xfers + (steps.map stepTransfers).sum → busOk s.par m = true) →
    bringUp steps s = .ok (steps.foldl afterStep s) := by
  induction steps with
  | nil => intro s _ _ _ _; rfl
  | cons st rest ih =>
    intro s hc hd hs hb
    simp only [List.map_cons, List.sum_cons] at hb
    have h1 := hs st (List.mem_cons_self ..)
    obtain ⟨_, _, _, hcl⟩ := step_consumes hc hd h1
    rw [bringUp, bringUpStep_ok hc hd h1 (fun m a b => hb m a (by omega))]
    exact ih (s := afterStep s st) hc hcl (fun st h => hs st (List.mem_cons_of_mem _ h))
      (fun m a b => hb m (by simp only [afterStep] at a; omega) (by simp only [afterStep] at b; omega))

theorem foldl_afterStep (steps : List BringUpStep) : ∀ s : State, steps.foldl afterStep s =
    { s with
      xfers := s.xfers + (steps.map stepTransfers).sum, lvl := steps.foldl stepLevels s.lvl,
      trace := s.trace ++ steps.flatMap (bringUpStepEvents s.par), dev := steps.foldl (stepEffect s.par.cmd) s.dev } := by
  induction steps with
  | nil => intro s; simp
  | cons st rest ih =>
    intro s
    rw [List.foldl_cons, ih]
    simp [afterStep, Nat.add_assoc]

/-! ### The sequence, a transfer failing -/

/-- Where the bring-up stops when transfer `m` is the first that fails: at the chip-select assertion of its frame, none of
the frame's bytes sent (R131, R137). -/
structure StoppedAt (m : Nat) (events : List Event) (s t : State) : Prop where
  sent : ∃ es dc b more, events = es ++ .drive .dc dc :: .drive .cs false :: .byte dc b :: more ∧
    s.xfers + es.countP Event.startsTransfer = m ∧
    t = { s with
      xfers := m + 1, lvl := { s.lvl with dc := some dc, cs := none },
      trace := s.trace ++ es ++ [.drive .dc dc, .drive .cs false, .busFail], dev := t.dev }
  dev : t.dev.Unknown

theorem countP_frame (dc : Level) (bytes : List Byte) : (frameEvents dc bytes).countP Event.startsTransfer = 1 := by
  have : (bytes.map (Event.byte dc)).countP Event.startsTransfer = 0 := by
    induction bytes with
    | nil => rfl
    | cons b bs ih => simp [Event.startsTransfer]
  simp only [frameEvents, List.countP_append, this]; rfl

theorem countP_step (par : Params) (st : BringUpStep) :
    (bringUpStepEvents par st).countP Event.startsTransfer = stepTransfers st := by
  have hset : (if (initDelayOf par st.k).isSome = true then [Event.settle st.k] else []).countP Event.startsTransfer = 0 := by
    split <;> rfl
  simp only [bringUpStepEvents, List.countP_append, countP_frame, hset, stepTransfers]
  split
  · rfl
  · rw [countP_frame]

theorem bringUpStep_fail {s : State} {st : BringUpStep} (hc : CodesDistinct s.par.cmd) (hd : s.dev.Clean s.par.cmd)
    (hs : stepOk st) {m : Nat} (hm : s.xfers ≤ m) (hm2 : m < s.xfers + stepTransfers st)
    (hb : ∀ n, s.xfers ≤ n → n < m → busOk s.par n = true) (hf : busOk s.par m = false) :
    ∃ t, bringUpStep st s = .fail t ∧ StoppedAt m (bringUpStepEvents s.par st) s t := by
  unfold bringUpStep
  by_cases h0 : m = s.xfers
  · subst h0
    rw [xfer_fail hf]
    exact ⟨_, rfl, ⟨[], false, s.par.cmd.code st.name, _, by simp [bringUpStepEvents, frameEvents]; rfl, rfl,
      by simp [afterBusFail]⟩, forget_unknown _⟩
  · obtain ⟨d1, h1, h2, _⟩ := step_consumes hc hd hs
    obtain ⟨g1, g2⟩ := consumes_iff.1 h1
    rw [xfer_ok (hb _ (le_refl _) (by omega)) g1, g2]
    dsimp only
    obtain ⟨x, xs, hp⟩ : ∃ x xs, st.params = x :: xs := by
      cases hp : st.params with
      | nil => simp only [stepTransfers, hp, if_true] at hm2; omega
      | cons x xs => exact ⟨x, xs, rfl⟩
    have hp0 : st.params ≠ [] := by rw [hp]; exact List.cons_ne_nil _ _
    have hm3 : m = s.xfers + 1 := by simp only [stepTransfers, hp0, if_false] at hm2; omega
    subst hm3
    simp only [sendParams, hp0, if_false]
    rw [xfer_fail (s := afterFrame false [s.par.cmd.code st.name] d1 s) hf]
    refine ⟨_, rfl, ⟨frameEvents false [s.par.cmd.code st.name], true, x, _, by
      simp [bringUpStepEvents, frameEvents, hp]; rfl, by rw [countP_frame], ?_⟩, forget_unknown _⟩
    simp [afterBusFail, afterFrame]

theorem bringUp_fail (steps : List BringUpStep) : ∀ {s : State}, CodesDistinct s.par.cmd → s.dev.Clean s.par.cmd →
    (∀ st ∈ steps, stepOk st) → ∀ {m : Nat}, s.xfers ≤ m → m < s.xfers + (steps.map stepTransfers).sum →
    (∀ n, s.xfers ≤ n → n < m → busOk s.par n = true) → busOk s.par m = false →
    ∃ t, bringUp steps s = .fail t ∧ StoppedAt m (steps.flatMap (bringUpStepEvents s.par)) s t := by
  induction steps with
  | nil => intro s _ _ _ m hm hm2; simp at hm2; omega
  | cons st rest ih =>
    intro s hc hd hs m hm hm2 hb hf
    simp only [List.map_cons, List.sum_cons] at hm2
    have h1 := hs st (List.mem_cons_self ..)
    by_cases hin : m < s.xfers + stepTransfers st
    · obtain ⟨t, ht, ⟨es, dc, b, more, e1, e2, e3⟩, h4⟩ := bringUpStep_fail hc hd h1 hm hin hb hf
      exact ⟨t, by rw [bringUp, ht], ⟨es, dc, b, _, by rw [List.flatMap_cons, e1]; simp; rfl, e2, e3⟩, h4⟩
    · obtain ⟨_, _, _, hcl⟩ := step_consumes hc hd h1
      rw [bringUp, bringUpStep_ok hc hd h1 (fun n a b => hb n a (by omega))]
      obtain ⟨t, ht, ⟨es, dc, b, more, e1, e2, e3⟩, h4⟩ := ih (s := afterStep s st) hc hcl
        (fun st h => hs st (List.mem_cons_of_mem _ h)) (m := m) (by simp only [afterStep]; omega)
        (by simp only [afterStep]; omega) (fun n a b => hb n (by simp only [afterStep] at a; omega) b) hf
      refine ⟨t, ht, ⟨bringUpStepEvents s.par st ++ es, dc, b, more, ?_, ?_, ?_⟩, h4⟩
      · rw [List.flatMap_cons, List.append_assoc]; exact congrArg _ e1
      · rw [List.countP_append, countP_step]; simp only [afterStep] at e2; omega
      · refine e3.trans ?_; simp [afterStep, stepLevels]

end Sys2Proof.Machine
end

