-- ==== Sys2Proof/Laws/PerInstr.lean ====
section
/-! SUPPORT. Statements about every instruction as syntax, one lemma for each constructor. -/

namespace Sys2Proof.Laws.EncodedLength

/-- The encoding has the length that R94 gives the operation: the request's bytes, or the one byte of a command frame
(R103). -/
def Statement (i : Instr) : Prop :=
  match i.wireName with
  | some _ => i.length = 1
  | none => (encodeRequest i).length = i.length

theorem create (rowMargin colMargin : Half) (blPresent : Bool) : Statement (.create rowMargin colMargin blPresent) :=
  rfl

theorem reset : Statement .reset := rfl

theorem initialise (width height : Half) (orient : Byte) : Statement (.initialise width height orient) := rfl

theorem writeCommand (code : Byte) : Statement (.writeCommand code) := rfl

theorem writeData (data : List Byte) : Statement (.writeData data) := by
  simp [Statement, Instr.wireName, encodeRequest, Instr.length, putHalf]; omega

theorem setAddressWindow (x0 y0 x1 y1 : Word) : Statement (.setAddressWindow x0 y0 x1 y1) := rfl

theorem power (on : Bool) : Statement (.power on) := rfl

theorem backlight (on : Bool) : Statement (.backlight on) := rfl

theorem backlightQuery : Statement .backlightQuery := rfl

theorem invert (on : Bool) : Statement (.invert on) := rfl

theorem packColor (r g b : Byte) : Statement (.packColor r g b) := rfl

theorem setPixel (x y : Word) (color : Half) : Statement (.setPixel x y color) := rfl

theorem fillRect (x y w h : Word) (color : Half) : Statement (.fillRect x y w h color) := rfl

theorem hline (x y len : Word) (color : Half) : Statement (.hline x y len color) := rfl

theorem vline (x y len : Word) (color : Half) : Statement (.vline x y len color) := rfl

theorem line (x0 y0 x1 y1 : Word) (color : Half) : Statement (.line x0 y0 x1 y1 color) := rfl

theorem circle (cx cy r : Word) (color : Half) : Statement (.circle cx cy r color) := rfl

theorem circleFilled (cx cy r : Word) (color : Half) (hasFill : Bool) (fillColor : Half)
    : Statement (.circleFilled cx cy r color hasFill fillColor) :=
  rfl

theorem circleSegment (cx cy r : Word) (color : Half) (quads : Byte) (fill hasFill : Bool) (fillColor : Half)
    : Statement (.circleSegment cx cy r color quads fill hasFill fillColor) :=
  rfl

theorem text (x y : Word) (color : Half) (scale fontW fontH fontStart fontEnd : Byte) (fontBase : Word)
    (codes : List Byte) : Statement (.text x y color scale fontW fontH fontStart fontEnd fontBase codes) := by
  simp [Statement, Instr.wireName, encodeRequest, Instr.length, putHalf, putWord]; omega

theorem swreset : Statement .swreset := rfl

theorem slpout : Statement .slpout := rfl

theorem noron : Statement .noron := rfl

theorem invoff : Statement .invoff := rfl

theorem invon : Statement .invon := rfl

theorem dispoff : Statement .dispoff := rfl

theorem dispon : Statement .dispon := rfl

theorem caset : Statement .caset := rfl

theorem raset : Statement .raset := rfl

theorem ramwr : Statement .ramwr := rfl

theorem madctl : Statement .madctl := rfl

theorem colmod : Statement .colmod := rfl

theorem frmctr1 : Statement .frmctr1 := rfl

theorem frmctr2 : Statement .frmctr2 := rfl

theorem frmctr3 : Statement .frmctr3 := rfl

theorem invctr : Statement .invctr := rfl

theorem pwctr1 : Statement .pwctr1 := rfl

theorem pwctr2 : Statement .pwctr2 := rfl

theorem pwctr3 : Statement .pwctr3 := rfl

theorem pwctr4 : Statement .pwctr4 := rfl

theorem pwctr5 : Statement .pwctr5 := rfl

theorem vmctr1 : Statement .vmctr1 := rfl

theorem gmctrp1 : Statement .gmctrp1 := rfl

theorem gmctrn1 : Statement .gmctrn1 := rfl

end Sys2Proof.Laws.EncodedLength
end

