-- ==== Sys2Proof/Laws/Step.lean ====
section
/-! SUPPORT. The laws of the gate that most requests share, and of fetching the next message. -/

namespace Sys2Proof.Machine

/-! ### The gate (R146) -/

theorem readyGate_ready {s : State} (h : s.life = .ready) : readyGate s = .ok s := by simp [readyGate, h]

theorem readyGate_failed {s : State} (h : s.life = .failed) : readyGate s = .error (s.withFault .sessionUnusable) := by
  simp [readyGate, h, raise]

theorem readyGate_other {s : State} (h1 : s.life ≠ .failed) (h2 : s.life ≠ .ready) :
    readyGate s = .error (s.withFault .notReady) := by simp [readyGate, h1, h2, raise]

/-- Every request that needs a brought-up session passes the gate before anything else. -/
theorem exec_gated {i : Instr} (h : needsReady i = true) (s : State) : ∃ k, exec i s = complete (readyGate s >>= k) := by
  cases i <;> first | (cases h; done) | exact ⟨_, rfl⟩

/-- A wire instruction is its command frame (R103). -/
theorem exec_wire (name : WireName) (s : State) : exec name.instr s = complete (wireCommand name s) := by
  cases name <;> rfl

/-- A drawing request in a ready session whose work is stopped by a fault. -/
theorem session_error {p : Panel} {s t : State} {k : Panel → State → Run} (h1 : s.life = .ready) (h2 : s.panel = some p)
    (h : k p s = .error t) :
    complete (withPanel (fun p s => do let s ← k p s; .ok (s.answer .unit)) s) = .next t := by
  rw [withPanel_ready h1 h2, Run.bind_error h]; rfl

/-- A drawing request in a ready session whose work is done. -/
theorem session_ok {p : Panel} {s t : State} {k : Panel → State → Run} (h1 : s.life = .ready) (h2 : s.panel = some p)
    (h : k p s = .ok t) :
    complete (withPanel (fun p s => do let s ← k p s; .ok (s.answer .unit)) s) = .next (t.answer .unit) := by
  rw [withPanel_ready h1 h2, Run.bind_ok h]; rfl

/-! ### Fetching (R280, R94, R97) -/

/-- A message is taken only from a block with no fault, and only the queue changes. -/
theorem fetch_run {s s' : State} {i : Instr} (h : fetch s = .run i s') :
    s.faults = [] ∧ ∃ q, s' = { s with pending := q } := by
  unfold fetch at h
  split at h
  · cases h
  · rename_i hf
    refine ⟨by simpa using hf, ?_⟩
    repeat' split at h
    all_goals first | (cases h; done) | (cases h; exact ⟨_, rfl⟩)

theorem fetch_dataFrame {s s' : State} {bytes : List Byte} (h : fetch s = .dataFrame bytes s') :
    s.faults = [] ∧ ∃ q, s' = { s with pending := q } := by
  unfold fetch at h
  split at h
  · cases h
  · rename_i hf
    refine ⟨by simpa using hf, ?_⟩
    repeat' split at h
    all_goals first | (cases h; done) | (cases h; exact ⟨_, rfl⟩)

theorem fetch_illegal {s : State} (h : fetch s = .illegal) : s.faults = [] := by
  unfold fetch at h
  split at h
  · cases h
  · rename_i hf; simpa using hf

/-- Everything a step that has a next state can be. -/
theorem step_next {s t : State} (h : step s = .next t) : s.faults = [] ∧
    ((∃ i q, exec i { s with pending := q } = .next t) ∨
     (∃ bytes q, sendDataFrame bytes { s with pending := q } = .next t) ∨
     t = s.withFault .illegalRequest) := by
  unfold step at h
  split at h
  · rename_i i s' hf
    obtain ⟨h0, q, rfl⟩ := fetch_run hf
    exact ⟨h0, .inl ⟨i, q, h⟩⟩
  · rename_i bytes s' hf
    obtain ⟨h0, q, rfl⟩ := fetch_dataFrame hf
    exact ⟨h0, .inr (.inl ⟨bytes, q, h⟩)⟩
  · rename_i hf
    cases h
    exact ⟨fetch_illegal hf, .inr (.inr rfl)⟩
  · cases h
  · cases h

end Sys2Proof.Machine
end

