-- ==== Sys2Proof/Tests/Slice0.lean ====
section
/-! SUPPORT. Tests on words and vectors written out from spec/30_encoding.md and spec/95_test_vectors.md, and a witness for
the premises of every statement that has some. -/

namespace Sys2Proof.Tests

open Sys2Proof.Machine

/- One evaluation at a time: several at once take more memory than the check allows. -/
set_option Elab.async false

/-! ### WellFormed refuses an ill-formed term for each of its checks (R91, R93, R94) -/

theorem test_wf_refuses_long_data (data : List Byte) (h : data.length = 65536) : (Instr.writeData data).wf = false := by
  simp [Instr.wf, h]

theorem test_wf_refuses_long_text (codes : List Byte) (h : codes.length = 65536) :
    (Instr.text 0 0 0 1 3 5 0x41 0x42 0 codes).wf = false := by simp [Instr.wf, h]

theorem test_wf_refuses_quads : (Instr.circleSegment 0 0 0 0 0x10 false false 0).wf = false := by decide

theorem test_wf_takes_the_longest_data (data : List Byte) (h : data.length = 65535) : (Instr.writeData data).wf = true := by
  simp [Instr.wf, h]

/-! ### Decoding: one word written out for each instruction (R95, R96, R104) -/

theorem test_decode_create : decodeRequest [0x00, 0x00, 0x01, 0x00, 0x02, 0x01] = .instr (.create 1 2 true) [] := by decide

theorem test_decode_reset : decodeRequest [0x01] = .instr .reset [] := by decide

theorem test_decode_initialise :
    decodeRequest [0x02, 0x00, 0xA0, 0x00, 0x80, 0x03] = .instr (.initialise 160 128 3) [] := by decide

theorem test_decode_write_command : decodeRequest [0x03, 0x29] = .instr (.writeCommand 0x29) [] := by decide

theorem test_decode_write_data : decodeRequest [0x04, 0x00, 0x02, 0xF8, 0x00] = .instr (.writeData [0xF8, 0x00]) [] := by
  decide

theorem test_decode_set_address_window :
    decodeRequest [0x05, 0, 0, 0, 3, 0, 0, 0, 4, 0, 0, 0, 7, 0, 0, 1, 2] = .instr (.setAddressWindow 3 4 7 258) [] := by
  decide

theorem test_decode_power : decodeRequest [0x06, 0x01] = .instr (.power true) [] := by decide

theorem test_decode_backlight : decodeRequest [0x07, 0x00] = .instr (.backlight false) [] := by decide

theorem test_decode_backlight_query : decodeRequest [0x08] = .instr .backlightQuery [] := by decide

theorem test_decode_invert : decodeRequest [0x09, 0x01] = .instr (.invert true) [] := by decide

theorem test_decode_pack_color : decodeRequest [0x0A, 0x12, 0x34, 0x56] = .instr (.packColor 0x12 0x34 0x56) [] := by
  decide

theorem test_decode_set_pixel :
    decodeRequest [0x10, 0xFF, 0xFF, 0xFF, 0xFF, 0, 0, 0, 0, 0x12, 0x34] = .instr (.setPixel (-1) 0 0x1234) [] := by
  decide

theorem test_decode_fill_rect :
    decodeRequest [0x11, 0, 0, 0, 3, 0, 0, 0, 1, 0, 0, 0, 10, 0, 0, 0, 11, 0x12, 0x34] =
      .instr (.fillRect 3 1 10 11 0x1234) [] := by decide

theorem test_decode_hline :
    decodeRequest [0x12, 0, 0, 0, 6, 0, 0, 0, 0, 0, 0, 0, 5, 0x00, 0x1F] = .instr (.hline 6 0 5 0x001F) [] := by decide

theorem test_decode_vline :
    decodeRequest [0x13, 0, 0, 0, 2, 0, 0, 0, 1, 0, 0, 0, 3, 0x07, 0xE0] = .instr (.vline 2 1 3 0x07E0) [] := by decide

theorem test_decode_line :
    decodeRequest [0x14, 0, 0, 0, 3, 0, 0, 0, 6, 0, 0, 0, 1, 0, 0, 0, 2, 0xF8, 0x00] = .instr (.line 3 6 1 2 0xF800) [] := by
  decide

theorem test_decode_circle :
    decodeRequest [0x15, 0, 0, 0, 5, 0, 0, 0, 6, 0, 0, 0, 1, 0xAA, 0xAB] = .instr (.circle 5 6 1 0xAAAB) [] := by decide

theorem test_decode_circle_filled :
    decodeRequest [0x16, 0, 0, 0, 5, 0, 0, 0, 6, 0, 0, 0, 1, 0xAA, 0xAB, 0x01, 0xBB, 0xBC] =
      .instr (.circleFilled 5 6 1 0xAAAB true 0xBBBC) [] := by decide

theorem test_decode_circle_segment :
    decodeRequest [0x17, 0, 0, 0, 10, 0, 0, 0, 11, 0, 0, 0, 2, 0x00, 0x1F, 0x09, 0x01, 0x00, 0x12, 0x34] =
      .instr (.circleSegment 10 11 2 0x001F 0x09 true false 0x1234) [] := by decide

theorem test_decode_text :
    decodeRequest [0x18, 0, 0, 0, 0, 0, 0, 0, 9, 0x00, 0x1F, 0x02, 0x03, 0x05, 0x41, 0x42, 0, 0, 1, 0, 0x00, 0x02, 0x41,
      0x5A] = .instr (.text 0 9 0x001F 2 3 5 0x41 0x42 0x100 [0x41, 0x5A]) [] := by decide

/-- The default codes of R104, in its order. -/
theorem test_decode_wire :
    ([0x01, 0x11, 0x13, 0x20, 0x21, 0x28, 0x29, 0x2A, 0x2B, 0x2C, 0x36, 0x3A] ++
      [0xB1, 0xB2, 0xB3, 0xB4, 0xC0, 0xC1, 0xC2, 0xC3, 0xC4, 0xC5, 0xE0, 0xE1]).map
      (fun b => decode CmdTable.default (.command b)) =
    (([.swreset, .slpout, .noron, .invoff, .invon, .dispoff, .dispon, .caset, .raset, .ramwr, .madctl, .colmod] ++
      [.frmctr1, .frmctr2, .frmctr3, .invctr, .pwctr1, .pwctr2, .pwctr3, .pwctr4, .pwctr5, .vmctr1, .gmctrp1,
        .gmctrn1] : List Instr)).map (fun i => Decoded.instr i []) := by decide

/-- The refusals of V-ENC (95_test_vectors.md), and R204. -/
theorem test_decode_refuses :
    decodeRequest [0x10, 0, 0, 0, 3] = .incomplete ∧ decodeRequest [0x04, 0, 3, 0xAA, 0xBB] = .incomplete ∧
    decodeRequest [] = .incomplete ∧ decodeRequest [0x0B] = .illegal ∧ decodeRequest [0xFF, 1, 2] = .illegal ∧
    decodeRequest [0x06, 0x02] = .illegal ∧ decodeRequest [0, 0, 0, 0, 0, 2] = .illegal ∧
    decodeRequest [0x17, 0, 0, 0, 10, 0, 0, 0, 10, 0, 0, 0, 2, 0x00, 0x1F, 0x10, 0, 0, 0, 0] = .illegal ∧
    decode CmdTable.default (.command 0x00) = .unassigned := by decide

/-- Table words are read lowest byte first (log 3). -/
theorem test_decode_table_word :
    decodeTableWord 8 0x01 = some .reset ∧ decodeTableWord 8 0x11 = some .slpout ∧
    decodeTableWord 24 0x010004 = some (.writeData [0]) ∧
    decodeTableWord 32 0x5634120A = some (.packColor 0x12 0x34 0x56) := by decide

/-! ### A small machine -/

/-- Concrete parameters of a run: default codes, one-byte opaque parameters, a large frame memory, a reliable bus. -/
def par : Params where
  cmd := CmdTable.default
  init := ⟨[1], [2], [3], [4], [5], [6], [7], [8], [], [10], [11], [0, 0, 0, 3], [0, 0, 0, 1], [14], [15]⟩
  initDelay := [some 150, none]
  resetHold := ⟨500, 500, 500⟩
  gramLimit := ⟨⟨300, 300⟩, ⟨300, 300⟩, ⟨300, 300⟩, ⟨300, 300⟩⟩
  clip := .silent
  spi := ⟨.msbFirst, 0, 1⟩
  busFails := []

/-- The font memory of V-TXT (95_test_vectors.md). -/
def font : Memory := [(0x100, 0x1E), (0x101, 0x05), (0x102, 0x1E), (0x103, 0x1F), (0x104, 0x15), (0x105, 0x0A)]

/-- The controller of a brought-up session: orientation 0, nothing drawn. -/
def dev : Dev :=
  { Dev.powerUp with
    cmd := some 0x29, sleepOut := some true, dispOn := some true, invOn := some false, normal := some true,
    madctl := some 0x00 }

/-- Ready(w, h, 0, 0) over a wired backlight. -/
def ready (w h : Nat) : State :=
  { State.powerUp par font with
    life := .ready, rm := some 0, cm := some 0, blPresent := some true, W := some w, H := some h, orient := some 0,
    powerOn := some true, inverted := some false, dev := dev, lvl := ⟨some false, some true, some true, none⟩ }

/-- A command frame (R18). -/
def frameC (b : Byte) : List Event := [.drive .dc false, .drive .cs false, .byte false b, .drive .cs true]

/-- A data frame (R18). -/
def frameD (bs : List Byte) : List Event :=
  [.drive .dc true, .drive .cs false] ++ bs.map (Event.byte true) ++ [.drive .cs true]

/-- A window of small bounds and the data of a pixel stream (R18). -/
def frameWin (c0 r0 c1 r1 : Byte) (bs : List Byte) : List Event :=
  frameC 0x2B ++ frameD [0, r0, 0, r1] ++ frameC 0x2A ++ frameD [0, c0, 0, c1] ++ frameC 0x2C ++ frameD bs

/-- The step that takes this request has a next state, and it is like this. -/
def steps (s : State) (bytes : List Byte) (like : State → Bool) : Bool :=
  match step (s.withMessage (.request bytes)) with
  | .next t => like t
  | .fault _ => false
  | .refused _ => false

/-- The windows of the plots that a trace holds, in order: each as its first column and row. -/
def plots : List Event → List (Byte × Byte)
  | .byte true _ :: .byte true r :: .byte true _ :: .byte true _ :: .drive .cs true :: .drive .dc false ::
    .drive .cs false :: .byte false 0x2A :: .drive .cs true :: .drive .dc true :: .drive .cs false ::
    .byte true _ :: .byte true c :: es => (c, r) :: plots es
  | _ :: es => plots es
  | [] => []

/-! ### One step each (95_test_vectors.md) -/

theorem test_create : steps (ready 4 2) [0, 0, 1, 0, 2, 1] (fun t =>
    t.life == .uninitialized && t.rm == some 1 && t.cm == some 2 && t.W == none && t.dev == dev && t.trace == []) = true := by
  decide +kernel

theorem test_reset : steps (State.powerUp par font) [1] (fun t =>
    t.trace == [.drive .rst true, .hold 0, .drive .rst false, .hold 1, .drive .rst true, .hold 2] &&
    t.lvl.rst == some true && t.life == .uninitialized && t.ret == .unit) = true := by decide +kernel

theorem test_reset_not_allowed : steps (ready 4 2) [1] (fun t => t.faults == [.resetNotAllowed] && t.trace == []) = true := by
  decide +kernel

/-- After CREATE 0, 0, 0. -/
def created : State :=
  { State.powerUp par font with rm := some 0, cm := some 0, blPresent := some false }

/-- P1: INITIALIZE 4, 2, 3; `N_I` is 21 + 1 + 14 here (one list of INIT_PARAMS is empty). -/
theorem test_initialise : steps created [0x02, 0, 4, 0, 2, 3] (fun t =>
    t.life == .ready && t.W == some 4 && t.H == some 2 && t.orient == some 3 && t.ret == .status true &&
    t.powerOn == some true && t.inverted == some false && t.xfers == 36 && t.faults == [] &&
    t.dev.madctl == some 0xA0 && t.dev.sleepOut == some true && t.dev.dispOn == some true &&
    t.trace.take 11 == [.drive .rst true, .hold 0, .drive .rst false, .hold 1, .drive .rst true, .hold 2] ++ frameC 0x01 ++
      [.settle 1]) = true := by decide +kernel

/-- V-LIFE: the first transfer of the bring-up fails. -/
theorem test_initialise_bus_failure :
    steps { created with par := { par with busFails := [0] } } [0x02, 0, 160, 0, 128, 1] (fun t =>
      t.life == .failed && t.ret == .status false && t.faults == [] && t.xfers == 1 && t.lvl.cs == none &&
      t.W == some 160 && t.trace.drop 6 == [.drive .dc false, .drive .cs false, .busFail]) = true := by decide +kernel

theorem test_write_command : steps (ready 160 128) [0x03, 0x28] (fun t =>
    t.trace == frameC 0x28 && t.dev.dispOn == some false && t.powerOn == some true && t.xfers == 1) = true := by decide +kernel

theorem test_write_command_unknown : steps (ready 160 128) [0x03, 0x00] (fun t =>
    t.faults == [.unknownWireCommand] && t.trace == []) = true := by decide +kernel

/-- The controller with a memory write open over the window, the pointer at `(c, r)`. -/
def writing (c0 r0 c1 r1 : Half) (c r : Nat) : Dev :=
  { dev with
    cmd := some 0x2C, ramwr := true, colS := some c0, colE := some c1, rowS := some r0, rowE := some r1, ptrC := c,
    ptrR := r }

/-- V-DEV 1: the window is columns 2..3, rows 1..2, and the memory write is open. -/
theorem test_write_data :
    steps { ready 160 128 with dev := writing 2 1 3 2 2 1 } [0x04, 0, 8, 0, 1, 0, 2, 0, 3, 0, 4] (fun t =>
      t.dev.gram == [(1, [(2, 1), (3, 2)]), (2, [(2, 3), (3, 4)])] && t.dev.ptrC == 2 && t.dev.ptrR == 3) = true := by decide +kernel

/-- V-ENG: a full window overruns at the second byte, chip-select stays asserted. -/
theorem test_write_data_overrun :
    steps { ready 160 128 with dev := writing 5 5 5 5 5 6 } [0x04, 0, 2, 0x07, 0xE0] (fun t =>
      t.faults == [.windowOverrun] && t.lvl.cs == some false &&
      t.trace == [.drive .dc true, .drive .cs false, .byte true 0x07, .byte true 0xE0]) = true := by decide +kernel

theorem test_set_address_window :
    steps { ready 160 128 with rm := some 1, cm := some 2 } [0x05, 0, 0, 0, 3, 0, 0, 0, 4, 0, 0, 0, 3, 0, 0, 0, 4]
      (fun t => t.trace ++ frameD [] == frameWin 5 5 5 5 [] && t.dev.ptrC == 5 && t.dev.ptrR == 5 && t.dev.ramwr) = true := by
  decide +kernel

theorem test_set_address_window_invalid :
    steps (ready 160 128) [0x05, 0, 0, 0, 0, 0, 0, 0, 0, 0, 0, 0, 160, 0, 0, 0, 0]
      (fun t => t.faults == [.invalidWindow] && t.trace == []) = true := by decide +kernel

theorem test_power : steps (ready 8 4) [0x06, 0] (fun t =>
    t.trace == frameC 0x28 && t.powerOn == some false && t.dev.dispOn == some false) = true := by decide +kernel

/-- V-FLT: a CASET block cut short. -/
theorem test_power_incomplete :
    steps { ready 8 4 with dev := { dev with cmd := some 0x2A, params := [0] } } [0x06, 1] (fun t =>
      t.faults == [.incompleteParameters] && t.powerOn == some true) = true := by decide +kernel

theorem test_backlight : steps (ready 8 4) [0x07, 1] (fun t =>
    t.trace == [.drive .bl true] && t.blOn == some true && t.lvl.bl == some true && t.ret == .backlight true) = true := by
  decide +kernel

theorem test_backlight_query : steps { ready 8 4 with blOn := some true } [0x08] (fun t =>
    t.ret == .backlightState .on && t.trace == []) = true := by decide +kernel

theorem test_backlight_query_unknown : steps (ready 8 4) [0x08] (fun t => t.faults == [.backlightUnknown]) = true := by
  decide +kernel

theorem test_invert : steps (ready 8 4) [0x09, 1] (fun t =>
    t.trace == frameC 0x21 && t.inverted == some true && t.dev.invOn == some true) = true := by decide +kernel

theorem test_pack_color : steps (ready 8 4) [0x0A, 0x12, 0x34, 0x56] (fun t => t.ret == .color 0x11AA) = true := by decide +kernel

theorem test_set_pixel : steps (ready 8 4) [0x10, 0, 0, 0, 3, 0, 0, 0, 2, 0xF8, 0x00] (fun t =>
    t.trace == frameWin 3 2 3 2 [0xF8, 0x00] && t.dev.gram == [(2, [(3, 0xF800)])]) = true := by decide +kernel

/-- V-FLT: a pixel's high byte is pending. -/
theorem test_set_pixel_partial :
    steps { ready 8 4 with dev := { dev with cmd := some 0x2C, ramwr := true, pend := some 0xF8 } }
      [0x10, 0, 0, 0, 0, 0, 0, 0, 0, 0, 1] (fun t => t.faults == [.partialPixel] && t.lvl.cs == some false) = true := by
  decide +kernel

theorem test_fill_rect : steps (ready 8 4) [0x11, 0, 0, 0, 6, 0, 0, 0, 2, 0, 0, 0, 5, 0, 0, 0, 5, 0x11, 0x12] (fun t =>
    t.trace == frameWin 6 2 7 3 [0x11, 0x12, 0x11, 0x12, 0x11, 0x12, 0x11, 0x12]) = true := by decide +kernel

theorem test_fill_rect_trimmed_fault :
    steps { ready 8 4 with par := { par with clip := .fault } }
      [0x11, 0, 0, 0, 6, 0, 0, 0, 2, 0, 0, 0, 5, 0, 0, 0, 5, 0x11, 0x12] (fun t =>
      t.faults == [.outOfRange] && t.trace == []) = true := by decide +kernel

theorem test_hline : steps (ready 8 4) [0x12, 0, 0, 0, 6, 0, 0, 0, 0, 0, 0, 0, 5, 0x00, 0x1F] (fun t =>
    t.trace == frameWin 6 0 7 0 [0x00, 0x1F, 0x00, 0x1F]) = true := by decide +kernel

theorem test_vline : steps (ready 8 4) [0x13, 0, 0, 0, 2, 0, 0, 0, 1, 0, 0, 0, 9, 0x07, 0xE0] (fun t =>
    t.trace == frameWin 2 1 2 3 [0x07, 0xE0, 0x07, 0xE0, 0x07, 0xE0]) = true := by decide +kernel

theorem test_line : steps (ready 32 32) [0x14, 0, 0, 0, 7, 0, 0, 0, 0, 0, 0, 0, 0, 0, 0, 0, 2, 0, 1] (fun t =>
    plots t.trace == [(0, 2), (1, 2), (2, 1), (3, 1), (4, 1), (5, 1), (6, 0), (7, 0)]) = true := by decide +kernel

theorem test_line_steep : steps (ready 32 32) [0x14, 0, 0, 0, 3, 0, 0, 0, 6, 0, 0, 0, 1, 0, 0, 0, 1, 0, 1] (fun t =>
    plots t.trace == [(1, 1), (1, 2), (2, 3), (2, 4), (3, 5), (3, 6)]) = true := by decide +kernel

theorem test_circle : steps (ready 32 32) [0x15, 0, 0, 0, 5, 0, 0, 0, 6, 0, 0, 0, 1, 0, 1] (fun t =>
    plots t.trace == [(6, 6), (4, 6), (6, 6), (4, 6), (5, 7), (5, 7), (5, 5), (5, 5)]) = true := by decide +kernel

theorem test_circle_partly_drawn : steps (ready 32 32) [0x15, 0, 0, 0, 1, 0, 0, 0, 1, 0, 0, 0, 2, 0xAA, 0xAA] (fun t =>
    t.faults == [.negativeCoordinate] && t.dev.gram == [(1, [(3, 0xAAAA)])] && t.lvl.cs == some true) = true := by decide +kernel

theorem test_circle_filled :
    steps (ready 32 32) [0x16, 0, 0, 0, 5, 0, 0, 0, 5, 0, 0, 0, 1, 0xAA, 0xAA, 1, 0xBB, 0xBB] (fun t =>
      t.dev.gram == [(4, [(5, 0xAAAA)]), (5, [(4, 0xAAAA), (5, 0xBBBB), (6, 0xAAAA)]), (6, [(5, 0xAAAA)])]) = true := by
  decide +kernel

theorem test_circle_segment :
    steps (ready 32 32) [0x17, 0, 0, 0, 10, 0, 0, 0, 10, 0, 0, 0, 2, 0, 0x1F, 0x01, 0, 0, 0, 0] (fun t =>
      plots t.trace == [(8, 10), (10, 8), (8, 9), (9, 8)]) = true := by decide +kernel

theorem test_circle_segment_filled :
    steps (ready 32 32) [0x17, 0, 0, 0, 5, 0, 0, 0, 5, 0, 0, 0, 1, 0xAA, 0xAA, 0x08, 1, 1, 0xBB, 0xBB] (fun t =>
      t.dev.gram == [(5, [(5, 0xBBBB), (6, 0xAAAA)]), (6, [(5, 0xAAAA)])]) = true := by decide +kernel

theorem test_text :
    steps (ready 5 16) [0x18, 0, 0, 0, 3, 0, 0, 0, 0, 0, 1, 1, 3, 5, 0x41, 0x42, 0, 0, 1, 0, 0, 1, 0x42] (fun t =>
      plots t.trace == [(3, 6), (3, 7), (3, 8), (3, 9), (3, 10), (4, 6), (4, 8), (4, 10)]) = true := by decide +kernel

theorem test_text_unreadable :
    steps (ready 8 16) [0x18, 0, 0, 0, 0, 0, 0, 0, 0, 0, 1, 1, 3, 5, 0x41, 0x43, 0, 0, 1, 0, 0, 1, 0x43] (fun t =>
      t.faults == [.fontMemoryUnreadable] && t.trace == []) = true := by decide +kernel

/-- The step that takes this command frame. -/
def latches (s : State) (b : Byte) (like : State → Bool) : Bool :=
  match step (s.withMessage (.command b)) with
  | .next t => t.trace == frameC b && t.dev.cmd == some b && t.dev.params == [] && like t
  | .fault _ => false
  | .refused _ => false

theorem test_mode_commands :
    latches (ready 8 4) 0x01 (fun t => t.dev == { Dev.powerUp with cmd := some 0x01 }) = true ∧
    latches (ready 8 4) 0x11 (fun t => t.dev.sleepOut == some true) = true ∧
    latches (ready 8 4) 0x13 (fun t => t.dev.normal == some true) = true ∧
    latches (ready 8 4) 0x20 (fun t => t.dev.invOn == some false) = true ∧
    latches (ready 8 4) 0x21 (fun t => t.dev.invOn == some true && t.inverted == some false) = true ∧
    latches (ready 8 4) 0x28 (fun t => t.dev.dispOn == some false && t.powerOn == some true) = true ∧
    latches (ready 8 4) 0x29 (fun t => t.dev.dispOn == some true) = true := by decide +kernel

theorem test_address_commands :
    latches (ready 8 4) 0x2A (fun t => t.dev.colS == none) = true ∧
    latches (ready 8 4) 0x2B (fun t => t.dev.rowS == none) = true ∧
    latches (ready 8 4) 0x36 (fun t => t.dev.madctl == some 0x00) = true ∧
    latches { ready 8 4 with dev := { dev with colS := some 2, colE := some 3, rowS := some 1, rowE := some 1 } } 0x2C
      (fun t => t.dev.ramwr && t.dev.ptrC == 2 && t.dev.ptrR == 1) = true := by decide +kernel

theorem test_opaque_commands :
    ([0x3A, 0xB1, 0xB2, 0xB3, 0xB4, 0xC0, 0xC1, 0xC2, 0xC3, 0xC4, 0xC5, 0xE0, 0xE1] : List Byte).all
      (fun b => latches (ready 8 4) b fun t => t.dev.cfg == [(b.toNat, [])]) = true := by decide +kernel

/-- V-DEV 7: a window out of order. -/
theorem test_ramwr_unset :
    (match step (({ ready 8 4 with dev := { dev with colS := some 5, colE := some 2, rowS := some 0, rowE := some 0 } } :
        State).withMessage (.command 0x2C)) with
      | .next t => t.faults == [.windowUnset] && !t.dev.ramwr
      | .fault _ => false
      | .refused _ => false) = true := by decide +kernel

/-- V-DEV 6: the fifth byte of a CASET block. -/
theorem test_data_frame :
    (match step (({ ready 8 4 with dev := { dev with cmd := some 0x2A } } : State).withMessage (.data [0, 2, 0, 3, 0])) with
      | .next t => t.faults == [.excessParameter] && t.dev.colS == some 2 && t.dev.colE == some 3
      | .fault _ => false
      | .refused _ => false) = true := by decide +kernel

/-- R25: a failed frame outside `Ready` records its fault and leaves the lifecycle; R132: in `Ready` it fails the session. -/
theorem test_frame_bus_failure :
    (match step (({ State.powerUp { par with busFails := [0] } font with xfers := 0 } : State).withMessage (.command 0x11)) with
      | .next t => t.faults == [.busFailure] && t.life == .uninitialized && t.lvl.cs == none && t.xfers == 1
      | .fault _ => false
      | .refused _ => false) = true ∧
    (match step (({ ready 8 4 with par := { par with busFails := [0] } } : State).withMessage (.data [1])) with
      | .next t => t.faults == [.busFailure] && t.life == .failed
      | .fault _ => false
      | .refused _ => false) = true := by decide +kernel

/-- R281: the numbers of the fault codes. -/
theorem test_fault_numbers :
    ([.illegalRequest, .badSessionParameters, .notReady, .sessionUnusable, .alreadyInitialized, .resetNotAllowed,
      .negativeCoordinate, .nonPositiveExtent, .negativeRadius, .badScale, .badFont, .fontMemoryUnreadable] ++
      [.invalidWindow, .outOfRange, .busFailure, .unknownWireCommand, .backlightUnknown, .windowOverrun, .partialPixel,
        .dataWithoutCommand, .excessParameter, .incompleteParameters, .windowUnset, .outOfGram] : List FaultCode).map
      FaultCode.number =
      [1, 2, 3, 4, 5, 6, 7, 8, 9, 10, 11, 12] ++ [13, 14, 15, 16, 17, 18, 19, 20, 21, 22, 23, 24] := by decide

/-! ### Witnesses: the premises of each statement can be met together, at the edges of their ranges -/

/-- Concrete premises about a next state, from an evaluation. -/
theorem next_of_like {o : Host.Outcome State Fault Refusal} {like : State → Bool}
    (h : (match o with | .next t => like t | .fault _ => false | .refused _ => false) = true) :
    ∃ t, o = .next t ∧ like t = true := by
  cases o with
  | next t => exact ⟨t, rfl, h⟩
  | fault f => cases h
  | refused r => cases h

theorem par_codes : CodesDistinct par.cmd := default_codes_distinct

theorem par_reliable : BusReliable par := fun _ => rfl

/-- The same session under `CLIP_POLICY = fault`. -/
def strict (w h : Nat) : State := { ready w h with par := { par with clip := .fault } }

/-- The same session on a bus whose first transfer fails. -/
def failing (w h : Nat) : State := { ready w h with par := { par with busFails := [0] } }

theorem ready_drawable (w h : Nat) (hw : 1 ≤ w ∧ w ≤ 300) (hh : 1 ≤ h ∧ h ≤ 300) : Drawable ⟨w, h, 0, 0⟩ (ready w h) where
  ready := rfl
  panel := rfl
  fits := ⟨hw.1, hh.1, by dsimp only; omega, by dsimp only; omega⟩
  codes := par_codes
  bus := par_reliable
  gram := ⟨⟨300, 300⟩, rfl, hw.2, hh.2⟩
  clean := ⟨rfl, rfl⟩
  frame := rfl

theorem strict_drawable (w h : Nat) (hw : 1 ≤ w ∧ w ≤ 300) (hh : 1 ≤ h ∧ h ≤ 300) : Drawable ⟨w, h, 0, 0⟩ (strict w h) where
  ready := rfl
  panel := rfl
  fits := ⟨hw.1, hh.1, by dsimp only; omega, by dsimp only; omega⟩
  codes := par_codes
  bus := par_reliable
  gram := ⟨⟨300, 300⟩, rfl, hw.2, hh.2⟩
  clean := ⟨rfl, rfl⟩
  frame := rfl

theorem drawable_8_4 : Drawable ⟨8, 4, 0, 0⟩ (ready 8 4) := ready_drawable 8 4 (by omega) (by omega)

theorem drawable_32 : Drawable ⟨32, 32, 0, 0⟩ (ready 32 32) := ready_drawable 32 32 (by omega) (by omega)

theorem frame_ready : FrameReady (ready 8 4) := ⟨par_codes, rfl, rfl, rfl⟩

theorem witness_PowerUpState : needsReady .backlightQuery = true ∧ needsReady (.packColor 0 0 0) = false := by decide

theorem witness_StepRunsWhatItDecodes :
    (∀ m, ((ready 8 4).withMessage m).faults = [] ∧ ((ready 8 4).withMessage m).pending = m :: []) ∧
    decode par.cmd (.request [0x06, 0x01, 0x08]) = .instr (.power true) [0x08] ∧
    decode par.cmd (.request [0x0B]) = .illegal ∧ decode par.cmd (.request [0x06]) = .incomplete ∧
    decode par.cmd (.command 0x00) = .unassigned := ⟨fun _ => ⟨rfl, rfl⟩, by decide⟩

theorem witness_FaultsAreSticky :
    (∃ t, exec .backlightQuery ((ready 8 4).withFault .notReady) = .next t ∧
      (t.faults == [.notReady, .backlightUnknown]) = true) ∧
    (∃ t, sendDataFrame [7] ((ready 8 4).withFault .notReady) = .next t ∧
      (t.faults == [.notReady, .excessParameter]) = true) ∧
    ((ready 8 4).withFault .notReady).faults ≠ [] :=
  ⟨next_of_like (by decide +kernel), next_of_like (by decide +kernel), by decide⟩

theorem witness_UnassignedOperations :
    UnassignedOp 0x0B ∧ UnassignedOp 0x0F ∧ UnassignedOp 0x19 ∧ UnassignedOp 0xFF ∧
    ((ready 8 4).withMessage (.request [0x19, 1])).faults = [] ∧
    ((ready 8 4).withMessage (.request [0x19, 1])).pending = .request (0x19 :: [1]) :: [] := by decide

theorem witness_IllegalFields :
    ¬UnassignedOp 0x00 ∧ ¬UnassignedOp 0x0A ∧ ¬UnassignedOp 0x10 ∧ ¬UnassignedOp 0x18 ∧
    decodeRequest [0x17, 0, 0, 0, 10, 0, 0, 0, 10, 0, 0, 0, 2, 0, 0x1F, 0x0F, 1, 2, 0, 0] = .illegal ∧
    ((ready 8 4).withMessage (.request [0x06, 2])).pending = .request [0x06, 2] :: [] ∧
    decodeRequest [0x06, 2] = .illegal := by decide

theorem witness_TruncatedRequests :
    (Instr.setPixel 3 4 5).wireName = none ∧ (Instr.setPixel 3 4 5).wf = true ∧ 10 < (Instr.setPixel 3 4 5).length ∧
    decodeRequest [0x08, 7] = .instr .backlightQuery [7] ∧
    ((ready 8 4).withMessage (.request [0x06])).pending = .request [0x06] :: [] ∧
    decodeRequest [0x06] = .incomplete := by decide

theorem witness_DecodeOfEncode :
    CodesDistinct CmdTable.default ∧ (Instr.circleSegment (-1) 2 3 0xFFFF 0x0F true true 1).wf = true ∧
    (Instr.circleSegment (-1) 2 3 0xFFFF 0x0F true true 1).wireName = none ∧ Instr.ramwr.wf = true :=
  ⟨default_codes_distinct, by decide⟩

theorem witness_OneSpelling : decodeRequest [0x0A, 1, 2, 3, 4] = .instr (.packColor 1 2 3) [4] := by decide

theorem witness_ResetPulses :
    (State.powerUp par font).life = .uninitialized ∧ { ready 8 4 with life := .failed }.life = .failed ∧
    (ready 8 4).life ≠ .failed ∧ (ready 8 4).life ≠ .uninitialized := by decide

/-- V-LIFE: the largest width that the margin 1 leaves room for. -/
theorem witness_InitialiseBringsUp :
    { created with cm := some 1 }.life = .uninitialized ∧ { created with cm := some 1 }.rm = some 0 ∧
    1 ≤ (65535 : Half).toNat ∧ 1 ≤ (1 : Half).toNat ∧ (65535 : Half).toNat - 1 + (1 : Half).toNat ≤ 0xFFFF ∧
    (1 : Half).toNat - 1 + (0 : Half).toNat ≤ 0xFFFF ∧ CodesDistinct par.cmd ∧ par.init.caset.length = 4 ∧
    par.init.raset.length = 4 ∧ ∀ m, 0 ≤ m → m < 0 + initTransfers par 3 → busOk par m = true :=
  ⟨rfl, rfl, by decide, by decide, by decide, by decide, par_codes, rfl, rfl, fun _ _ _ => rfl⟩

theorem witness_InitialiseAdmission :
    { ready 8 4 with life := .failed }.life = .failed ∧ (ready 8 4).life ≠ .failed ∧
    (ready 8 4).life ≠ .uninitialized ∧ created.life = .uninitialized ∧ (State.powerUp par font).rm = none ∧
    (State.powerUp par font).cm = none ∧ (0 : Half).toNat < 1 ∧ 3 < (4 : Byte).toNat ∧
    0xFFFF < (65535 : Half).toNat - 1 + (2 : Half).toNat := by decide

/-- The first transfer of 36, and the last. -/
theorem witness_BringUpFailure :
    initTransfers par 1 = 36 ∧ created.life = .uninitialized ∧ created.xfers = 0 ∧
    busOk { par with busFails := [0] } 0 = false ∧ (∀ n, 0 ≤ n → n < 0 → busOk { par with busFails := [0] } n = true) ∧
    busOk { par with busFails := [35] } 35 = false ∧
    (∀ n, 0 ≤ n → n < 35 → busOk { par with busFails := [35] } n = true) := by
  refine ⟨by decide, rfl, rfl, by decide, fun n _ h => absurd h (by omega), by decide, fun n _ h => ?_⟩
  simp [busOk]; omega

theorem witness_ReadyGate :
    needsReady (.text 0 0 0 0 0 0 0 0 0 []) = true ∧ { ready 8 4 with life := .failed }.life = .failed ∧
    created.life ≠ .failed ∧ created.life ≠ .ready := by decide

theorem witness_FailedSession :
    { ready 8 4 with life := .failed }.life = .failed ∧ Instr.reset.wireName = none ∧
    (∀ rm cm bl, Instr.reset ≠ .create rm cm bl) ∧ (∀ r g b, Instr.reset ≠ .packColor r g b) :=
  ⟨rfl, rfl, fun _ _ _ h => (by cases h), fun _ _ _ h => (by cases h)⟩

theorem witness_WriteCommand :
    (ready 8 4).life = .ready ∧ par.cmd.nameOf 0x00 = none ∧ par.cmd.nameOf 0x29 = some .dispon ∧
    busOk par (ready 8 4).xfers = true ∧ devByte par false 0x29 dev = .ok dev ∧
    devByte par false 0x29 { dev with pend := some 1 } = .error (.partialPixel, { dev with pend := some 1 }) ∧
    busOk (failing 8 4).par (failing 8 4).xfers = false := by decide

theorem witness_WriteData :
    (ready 8 4).life = .ready ∧ busOk par (ready 8 4).xfers = true ∧ (devFrame par true [] dev).fault = none ∧
    (devFrame par true [0x12, 0x34] (writing 2 1 3 2 2 1)).fault = none ∧
    (devFrame par true [0x12, 0x34] (writing 5 5 5 5 5 6)).fault = some .windowOverrun ∧
    busOk (failing 8 4).par (failing 8 4).xfers = false := by decide +kernel

theorem witness_SetAddressWindow :
    (ready 8 4).life = .ready ∧ (ready 8 4).panel = some ⟨8, 4, 0, 0⟩ ∧ Panel.Fits ⟨8, 4, 0, 0⟩ ∧ CodesDistinct par.cmd ∧
    BusReliable par ∧ dev.Clean par.cmd ∧
    0 ≤ sext32 0 ∧ sext32 0 ≤ sext32 7 ∧ sext32 7 < 8 ∧ sext32 3 ≤ sext32 3 ∧ sext32 3 < 4 ∧
    sext32 (-1) < 0 ∧ sext32 1 < sext32 2 ∧ (8 : Int) ≤ sext32 8 ∧ (4 : Int) ≤ sext32 4 :=
  ⟨rfl, rfl, by decide, par_codes, par_reliable, by decide⟩

theorem witness_Power : (ready 8 4).life = .ready ∧ FrameReady (ready 8 4) := ⟨rfl, frame_ready⟩

theorem witness_Invert : (ready 8 4).life = .ready ∧ FrameReady (ready 8 4) := ⟨rfl, frame_ready⟩

theorem witness_Backlight :
    { ready 8 4 with life := .failed }.life = .failed ∧ created.life ≠ .failed ∧ created.life ≠ .ready ∧
    (ready 8 4).life = .ready ∧ (ready 8 4).blPresent = some true ∧
    { ready 8 4 with blPresent := some false }.blPresent = some false := by decide

theorem witness_BacklightQuery :
    { ready 8 4 with life := .failed }.life = .failed ∧ created.life ≠ .failed ∧ created.life ≠ .ready ∧
    { ready 8 4 with blPresent := some false }.blPresent = some false ∧
    (ready 8 4).life = .ready ∧ (ready 8 4).blPresent = some true ∧ (ready 8 4).blOn = none ∧
    { ready 8 4 with blOn := some true }.blOn = some true ∧ { ready 8 4 with blOn := some false }.blOn = some false := by
  decide

theorem witness_SessionMirrorsController :
    CodesDistinct created.par.cmd ∧ created.faults = [] ∧ par.init.caset.length = 4 ∧ par.init.raset.length = 4 ∧
    (∃ t, exec (.initialise 4 2 0) created = .next t ∧
      (t.faults == [] && t.ret == .status true && t.life == .ready) = true) ∧
    (∃ t, exec (.power false) (ready 8 4) = .next t ∧ (t.faults == []) = true) ∧
    (ready 8 4).powerOn = (ready 8 4).dev.dispOn ∧ (ready 8 4).inverted = (ready 8 4).dev.invOn :=
  ⟨par_codes, rfl, rfl, rfl, next_of_like (by decide +kernel), next_of_like (by decide +kernel), rfl, rfl⟩

theorem witness_ModeCommands :
    FrameReady (ready 8 4) ∧ CodesDistinct par.cmd ∧ dev.ramwr = false ∧
    dev.cmd ∈ [some par.cmd.slpout, some par.cmd.noron, some par.cmd.invoff, some par.cmd.invon, some par.cmd.dispoff,
      some par.cmd.dispon] := ⟨frame_ready, par_codes, rfl, by decide⟩

theorem witness_SoftwareReset :
    FrameReady (ready 8 4) ∧ CodesDistinct par.cmd ∧ { dev with cmd := some 0x01 }.ramwr = false ∧
    { dev with cmd := some 0x01 }.cmd = some par.cmd.swreset := ⟨frame_ready, par_codes, rfl, rfl⟩

/-- The edges of the parameter counts: the third byte of a block, the fourth, the fifth; the first of MADCTL, and the
second. -/
theorem witness_AddressCommands :
    FrameReady (ready 8 4) ∧ CodesDistinct par.cmd ∧ busOk par (ready 8 4).xfers = true ∧ dev.ramwr = false ∧
    dev.params = [] ∧ { dev with cmd := some 0x2A }.cmd = some par.cmd.caset ∧
    { dev with cmd := some 0x2B }.cmd = some par.cmd.raset ∧ { dev with cmd := some 0x36 }.cmd = some par.cmd.madctl ∧
    { dev with params := [0, 0] }.params.length < 3 ∧ { dev with params := [0, 0, 0] }.params = [0, 0, 0] ∧
    4 ≤ { dev with params := [0, 0, 0, 0] }.params.length ∧ 1 ≤ { dev with params := [0] }.params.length :=
  ⟨frame_ready, par_codes, by decide⟩

theorem witness_MemoryWriteOpens :
    FrameReady { ready 8 4 with dev := writing 5 5 5 5 5 5 } ∧ (writing 5 5 5 5 5 5).colS = some 5 ∧
    (writing 5 5 5 5 5 5).colE = some 5 ∧ (writing 5 5 5 5 5 5).rowS = some 5 ∧ (writing 5 5 5 5 5 5).rowE = some 5 ∧
    (5 : Half).toNat ≤ (5 : Half).toNat ∧ dev.colS = none ∧ dev.colE = none ∧ dev.rowS = none ∧ dev.rowE = none ∧
    (writing 5 5 4 4 5 5).colE = some 4 ∧ (writing 5 5 4 4 5 5).rowE = some 4 ∧ (4 : Half).toNat < (5 : Half).toNat :=
  ⟨⟨par_codes, rfl, rfl, rfl⟩, by decide⟩

theorem witness_OpaqueCommands :
    FrameReady (ready 8 4) ∧ isOpaque .gmctrn1 = true ∧ busOk par (ready 8 4).xfers = true ∧
    { dev with cmd := some 0xE1, cfg := [(0xB1, [1])] }.cmd = some (par.cmd.code .gmctrn1) ∧
    { dev with cmd := some 0xE1, cfg := [(0xB1, [1])] }.ramwr = false ∧
    Sparse.wf { dev with cmd := some 0xE1, cfg := [(0xB1, [1])] }.cfg = true ∧ ([5] : List Byte) ≠ [] :=
  ⟨frame_ready, by decide⟩

theorem witness_CommandBytes :
    CodesDistinct par.cmd ∧ busOk par (ready 8 4).xfers = true ∧ { dev with pend := some 1 }.pend ≠ none ∧
    dev.pend = none ∧ { dev with cmd := some 0x2A, params := [0] }.cmd = some par.cmd.caset ∧
    { dev with cmd := some 0x2B, params := [0, 0, 0] }.cmd = some par.cmd.raset ∧ 1 ≤ ([0] : List Byte).length ∧
    ([0, 0, 0] : List Byte).length ≤ 3 ∧ dev.Clean par.cmd ∧
    { dev with cmd := some 0x2A, params := [0, 0, 0, 0] }.Clean par.cmd := ⟨par_codes, by decide⟩

theorem witness_DataBytes :
    CodesDistinct par.cmd ∧ Dev.powerUp.cmd = none ∧ (writing 0 0 0 0 0 0).cmd ≠ none ∧
    (writing 0 0 0 0 0 0).ramwr = true ∧ dev.cmd = some (par.cmd.code .dispon) ∧ dev.ramwr = false :=
  ⟨par_codes, by decide⟩

/-- The row after the window's last; the last address of `GRAM_LIMIT` and the one past it; no orientation byte. -/
theorem witness_PixelBytes :
    (writing 0 0 299 299 299 299).cmd ≠ none ∧ (writing 0 0 299 299 299 299).ramwr = true ∧
    (writing 0 0 299 299 299 299).pend = none ∧ { writing 0 0 299 299 299 299 with pend := some 1 }.pend = some 1 ∧
    (writing 0 0 299 299 0 300).rowE = some 299 ∧ (299 : Half).toNat < 300 ∧
    (299 : Nat) < (gramLimitOf par.gramLimit 0).cols ∧ (299 : Nat) < (gramLimitOf par.gramLimit 0).rows ∧
    (gramLimitOf par.gramLimit 0).cols ≤ 300 ∧ (writing 0 0 299 299 299 299).madctl = some (madTable 0) ∧
    (writing 0 0 299 299 299 299).gram.wf = true ∧ (∀ o, madTable o ≠ 0x12) ∧
    { dev with madctl := none }.madctl = none := by decide

theorem witness_BusFailureEndsTheRequest :
    (∀ w h o, Instr.setPixel 1 1 1 ≠ .initialise w h o) ∧
    (∃ t, exec (.setPixel 1 1 1) (failing 8 4) = .next t ∧
      (t.faults == [.busFailure] && t.trace.contains .busFail) = true) ∧ (Instr.setPixel 1 1 1).wireName = none ∧
    (failing 8 4).faults = [] ∧ (failing 8 4).trace = [] ∧ busOk (failing 8 4).par (failing 8 4).xfers = false :=
  ⟨fun _ _ _ h => (by cases h), next_of_like (by decide +kernel), rfl, rfl, rfl, by decide⟩

theorem witness_SetPixel :
    Drawable ⟨8, 4, 0, 0⟩ (ready 8 4) ∧ Drawable ⟨8, 4, 0, 0⟩ (strict 8 4) ∧
    (Fill.pixel (sext32 7) (sext32 3) 1).Admitted (strict 8 4).par ⟨8, 4, 0, 0⟩ ∧
    (Fill.pixel (sext32 8) (sext32 3) 1).Admitted (ready 8 4).par ⟨8, 4, 0, 0⟩ ∧ sext32 (-1) < 0 ∧ 0 ≤ sext32 0 ∧
    (strict 8 4).par.clip = .fault ∧ ((8 : Nat) : Int) ≤ sext32 8 ∧ ((4 : Nat) : Int) ≤ sext32 4 :=
  ⟨drawable_8_4, strict_drawable 8 4 (by omega) (by omega), by decide⟩

theorem witness_FillRect :
    Drawable ⟨8, 4, 0, 0⟩ (ready 8 4) ∧ Drawable ⟨8, 4, 0, 0⟩ (strict 8 4) ∧
    Fill.Admitted (strict 8 4).par ⟨8, 4, 0, 0⟩ ⟨sext32 0, sext32 0, sext32 8, sext32 4, 1⟩ ∧
    Fill.Admitted (ready 8 4).par ⟨8, 4, 0, 0⟩ ⟨sext32 6, sext32 2, sext32 5, sext32 5, 1⟩ ∧ 1 ≤ sext32 1 ∧
    sext32 (-2) < 0 ∧ sext32 0 ≤ 0 ∧ ((8 : Nat) : Int) < sext32 6 + sext32 3 ∧ ((4 : Nat) : Int) < sext32 0 + sext32 5 :=
  ⟨drawable_8_4, strict_drawable 8 4 (by omega) (by omega), by decide⟩

theorem witness_AxisRuns :
    Drawable ⟨8, 4, 0, 0⟩ (ready 8 4) ∧ 0 ≤ sext32 6 ∧ 1 ≤ sext32 1 ∧
    Fill.Admitted (ready 8 4).par ⟨8, 4, 0, 0⟩ ⟨sext32 6, sext32 0, sext32 5, 1, 1⟩ ∧
    Fill.Admitted (ready 8 4).par ⟨8, 4, 0, 0⟩ ⟨sext32 2, sext32 1, 1, sext32 9, 1⟩ := ⟨drawable_8_4, by decide⟩

theorem witness_Line :
    Drawable ⟨32, 32, 0, 0⟩ (ready 32 32) ∧ 0 ≤ sext32 0 ∧ 0 ≤ sext32 5 ∧ 0 ≤ sext32 2 ∧
    Admissible (ready 32 32).par ⟨32, 32, 0, 0⟩ (lineFills (sext32 0) (sext32 0) (sext32 5) (sext32 2) 1) ∧
    sext32 (-1) < 0 := by
  refine ⟨drawable_32, by decide, by decide, by decide, ?_, by decide⟩
  unfold Admissible; decide +kernel

theorem witness_LineGeometry : (0 : Int) ≠ 5 ∧ (0 : Int) ≠ 2 := by decide

theorem witness_Circles :
    Drawable ⟨32, 32, 0, 0⟩ (ready 32 32) ∧ 0 ≤ sext32 10 ∧ 0 ≤ sext32 2 ∧
    Admissible (ready 32 32).par ⟨32, 32, 0, 0⟩ (circleFills (sext32 10) (sext32 10) (sext32 2) 1 0x0F false 1) ∧
    Admissible (ready 32 32).par ⟨32, 32, 0, 0⟩ (circleFills (sext32 10) (sext32 10) (sext32 2) 1 0x0F true 7) ∧
    Admissible (ready 32 32).par ⟨32, 32, 0, 0⟩ (circleFills (sext32 0) (sext32 0) (sext32 2) 1 0x08 true 7) ∧
    sext32 (-1) < 0 := by
  refine ⟨drawable_32, by decide, by decide, ?_, ?_, ?_, by decide⟩
  all_goals unfold Admissible; decide +kernel

theorem witness_SegmentForms :
    (ready 32 32).life = .ready ∧ (ready 32 32).panel = some ⟨32, 32, 0, 0⟩ ∧ 0 ≤ sext32 10 ∧ 0 ≤ sext32 0 := by decide

theorem witness_QuadrantFilter :
    (0 : Int) ≤ 2 ∧ Fill.pixel 8 10 1 ∈ circleFills 10 10 2 1 0x01 false 1 := by decide +kernel

theorem witness_OctantPoints : (0 : Int) ≤ 0 ∧ (1 : Int) ≤ 1 ∧ (1, 0) ∈ octantSteps ((1 : Int) + 1).toNat 1 0 (1 - 1) ∧
    (0, 0) ∈ octantSteps ((0 : Int) + 1).toNat 0 0 (1 - 0) := by decide

/-- Scale 2, a covered character and one out of the range; a glyph that ends on the panel's last column, and one that
passes it. -/
theorem witness_Text :
    (0x5A : Byte).toNat > (0x42 : Byte).toNat ∧ (2 : Int) + (2 : Byte).toNat * (3 : Byte).toNat ≤ (8 : Nat) ∧
    ((8 : Nat) : Int) < 3 + (2 : Byte).toNat * (3 : Byte).toNat ∧
    Drawable ⟨8, 16, 0, 0⟩ (ready 8 16) ∧ 0 ≤ sext32 0 ∧ 1 ≤ (2 : Byte).toNat ∧ (8 : Byte).toNat ≤ 8 ∧
    (0x41 : Byte).toNat ≤ (0x42 : Byte).toNat ∧ FontReadable (ready 8 16).font (fontOf 3 5 0x41 0x42 0x100) [0x41, 0x5A] ∧
    Admissible (ready 8 16).par ⟨8, 16, 0, 0⟩
      (textFills ⟨8, 16, 0, 0⟩ (ready 8 16).font (fontOf 3 5 0x41 0x42 0x100) (2 : Byte).toNat 1 (sext32 0) [0x41, 0x5A]
        (sext32 0, sext32 0)) := by
  refine ⟨by decide, by decide, by decide, ready_drawable 8 16 (by omega) (by omega), by decide, by decide, by decide,
    by decide, ?_, ?_⟩
  · unfold FontReadable; decide +kernel
  · unfold Admissible; decide +kernel

theorem witness_TextOperandChecks :
    (ready 8 16).life = .ready ∧ (ready 8 16).panel = some ⟨8, 16, 0, 0⟩ ∧ sext32 (-1) < 0 ∧ 0 ≤ sext32 0 ∧
    (0 : Byte).toNat = 0 ∧ 1 ≤ (1 : Byte).toNat ∧ 8 < (9 : Byte).toNat ∧ (0x42 : Byte).toNat < (0x43 : Byte).toNat ∧
    (∀ ch ∈ ([0x40, 0x43] : List Byte), ch.toNat < (0x41 : Byte).toNat ∨ (0x42 : Byte).toNat < ch.toNat) := by decide

/-- A first column that cannot be read, and a last column with the two before it readable. -/
theorem witness_UnreadableGlyph :
    Drawable ⟨8, 16, 0, 0⟩ (ready 8 16) ∧ (0x41 : Byte).toNat ≤ (0x43 : Byte).toNat ∧
    (0x43 : Byte).toNat ≤ (0x43 : Byte).toNat ∧ 0 < (3 : Byte).toNat ∧ 3 < (4 : Byte).toNat ∧
    FontReadable (ready 8 16).font (fontOf 3 5 0x41 0x43 0x100) [0x41] ∧
    glyphByte (ready 8 16).font (fontOf 3 5 0x41 0x43 0x100) 0x43 0 = none ∧
    Admissible (ready 8 16).par ⟨8, 16, 0, 0⟩
      (textFillsInto ⟨8, 16, 0, 0⟩ (ready 8 16).font (fontOf 3 5 0x41 0x43 0x100) (1 : Byte).toNat 1 (sext32 0) [0x41]
        (sext32 0, sext32 0) 0x43 0) ∧
    (∀ k < 3, (glyphByte (ready 8 16).font (fontOf 4 5 0x41 0x41 0x103) 0x41 k).isSome = true) ∧
    glyphByte (ready 8 16).font (fontOf 4 5 0x41 0x41 0x103) 0x41 3 = none ∧
    Admissible (ready 8 16).par ⟨8, 16, 0, 0⟩
      (textFillsInto ⟨8, 16, 0, 0⟩ (ready 8 16).font (fontOf 4 5 0x41 0x41 0x103) (1 : Byte).toNat 1 (sext32 0) []
        (sext32 0, sext32 0) 0x41 3) := by
  refine ⟨ready_drawable 8 16 (by omega) (by omega), by decide, by decide, by decide, by decide, ?_, by decide, ?_,
    by decide, by decide, ?_⟩
  · unfold FontReadable; decide +kernel
  · unfold Admissible; decide +kernel
  · unfold Admissible; decide +kernel

/-- The fills of V-TXT's text of scale 2 before the first that passes the panel's last row. -/
def textBefore : List Fill :=
  [(0, 2), (0, 4), (0, 6), (0, 8), (2, 0), (2, 4), (4, 2), (4, 4), (4, 6), (4, 8), (0, 13)].map
    fun q : Int × Int => ⟨q.1, q.2, 2, 2, 0x001F⟩

/-- The line that leaves a 4 by 4 panel, the circles whose points or spans turn negative, and V-TXT's text of scale 2,
whose second glyph overshoots the panel's last row. -/
theorem witness_ShapesStopAtTheFirstBadFill :
    Drawable ⟨4, 4, 0, 0⟩ (strict 4 4) ∧
    Admissible (strict 4 4).par ⟨4, 4, 0, 0⟩ [.pixel 0 0 1, .pixel 1 0 1, .pixel 2 1 1, .pixel 3 1 1] ∧
    (Fill.pixel 4 2 1).fault (strict 4 4).par ⟨4, 4, 0, 0⟩ = some .outOfRange ∧
    lineFills (sext32 0) (sext32 0) (sext32 5) (sext32 2) 1 =
      [.pixel 0 0 1, .pixel 1 0 1, .pixel 2 1 1, .pixel 3 1 1] ++ Fill.pixel 4 2 1 :: [.pixel 5 2 1] ∧
    (Fill.pixel (-1) 1 1).fault (strict 4 4).par ⟨4, 4, 0, 0⟩ = some .negativeCoordinate ∧
    (∃ post, circleFills (sext32 1) (sext32 1) (sext32 2) 1 0x0F false 1 = [Fill.pixel 3 1 1] ++ .pixel (-1) 1 1 :: post) ∧
    (Fill.mk (-1) 1 5 1 7).fault (strict 4 4).par ⟨4, 4, 0, 0⟩ = some .negativeCoordinate ∧
    (∃ post, circleFills (sext32 1) (sext32 1) (sext32 2) 1 0x0F true (if true then 7 else 1) =
      [] ++ ⟨-1, 1, 5, 1, 7⟩ :: post) ∧
    Drawable ⟨8, 16, 0, 0⟩ (strict 8 16) ∧ FontReadable (strict 8 16).font (fontOf 3 5 0x41 0x42 0x100) [0x41, 0x41] ∧
    Admissible (strict 8 16).par ⟨8, 16, 0, 0⟩ textBefore ∧
    (Fill.mk 0 15 2 2 0x001F).fault (strict 8 16).par ⟨8, 16, 0, 0⟩ = some .outOfRange ∧
    (∃ post, textFills ⟨8, 16, 0, 0⟩ (strict 8 16).font (fontOf 3 5 0x41 0x42 0x100) (2 : Byte).toNat 0x001F (sext32 0)
      [0x41, 0x41] (sext32 0, sext32 0) = textBefore ++ ⟨0, 15, 2, 2, 0x001F⟩ :: post) := by
  refine ⟨strict_drawable 4 4 (by omega) (by omega), ?_, by decide, by decide +kernel, by decide,
    ⟨(circleFills 1 1 2 1 0x0F false 1).drop 2, by decide +kernel⟩, by decide,
    ⟨(circleFills 1 1 2 1 0x0F true 7).drop 1, by decide +kernel⟩, strict_drawable 8 16 (by omega) (by omega), ?_, ?_,
    by decide, ⟨(textFills ⟨8, 16, 0, 0⟩ font (fontOf 3 5 0x41 0x42 0x100) 2 0x001F 0 [0x41, 0x41] (0, 0)).drop 12,
      by decide +kernel⟩⟩
  · unfold Admissible; decide
  · unfold FontReadable; decide +kernel
  · unfold Admissible; decide

theorem witness_StepKeepsInvariant (m : Inbound) : Inv ((ready 8 4).withMessage m) where
  dev := ⟨rfl, rfl, fun h => absurd rfl h, fun h => (by cases h), fun c r h => absurd (Frame.get_empty c r) h⟩
  font := rfl
  created := ⟨⟨fun h => (by cases h), fun h => (by cases h)⟩, ⟨fun h => (by cases h), fun h => (by cases h)⟩⟩
  ready := fun _ => ⟨⟨⟨8, 4, 0, 0⟩, rfl, by decide⟩, fun h => (by cases h), fun h => (by cases h), fun h => (by cases h)⟩
  backlight := fun h => absurd rfl h
  oneFault := Nat.zero_le _
  visible := fun _ => .inr (.inl rfl)
  chipSelect := fun _ h => by cases h
  resetLine := fun h => by cases h

theorem witness_StepKeepsInvariant_next :
    ∃ t, step ((ready 8 4).withMessage (.request [0x06, 0x00])) = .next t ∧ (t.faults == []) = true :=
  next_of_like (by decide +kernel)

theorem witness_TraceDecides :
    ∃ t, step ((ready 8 4).withMessage (.data [0x00])) = .next t ∧ (t.faults == [.excessParameter]) = true :=
  next_of_like (by decide +kernel)

theorem witness_LifecycleTransitions :
    (∃ t, sendDataFrame [1] (failing 8 4) = .next t ∧ (t.life == .failed) = true) ∧
    (∃ t, exec (.power true) (failing 8 4) = .next t ∧ (t.life == .failed) = true) ∧
    (∃ t, exec (.create 0 0 false) (ready 8 4) = .next t ∧ (t.life == .uninitialized) = true) :=
  ⟨next_of_like (by decide +kernel), next_of_like (by decide +kernel), next_of_like (by decide +kernel)⟩

theorem witness_OneFaultPerRequest :
    (∃ t, exec (.setPixel (-1) 0 0) (ready 8 4) = .next t ∧ (t.faults == [.negativeCoordinate]) = true) ∧
    FaultCode.negativeCoordinate ≠ .busFailure := ⟨next_of_like (by decide +kernel), by decide⟩

theorem witness_RunIsFixed : ∃ t, exec (.setPixel 1 1 1) (ready 8 4) = .next t ∧ (t.xfers == 6) = true :=
  next_of_like (by decide +kernel)

theorem witness_BroughtUpBlockKeepsDrawing :
    Drawable ⟨8, 4, 0, 0⟩ (ready 8 4) ∧ (ready 8 4).faults = [] ∧ ordinary (.setPixel 1 1 1) = true ∧
    (∃ t, exec (.setPixel 1 1 1) (ready 8 4) = .next t ∧ (t.faults == []) = true) ∧
    (∃ t, exec (.hline 0 0 0 1) (ready 8 4) = .next t ∧ (t.faults == [.nonPositiveExtent]) = true) :=
  ⟨drawable_8_4, rfl, rfl, next_of_like (by decide +kernel), next_of_like (by decide +kernel)⟩

end Sys2Proof.Tests
end

section
/-! SUPPORT. Laws for the statements about the state as a whole: the kinds of instruction, what a transfer leaves of the
session, and what an instruction can do to the fault list and the lifecycle. -/

namespace Sys2Proof.Machine

/-! ### The kinds of instruction (R95, R103, R146) -/

/-- An instruction is a request that passes `ReadyGate()`, a command frame, or one of the four requests without a gate. -/
theorem instr_by_gate {P : Instr → Prop} (gated : ∀ i, needsReady i = true → P i) (frame : ∀ name : WireName, P name.instr)
    (create : ∀ rm cm bl, P (.create rm cm bl)) (reset : P .reset) (initialise : ∀ w k o, P (.initialise w k o))
    (packColor : ∀ r g b, P (.packColor r g b)) (i : Instr) : P i := by
  cases hw : i.wireName with
  | some name => exact Instr.instr_of_wireName hw ▸ frame name
  | none =>
    cases i with
    | create rm cm bl => exact create rm cm bl
    | reset => exact reset
    | initialise w k o => exact initialise w k o
    | packColor r g b => exact packColor r g b
    | _ => first | exact gated _ rfl | cases hw

theorem needsReady_frame (name : WireName) : needsReady name.instr = false := by cases name <;> rfl

/-- The gate of a session that is not ready records a fault (R146). -/
theorem readyGate_closed {s : State} (hs : s.life ≠ .ready) : ∃ f, readyGate s = .error (s.withFault f) := by
  by_cases hf : s.life = .failed
  · exact ⟨_, readyGate_failed hf⟩
  · exact ⟨_, readyGate_other hf hs⟩

/-- A gated request behind a closed gate does nothing else. -/
theorem exec_gated_closed {i : Instr} (hi : needsReady i = true) {s : State} {f : FaultCode}
    (hg : readyGate s = .error (s.withFault f)) : exec i s = .next (s.withFault f) := by
  obtain ⟨k, hk⟩ := exec_gated hi s
  rw [hk, hg]; rfl

/-! ### What a transfer leaves of the session (R131) -/

/-- `t` is `s` but for what a transfer writes: lines, trace, transfer count, controller and fault list. -/
def BusOnly (s t : State) : Prop :=
  ∃ l tr n d fs, t = { s with lvl := l, trace := tr, xfers := n, dev := d, faults := fs }

/-- What a transfer keeps of the invariant, whatever it ends in: the controller's part, and reset not asserted. -/
structure WireInv (s : State) : Prop where
  dev : DevInv s.par s.dev
  resetLine : s.lvl.rst ≠ some false

/-- Transfers that raised no fault: they completed, or the bus failed and the failure is not recorded yet. -/
structure Transferred (s t : State) : Prop where
  session : BusOnly s t
  faults : t.faults = s.faults
  wire : WireInv s → WireInv t
  chipSelect : s.lvl.cs ≠ some false → t.lvl.cs ≠ some false

/-- Transfers of which the last was ended by a fault of the controller. -/
structure Interrupted (s t : State) : Prop where
  session : BusOnly s t
  faults : ∃ f, t.faults = s.faults ++ [f]
  wire : WireInv s → WireInv t

theorem BusOnly.trans {s t u : State} (h1 : BusOnly s t) (h2 : BusOnly t u) : BusOnly s u := by
  obtain ⟨_, _, _, _, _, rfl⟩ := h1
  obtain ⟨_, _, _, _, _, rfl⟩ := h2
  exact ⟨_, _, _, _, _, rfl⟩

theorem BusOnly.life {s t : State} (h : BusOnly s t) : t.life = s.life := by
  obtain ⟨_, _, _, _, _, rfl⟩ := h; rfl

theorem Transferred.refl (s : State) : Transferred s s := ⟨⟨_, _, _, _, _, rfl⟩, rfl, id, id⟩

theorem Transferred.trans {s t u : State} (h1 : Transferred s t) (h2 : Transferred t u) : Transferred s u :=
  ⟨h1.session.trans h2.session, h2.faults.trans h1.faults, h2.wire ∘ h1.wire, h2.chipSelect ∘ h1.chipSelect⟩

theorem Transferred.interrupted {s t u : State} (h1 : Transferred s t) (h2 : Interrupted t u) : Interrupted s u :=
  ⟨h1.session.trans h2.session, h1.faults ▸ h2.faults, h2.wire ∘ h1.wire⟩

theorem afterFrame_transferred (dc : Level) (bytes : List Byte) (s : State) :
    Transferred s (afterFrame dc bytes (devFrame s.par dc bytes s.dev).dev s) :=
  ⟨⟨_, _, _, _, _, rfl⟩, rfl, fun h => ⟨devFrame_inv dc bytes h.dev, h.resetLine⟩, fun _ => nofun⟩

theorem afterFault_interrupted (dc : Level) (bytes sent : List Byte) (f : FaultCode) (s : State) :
    Interrupted s (afterFault dc sent (devFrame s.par dc bytes s.dev).dev f s) :=
  ⟨⟨_, _, _, _, _, rfl⟩, ⟨f, rfl⟩, fun h => ⟨devFrame_inv dc bytes h.dev, h.resetLine⟩⟩

theorem afterBusFail_transferred (dc : Level) (s : State) : Transferred s (afterBusFail dc s.dev.forget s) :=
  ⟨⟨_, _, _, _, _, rfl⟩, rfl, fun h => ⟨devInv_forget _, h.resetLine⟩, fun _ => nofun⟩

theorem settle_transferred (k : Nat) (s : State) : Transferred s (settle k s) :=
  ⟨⟨_, _, _, _, _, rfl⟩, rfl, fun h => ⟨h.dev, h.resetLine⟩, id⟩

/-- The bring-up of INITIALIZE is such transfers, and settle events between them (R135). -/
theorem transferred_lifts : LiftsBringUp Transferred Transferred Interrupted where
  refl := .refl
  trans := .trans
  transG := .trans
  transE := fun h1 h2 => h1.interrupted h2
  settle := settle_transferred
  xfer := fun dc bytes s => xfer_cases dc bytes s (fun _ _ => afterFrame_transferred dc bytes s)
    (fun f _ _ => afterFault_interrupted dc bytes _ f s) (fun _ => afterBusFail_transferred dc s)

/-! ### The fault list and the lifecycle across an instruction (R25, R280, R282) -/

/-- No fault is raised and the lifecycle stays. -/
def Unfaulted (s t : State) : Prop := t.life = s.life ∧ t.faults = s.faults

/-- One fault is recorded; the lifecycle stays, or is `Failed` by a bus failure. -/
def Faulted (s t : State) : Prop :=
  ∃ f, t.faults = s.faults ++ [f] ∧ (t.life = s.life ∨ (f = .busFailure ∧ t.life = .failed))

theorem Faulted.faults_ne_nil {s t : State} (h : Faulted s t) : t.faults ≠ [] := by
  obtain ⟨f, hf, _⟩ := h; simp [hf]

theorem unfaulted_lifts : LiftsExec Unfaulted Unfaulted Faulted where
  refl := fun _ => ⟨rfl, rfl⟩
  trans := fun h1 h2 => ⟨h2.1.trans h1.1, h2.2.trans h1.2⟩
  transE := fun h1 ⟨f, hf, hl⟩ => ⟨f, h1.2 ▸ hf, h1.1 ▸ hl⟩
  fault := fun f _ _ => ⟨f, rfl, .inl rfl⟩
  send := fun dc bytes s => send_cases (P := Run.Ends _ _ s) dc bytes s (fun _ _ => ⟨rfl, rfl⟩)
    (fun f _ _ => ⟨f, rfl, .inl rfl⟩) (fun _ => ⟨.busFailure, rfl, .inr ⟨rfl, rfl⟩⟩)
  answer := fun _ _ _ h => h
  power := fun _ _ _ h _ => h
  inverted := fun _ _ _ h _ => h
  backlight := fun _ _ _ => ⟨rfl, rfl⟩
  pulse := fun s _ => ⟨by simp, by simp⟩

/-- Everything a step can do to the fault list and the lifecycle, but for CREATE and INITIALIZE: nothing, or a fault is
recorded, and a bus failure then takes a ready session to `Failed`. -/
def Course (s t : State) : Prop :=
  t.life = s.life ∧ (t.faults = s.faults ∨ ∃ f, t.faults = s.faults ++ [f]) ∨
  s.life = .ready ∧ t.life = .failed ∧ t.faults = s.faults ++ [.busFailure]

/-- What INITIALIZE can do to them (R135, R137, R280). -/
def InitCourse (s t : State) : Prop :=
  s.life = .uninitialized ∧
    ((t.life = .ready ∧ t.ret = .status true ∧ t.faults = s.faults) ∨
     (t.life = .failed ∧ t.ret = .status false ∧ t.faults = s.faults) ∨
     (t.life = .configuring ∧ ∃ f, t.faults = s.faults ++ [f]))

theorem course_withFault (f : FaultCode) (s : State) : Course s (s.withFault f) := .inl ⟨rfl, .inr ⟨f, rfl⟩⟩

theorem Unfaulted.course {s t : State} (h : Unfaulted s t) : Course s t := .inl ⟨h.1, .inl h.2⟩

theorem Faulted.course {s t : State} (hs : s.life = .ready) (h : Faulted s t) : Course s t := by
  obtain ⟨f, hf, hl | ⟨rfl, hl⟩⟩ := h
  · exact .inl ⟨hl, .inr ⟨f, hf⟩⟩
  · exact .inr ⟨hs, hl, hf⟩

theorem sendFrame_course (dc : Level) (bytes : List Byte) (s : State) : (sendFrame dc bytes s).Ends Course Course s := by
  refine sendFrame_cases (P := Run.Ends _ _ s) dc bytes s (fun _ _ => .inl ⟨rfl, .inl rfl⟩)
    (fun f _ _ => .inl ⟨rfl, .inr ⟨f, rfl⟩⟩) (fun _ => ?_)
  by_cases hs : s.life = .ready
  · exact .inr ⟨hs, if_pos hs, rfl⟩
  · exact .inl ⟨if_neg hs, .inr ⟨_, rfl⟩⟩

theorem exec_gated_course {i : Instr} (hi : needsReady i = true) {s t : State} (h : exec i s = .next t) : Course s t := by
  by_cases hs : s.life = .ready
  · have notGated : ∀ {j : Instr}, needsReady j = false → i ≠ j := fun hj hij => by rw [← hij, hi] at hj; cases hj
    obtain ⟨r, hr, rfl⟩ := unfaulted_lifts.next h (fun name hn => absurd hn (notGated (needsReady_frame name)))
      (fun _ _ _ hn => absurd hn (notGated rfl)) (fun _ _ _ hn => absurd hn (notGated rfl))
    cases r with
    | ok u => exact Unfaulted.course hr
    | error u => exact Faulted.course hs hr
  · obtain ⟨f, hg⟩ := readyGate_closed hs
    rw [exec_gated_closed hi hg] at h; cases h
    exact course_withFault f s

/-- A run whose both ends are tied to its start by `P`, completed to a step. -/
theorem Run.Ends.next {P : State → State → Prop} {s t : State} {r : Run} (hr : r.Ends P P s)
    (h : complete r = .next t) : P s t := by
  cases h
  cases r with
  | ok u => exact hr
  | error u => exact hr

theorem execReset_course {s t : State} (h : execReset s = .next t) : Course s t := by
  refine Run.Ends.next (P := Course) ?_ h
  split
  · exact course_withFault _ s
  · split
    · exact course_withFault _ s
    · exact .inl ⟨resetPulse_life s, .inl (resetPulse_faults s)⟩

theorem execInitialise_course {w k : Half} {o : Byte} {s t : State} (h : execInitialise w k o s = .next t) :
    Course s t ∨ InitCourse s t := by
  obtain ⟨r, hr, ends⟩ := initialise_ends (D := fun s t => Course s t ∨ InitCourse s t)
    (E' := fun s t => Course s t ∨ InitCourse s t) transferred_lifts w k o s
    (fun f _ => .inl (course_withFault f s))
    (fun o t hs _ ht => .inr ⟨hs, .inl ⟨rfl, rfl, ht.faults.trans (startBringUp_faults ..)⟩⟩)
    (fun o t hs _ ht => .inr ⟨hs, .inr (.inl ⟨rfl, rfl, ht.faults.trans (startBringUp_faults ..)⟩)⟩)
    (fun o t hs _ ht => .inr ⟨hs, .inr (.inr ⟨ht.session.life, startBringUp_faults w k o s ▸ ht.faults⟩)⟩)
  exact ends.next (hr ▸ h)

/-- Everything an instruction can do to the fault list and the lifecycle. -/
theorem exec_course (i : Instr) : ∀ {s t : State}, exec i s = .next t →
    Course s t ∨
    ((∃ rm cm bl, i = .create rm cm bl) ∧ t.life = .uninitialized ∧ t.faults = s.faults) ∨
    ((∃ w k o, i = .initialise w k o) ∧ InitCourse s t) := by
  induction i using instr_by_gate with
  | gated i hi => exact fun h => .inl (exec_gated_course hi h)
  | frame name => exact fun h => .inl ((sendFrame_course ..).next ((exec_wire name _).symm.trans h))
  | create rm cm bl => rintro s t ⟨⟩; exact .inr (.inl ⟨⟨rm, cm, bl, rfl⟩, rfl, rfl⟩)
  | reset => exact fun h => .inl (execReset_course h)
  | initialise w k o => exact fun h => (execInitialise_course h).imp_right fun hi => .inr ⟨⟨w, k, o, rfl⟩, hi⟩
  | packColor r g b => rintro s t ⟨⟩; exact .inl (.inl ⟨rfl, .inl rfl⟩)

end Sys2Proof.Machine
end

section
/-! SUPPORT. The invariant of the machine is kept by every step (O53). It is the controller's part (`WireInv`, which
every transfer keeps), the session's part (`SessionInv`, which no transfer touches), and what ties lifecycle and
chip-select to the fault list. -/

namespace Sys2Proof.Machine

/-- The session's part of the invariant. -/
structure SessionInv (s : State) : Prop where
  font : s.font.wf = true
  created : (s.rm = none ↔ s.blPresent = none) ∧ (s.cm = none ↔ s.blPresent = none)
  ready : s.life = .ready → ReadySession s
  backlight : s.blOn ≠ none → s.blPresent = some true

/-- A state between two operations of a request, or before it: the invariant holds and no fault is recorded. -/
structure Quiet (s : State) : Prop where
  inv : Inv s
  faults : s.faults = []

theorem Inv.wire {s : State} (h : Inv s) : WireInv s := ⟨h.dev, h.resetLine⟩

theorem Inv.session {s : State} (h : Inv s) : SessionInv s := ⟨h.font, h.created, h.ready, h.backlight⟩

/-- With a fault recorded the invariant says nothing of lifecycle and chip-select. -/
theorem inv_stopped {s : State} {f : FaultCode} (hw : WireInv s) (hs : SessionInv s) (hf : s.faults = [f]) : Inv s where
  dev := hw.dev
  font := hs.font
  created := hs.created
  ready := hs.ready
  backlight := hs.backlight
  oneFault := by simp [hf]
  visible := fun h => by simp [hf] at h
  chipSelect := fun h => by simp [hf] at h
  resetLine := hw.resetLine

theorem quiet_of {s : State} (hw : WireInv s) (hs : SessionInv s) (hf : s.faults = [])
    (hl : s.life = .uninitialized ∨ s.life = .ready ∨ s.life = .failed) (hc : s.lvl.cs ≠ some false) : Quiet s :=
  ⟨⟨hw.dev, hs.font, hs.created, hs.ready, hs.backlight, by simp [hf], fun _ => hl, fun _ => hc, hw.resetLine⟩, hf⟩

/-! ### What keeps the session's part -/

theorem SessionInv.busOnly {s t : State} (h : SessionInv s) (hst : BusOnly s t) : SessionInv t := by
  obtain ⟨_, _, _, _, _, rfl⟩ := hst
  exact ⟨h.font, h.created, fun hr => ⟨(h.ready hr).panel, (h.ready hr).orient, (h.ready hr).flags⟩, h.backlight⟩

/-- A session that is not ready is held to nothing by its lifecycle. -/
theorem SessionInv.notReady {s : State} (h : SessionInv s) {l : Lifecycle} (hl : l ≠ .ready) :
    SessionInv { s with life := l } := ⟨h.font, h.created, fun hr => absurd hr hl, h.backlight⟩

theorem SessionInv.frameFailed {s : State} (h : SessionInv s) :
    SessionInv { s with life := if s.life = .ready then .failed else s.life } := by
  split
  · exact h.notReady nofun
  · exact h

/-! ### Recording a fault, transfers, and the last updates of the requests -/

theorem Quiet.withFault {s : State} (h : Quiet s) (f : FaultCode) : Inv (s.withFault f) :=
  inv_stopped ⟨h.inv.dev, h.inv.resetLine⟩ (h.inv.session.busOnly ⟨_, _, _, _, _, rfl⟩) (by simp [h.faults]; rfl)

theorem Quiet.transferred {s t : State} (h : Quiet s) (hst : Transferred s t) : Quiet t :=
  quiet_of (hst.wire h.inv.wire) (h.inv.session.busOnly hst.session) (hst.faults.trans h.faults)
    (hst.session.life ▸ h.inv.visible h.faults) (hst.chipSelect (h.inv.chipSelect h.faults))

theorem Quiet.interrupted {s t : State} (h : Quiet s) (hst : Interrupted s t) : Inv t := by
  obtain ⟨f, hf⟩ := hst.faults
  exact inv_stopped (f := f) (hst.wire h.inv.wire) (h.inv.session.busOnly hst.session) (by simp [hf, h.faults])

theorem Quiet.busFailure {s : State} (h : Quiet s) (dc : Level) : Inv (afterBusFailure dc s.dev.forget s) := by
  have hw := (afterBusFail_transferred dc s).wire h.inv.wire
  exact inv_stopped ⟨hw.dev, hw.resetLine⟩
    ((h.inv.session.notReady (l := .failed) nofun).busOnly ⟨_, _, _, _, _, rfl⟩) (congrArg (· ++ _) h.faults)

theorem Quiet.frameFailure {s : State} (h : Quiet s) (dc : Level) : Inv (afterFrameFailure dc s.dev.forget s) := by
  have hw := (afterBusFail_transferred dc s).wire h.inv.wire
  exact inv_stopped ⟨hw.dev, hw.resetLine⟩ (h.inv.session.frameFailed.busOnly ⟨_, _, _, _, _, rfl⟩)
    (congrArg (· ++ _) h.faults)

theorem Quiet.answer {s : State} (h : Quiet s) (r : Result) : Quiet (s.answer r) := by
  obtain ⟨i, hf⟩ := h
  exact quiet_of ⟨i.dev, i.resetLine⟩
    ⟨i.font, i.created, fun hr => ⟨(i.ready hr).panel, (i.ready hr).orient, (i.ready hr).flags⟩, i.backlight⟩
    hf (i.visible hf) (i.chipSelect hf)

theorem Quiet.setPower {s : State} (h : Quiet s) (on : Bool) : Quiet (s.setPower on) := by
  obtain ⟨i, hf⟩ := h
  exact quiet_of ⟨i.dev, i.resetLine⟩
    ⟨i.font, i.created, fun hr => ⟨(i.ready hr).panel, (i.ready hr).orient, nofun, (i.ready hr).flags.2⟩, i.backlight⟩
    hf (i.visible hf) (i.chipSelect hf)

theorem Quiet.setInverted {s : State} (h : Quiet s) (on : Bool) : Quiet (s.setInverted on) := by
  obtain ⟨i, hf⟩ := h
  exact quiet_of ⟨i.dev, i.resetLine⟩
    ⟨i.font, i.created, fun hr => ⟨(i.ready hr).panel, (i.ready hr).orient, (i.ready hr).flags.1, nofun⟩, i.backlight⟩
    hf (i.visible hf) (i.chipSelect hf)

theorem Quiet.backlight {s : State} (h : Quiet s) (on : Bool) (hb : s.blPresent = some true) :
    Quiet ((drive .bl on s).setBacklight on) := by
  obtain ⟨i, hf⟩ := h
  exact quiet_of ⟨i.dev, i.resetLine⟩
    ⟨i.font, i.created, fun hr => ⟨(i.ready hr).panel, (i.ready hr).orient, (i.ready hr).flags⟩, fun _ => hb⟩
    hf (i.visible hf) (i.chipSelect hf)

theorem Quiet.pending {s : State} (h : Quiet s) (q : List Inbound) : Quiet { s with pending := q } := by
  obtain ⟨i, hf⟩ := h
  exact quiet_of ⟨i.dev, i.resetLine⟩
    ⟨i.font, i.created, fun hr => ⟨(i.ready hr).panel, (i.ready hr).orient, (i.ready hr).flags⟩, i.backlight⟩
    hf (i.visible hf) (i.chipSelect hf)

theorem resetPulse_busOnly (s : State) : BusOnly s (resetPulse s) := by
  have hd : ∀ l v t, BusOnly t (drive l v t) := fun _ _ _ => ⟨_, _, _, _, _, rfl⟩
  have he : ∀ k t, BusOnly t (hold k t) := fun _ _ => ⟨_, _, _, _, _, rfl⟩
  exact (hd ..).trans <| (he ..).trans <| (hd ..).trans <| (he ..).trans <| (hd ..).trans (he ..)

theorem resetPulse_transferred (s : State) : Transferred s (resetPulse s) where
  session := resetPulse_busOnly s
  faults := resetPulse_faults s
  wire := fun _ => ⟨by rw [resetPulse_dev]; exact devInv_forget _, by simp⟩
  chipSelect := fun h => by simpa using h

/-! ### CREATE, the data frame and INITIALIZE -/

theorem Quiet.create {s : State} (h : Quiet s) (rm cm : Half) (bl : Bool) :
    Quiet
      { s with
        life := .uninitialized, rm := some rm, cm := some cm, blPresent := some bl, W := none, H := none,
        orient := none, powerOn := none, inverted := none, blOn := none, ret := .unit } :=
  quiet_of ⟨h.inv.dev, h.inv.resetLine⟩ ⟨h.inv.font, by simp, nofun, fun hb => absurd rfl hb⟩ h.faults (.inl rfl)
    (h.inv.chipSelect h.faults)

/-- What holds of a request under way, and when it completes: no fault, and the invariant. -/
def KeepsQuiet (s t : State) : Prop := Quiet s → Quiet t

/-- What holds of a request that a fault ended: the invariant. -/
def KeepsInv (s t : State) : Prop := Quiet s → Inv t

theorem sendFrame_keepsInv (dc : Level) (bytes : List Byte) (s : State) :
    (sendFrame dc bytes s).Ends KeepsQuiet KeepsInv s :=
  sendFrame_cases (P := Run.Ends _ _ s) dc bytes s (fun _ _ h => h.transferred (afterFrame_transferred dc bytes s))
    (fun f _ _ h => h.interrupted (afterFault_interrupted dc bytes _ f s)) (fun _ h => h.frameFailure dc)

theorem keepsInv_lifts : LiftsExec KeepsQuiet KeepsQuiet KeepsInv where
  refl := fun _ h => h
  trans := fun h1 h2 h => h2 (h1 h)
  transE := fun h1 h2 h => h2 (h1 h)
  fault := fun f _ _ h => h.withFault f
  send := fun dc bytes s => send_cases (P := Run.Ends _ _ s) dc bytes s
    (fun _ _ h => h.transferred (afterFrame_transferred dc bytes s))
    (fun f _ _ h => h.interrupted (afterFault_interrupted dc bytes _ f s)) (fun _ h => h.busFailure dc)
  answer := fun r _ _ hst h => (hst h).answer r
  power := fun on _ _ hst _ h => ((hst h).setPower on).answer .unit
  inverted := fun on _ _ hst _ h => ((hst h).setInverted on).answer .unit
  backlight := fun on _ hb h => (h.backlight on hb).answer _
  pulse := fun s _ h => (h.transferred (resetPulse_transferred s)).answer .unit

/-- The parameters INITIALIZE accepts are a panel that fits, with the margins of CREATE (R135). -/
theorem sessionParameters_fits {w k : Half} {orient : Byte} {o : Fin 4} {s : State}
    (h : sessionParameters w k orient s = some o) :
    ∃ rm cm, s.rm = some rm ∧ s.cm = some cm ∧ Panel.Fits ⟨w.toNat, k.toNat, rm.toNat, cm.toNat⟩ := by
  unfold sessionParameters at h
  split at h
  · rename_i rm cm hr hc
    split at h
    · cases h
    · split at h
      · cases h
      · exact ⟨rm, cm, hr, hc, by simp only [Panel.Fits]; omega⟩
  · cases h

/-- The session as INITIALIZE takes it up: not ready yet, its size and orientation written (R135). -/
theorem startBringUp_session {s : State} (h : SessionInv s) (w k : Half) (o : Fin 4) :
    SessionInv (startBringUp w k o s) where
  font := by simpa using h.font
  created := by simpa using h.created
  ready := fun hr => by simp at hr
  backlight := by simpa using h.backlight

theorem startBringUp_wire (w k : Half) (o : Fin 4) (s : State) : WireInv (startBringUp w k o s) where
  dev := by rw [startBringUp_dev]; exact devInv_forget _
  resetLine := by simp

/-- After a bring-up the session is as INITIALIZE took it up, and the bus is quiet (R135, R137). -/
theorem Quiet.broughtUp {s t : State} (h : Quiet s) {w k : Half} {o : Fin 4} (ht : Transferred (startBringUp w k o s) t) :
    WireInv t ∧ SessionInv t ∧ t.faults = [] ∧ t.lvl.cs ≠ some false :=
  ⟨ht.wire (startBringUp_wire w k o s), (startBringUp_session h.inv.session w k o).busOnly ht.session,
    ht.faults.trans (by simpa using h.faults), ht.chipSelect (by simpa using h.inv.chipSelect h.faults)⟩

theorem Quiet.initialised {s t : State} (h : Quiet s) {w k : Half} {orient : Byte} {o : Fin 4}
    (hp : sessionParameters w k orient s = some o) (ht : Transferred (startBringUp w k o s) t) :
    Quiet ((({ t with life := .ready } : State).setPower true |>.setInverted false).answer (.status true)) := by
  obtain ⟨hw, hs, hf, hc⟩ := h.broughtUp ht
  obtain ⟨rm, cm, hrm, hcm, hfits⟩ := sessionParameters_fits hp
  have hpanel : t.panel = some ⟨w.toNat, k.toNat, rm.toNat, cm.toNat⟩ := by
    obtain ⟨_, _, _, _, _, rfl⟩ := ht.session
    simp [State.panel, hrm, hcm]
  have horient : t.orient = some o := by
    obtain ⟨_, _, _, _, _, rfl⟩ := ht.session
    simp
  exact quiet_of ⟨hw.dev, hw.resetLine⟩
    ⟨hs.font, hs.created, fun _ => ⟨⟨_, hpanel, hfits⟩, by simp [horient], nofun, nofun⟩, hs.backlight⟩ hf
    (.inr (.inl rfl)) hc

theorem Quiet.initFailed {s t : State} (h : Quiet s) {w k : Half} {o : Fin 4} (ht : Transferred (startBringUp w k o s) t) :
    Quiet (({ t with life := .failed } : State).answer (.status false)) := by
  obtain ⟨hw, hs, hf, hc⟩ := h.broughtUp ht
  exact quiet_of ⟨hw.dev, hw.resetLine⟩ ⟨hs.font, hs.created, nofun, hs.backlight⟩ hf (.inr (.inr rfl)) hc

theorem Quiet.initInterrupted {s t : State} (h : Quiet s) {w k : Half} {o : Fin 4}
    (ht : Interrupted (startBringUp w k o s) t) : Inv t := by
  obtain ⟨f, hf⟩ := ht.faults
  exact inv_stopped (f := f) (ht.wire (startBringUp_wire w k o s))
    ((startBringUp_session h.inv.session w k o).busOnly ht.session) (by simp [hf, h.faults])

theorem execInitialise_keepsInv (w k : Half) (o : Byte) (s : State) :
    ∃ r, execInitialise w k o s = complete r ∧ r.Ends KeepsQuiet KeepsInv s :=
  initialise_ends transferred_lifts w k o s (fun f _ h => h.withFault f) (fun _ _ _ hp ht h => h.initialised hp ht)
    (fun _ _ _ _ ht h => h.initFailed ht) (fun _ _ _ _ ht h => h.initInterrupted ht)

/-! ### Every step -/

theorem Run.Ends.keepsInv {s : State} {r : Run} (hr : r.Ends KeepsQuiet KeepsInv s) (hs : Quiet s) : Inv r.state := by
  cases r with
  | ok u => exact (hr hs).inv
  | error u => exact hr hs

theorem Quiet.exec {s t : State} (hs : Quiet s) {i : Instr} (h : exec i s = .next t) : Inv t := by
  obtain ⟨r, hr, rfl⟩ := keepsInv_lifts.next h (fun _ _ => sendFrame_keepsInv ..) (fun rm cm bl _ h => h.create rm cm bl)
    (fun w k o _ => execInitialise_keepsInv w k o s)
  exact hr.keepsInv hs

theorem Quiet.dataFrame {s t : State} (hs : Quiet s) {bytes : List Byte} (h : sendDataFrame bytes s = .next t) : Inv t := by
  cases h
  exact (sendFrame_keepsInv true bytes s).keepsInv hs

/-- Settles O53: a step starts with no fault recorded, and then every operation of a request keeps the invariant. -/
theorem stepKeepsInvariant : Obligations.StepKeepsInvariant := by
  intro s t hs h
  obtain ⟨hf, ⟨i, q, hi⟩ | ⟨bytes, q, hb⟩ | rfl⟩ := step_next h
  · exact (Quiet.pending ⟨hs, hf⟩ q).exec hi
  · exact (Quiet.pending ⟨hs, hf⟩ q).dataFrame hb
  · exact Quiet.withFault ⟨hs, hf⟩ _

/-- Settles O2: power-up has no memory write, no ready session, no fault and no asserted line. -/
theorem resetMeetsInvariant : Obligations.ResetMeetsInvariant where
  dev := devInv_powerUp
  font := rfl
  created := by decide
  ready := nofun
  backlight := fun h => absurd rfl h
  oneFault := Nat.zero_le _
  visible := fun _ => .inl rfl
  chipSelect := fun _ => nofun
  resetLine := nofun

end Sys2Proof.Machine
end

section
/-! SUPPORT. The events of a step decide the controller, the lines and the transfer count (O54): each operation appends
events that explain what it did, and explanations compose. -/

namespace Sys2Proof.Machine

/-- `t` comes from `s` by events that explain it; the parameters are kept, and reset is not left asserted. -/
structure Traced (s t : State) : Prop where
  events : ∃ es, Explains es s t
  par : t.par = s.par
  resetLine : s.lvl.rst ≠ some false → t.lvl.rst ≠ some false

/-! ### Explanations compose -/

theorem bytesFramed_append (es fs : List Event) : ∀ l : Levels,
    bytesFramed l (es ++ fs) ↔ bytesFramed l es ∧ bytesFramed (es.foldl Levels.onEvent l) fs := by
  induction es with
  | nil => intro l; simp [bytesFramed]
  | cons e es ih =>
    intro l
    cases e <;> simp [bytesFramed, Levels.onEvent, ih, and_assoc]

theorem Explains.trans {es fs : List Event} {s t u : State} (h1 : Explains es s t) (h2 : Explains fs t u)
    (hp : t.par = s.par) (hr : s.lvl.rst ≠ some false → t.lvl.rst ≠ some false) : Explains (es ++ fs) s u where
  trace := by rw [h2.trace, h1.trace, List.append_assoc]
  dev := by rw [h2.dev, h1.dev, hp, List.foldl_append]
  lvl := by rw [h2.lvl, h1.lvl, List.foldl_append]
  xfers := by rw [h2.xfers, h1.xfers, List.countP_append, Nat.add_assoc]
  framed := fun h => (bytesFramed_append ..).2 ⟨h1.framed h, h1.lvl ▸ h2.framed (hr h)⟩

theorem Traced.trans {s t u : State} (h1 : Traced s t) (h2 : Traced t u) : Traced s u := by
  obtain ⟨es, he⟩ := h1.events
  obtain ⟨fs, hf⟩ := h2.events
  exact ⟨⟨es ++ fs, he.trans hf h1.par h1.resetLine⟩, h2.par.trans h1.par, h2.resetLine ∘ h1.resetLine⟩

/-- What writes neither trace, controller, lines nor the transfer count needs no event. -/
theorem traced_of_same {s t : State} (trace : t.trace = s.trace) (dev : t.dev = s.dev) (lvl : t.lvl = s.lvl)
    (xfers : t.xfers = s.xfers) (par : t.par = s.par) : Traced s t :=
  ⟨⟨[], by simpa using trace, dev, lvl, xfers, fun _ => trivial⟩, par, fun h => lvl ▸ h⟩

theorem Traced.refl (s : State) : Traced s s := traced_of_same rfl rfl rfl rfl rfl

/-! ### The events of a transfer -/

/-- The bytes shifted out are what the controller consumed (R131, R170). -/
theorem foldl_onEvent_sent (par : Params) (dc : Level) (bytes : List Byte) : ∀ d : Dev,
    ((devFrame par dc bytes d).sent.map (Event.byte dc)).foldl (Dev.onEvent par) d = (devFrame par dc bytes d).dev := by
  induction bytes with
  | nil => intro d; rfl
  | cons b bs ih =>
    intro d
    rw [devFrame]
    split
    next d' hb => simp [Dev.onEvent, hb, ih]
    next f d' hb => simp [Dev.onEvent, hb]

@[simp] theorem foldl_levels_bytes (dc : Level) (bytes : List Byte) (l : Levels) :
    (bytes.map (Event.byte dc)).foldl Levels.onEvent l = l := by
  induction bytes with
  | nil => rfl
  | cons b bs ih => exact ih

@[simp] theorem countP_startsTransfer_bytes (dc : Level) (bytes : List Byte) :
    (bytes.map (Event.byte dc)).countP Event.startsTransfer = 0 := by
  induction bytes with
  | nil => rfl
  | cons b bs ih => exact ih

theorem bytesFramed_bytes {dc : Level} {l : Levels} (hc : l.cs = some false) (hr : l.rst ≠ some false)
    (hd : l.dc = some dc) (bytes : List Byte) : bytesFramed l (bytes.map (Event.byte dc)) := by
  induction bytes with
  | nil => trivial
  | cons b bs ih => exact ⟨hc, hr, hd, ih⟩

/-- A transfer's events: its start, the bytes of its frame up to the fault, and its end, which sends no byte. -/
theorem explains_transfer {s t : State} {dc : Level} {bytes : List Byte} {last : List Event} {r : FrameRun}
    (hr : devFrame s.par dc bytes s.dev = r)
    (trace : t.trace = s.trace ++ ([.drive .dc dc, .drive .cs false] ++ r.sent.map (Event.byte dc) ++ last))
    (dev : t.dev = last.foldl (Dev.onEvent s.par) r.dev)
    (lvl : t.lvl = last.foldl Levels.onEvent { s.lvl with dc := some dc, cs := some false })
    (xfers : t.xfers = s.xfers + 1) (noTransfer : last.countP Event.startsTransfer = 0)
    (noByte : ∀ l, bytesFramed l last) :
    Explains ([.drive .dc dc, .drive .cs false] ++ r.sent.map (Event.byte dc) ++ last) s t where
  trace := trace
  dev := by
    rw [dev, ← hr, ← foldl_onEvent_sent]
    simp [Dev.onEvent, Dev.onDrive]
  lvl := by rw [lvl]; simp [Levels.onEvent, Levels.drive]
  xfers := by rw [xfers]; simp [List.countP_cons, Event.startsTransfer, noTransfer]
  framed := fun h => by
    rw [bytesFramed_append, bytesFramed_append]
    exact ⟨⟨trivial, bytesFramed_bytes (l := { s.lvl with dc := some dc, cs := some false }) rfl h rfl _⟩, noByte _⟩

theorem afterFrame_traced {dc : Level} {bytes : List Byte} {s : State}
    (hf : (devFrame s.par dc bytes s.dev).fault = none) :
    Traced s (afterFrame dc bytes (devFrame s.par dc bytes s.dev).dev s) :=
  ⟨⟨_, explains_transfer (last := [.drive .cs true]) rfl
    (by rw [devFrame_sent_of_no_fault hf]; rfl) rfl rfl rfl rfl fun _ => trivial⟩, rfl, id⟩

theorem afterFault_traced (dc : Level) (bytes : List Byte) (f : FaultCode) (s : State) :
    Traced s (afterFault dc (devFrame s.par dc bytes s.dev).sent (devFrame s.par dc bytes s.dev).dev f s) :=
  ⟨⟨_, explains_transfer (last := []) rfl (by simp [afterFault]) rfl rfl rfl rfl fun _ => trivial⟩, rfl, id⟩

/-- A failed transfer sends no byte: it is the transfer of no bytes, and then the failure (R131). -/
theorem afterBusFail_traced (dc : Level) (s : State) : Traced s (afterBusFail dc s.dev.forget s) :=
  ⟨⟨_, explains_transfer (bytes := []) (last := [.busFail]) rfl rfl rfl rfl rfl rfl fun _ => trivial⟩, rfl, id⟩

/-! ### Every operation -/

theorem resetPulse_traced (s : State) : Traced s (resetPulse s) where
  events := ⟨pulseEvents, resetPulse_trace s, by simp [pulseEvents, Dev.onEvent, Dev.onDrive],
    by simp [pulseEvents, Levels.onEvent, Levels.drive], resetPulse_xfers s, fun _ => trivial⟩
  par := resetPulse_par s
  resetLine := by simp

theorem backlight_traced (on : Bool) (s : State) : Traced s (drive .bl on s) :=
  ⟨⟨[.drive .bl on], rfl, rfl, rfl, rfl, fun _ => trivial⟩, rfl, id⟩

theorem settle_traced (k : Nat) (s : State) : Traced s (settle k s) :=
  ⟨⟨[.settle k], rfl, rfl, rfl, rfl, fun _ => trivial⟩, rfl, id⟩

theorem withFault_traced (f : FaultCode) (s : State) : Traced s (s.withFault f) := traced_of_same rfl rfl rfl rfl rfl

theorem traced_lifts : LiftsExec Traced Traced Traced where
  refl := .refl
  trans := .trans
  transE := .trans
  fault := fun f s _ => withFault_traced f s
  send := fun dc bytes s => send_cases (P := Run.Ends _ _ s) dc bytes s (fun _ hf => afterFrame_traced hf)
    (fun f _ _ => afterFault_traced dc bytes f s)
    (fun _ => (afterBusFail_traced dc s).trans (traced_of_same rfl rfl rfl rfl rfl))
  answer := fun _ _ _ h => h.trans (traced_of_same rfl rfl rfl rfl rfl)
  power := fun _ _ _ h _ => h.trans (traced_of_same rfl rfl rfl rfl rfl)
  inverted := fun _ _ _ h _ => h.trans (traced_of_same rfl rfl rfl rfl rfl)
  backlight := fun on s _ => (backlight_traced on s).trans (traced_of_same rfl rfl rfl rfl rfl)
  pulse := fun s _ => (resetPulse_traced s).trans (traced_of_same rfl rfl rfl rfl rfl)

theorem traced_liftsBringUp : LiftsBringUp Traced Traced Traced where
  refl := .refl
  trans := .trans
  transG := .trans
  transE := .trans
  settle := settle_traced
  xfer := fun dc bytes s => xfer_cases dc bytes s (fun _ hf => afterFrame_traced hf)
    (fun f _ _ => afterFault_traced dc bytes f s) (fun _ => afterBusFail_traced dc s)

theorem sendFrame_traced (dc : Level) (bytes : List Byte) (s : State) : (sendFrame dc bytes s).Ends Traced Traced s :=
  sendFrame_cases (P := Run.Ends _ _ s) dc bytes s (fun _ hf => afterFrame_traced hf)
    (fun f _ _ => afterFault_traced dc bytes f s)
    (fun _ => (afterBusFail_traced dc s).trans (traced_of_same rfl rfl rfl rfl rfl))

/-- INITIALIZE starts with the reset pulse; what it writes of the session has no event (R135). -/
theorem startBringUp_traced (w k : Half) (o : Fin 4) (s : State) : Traced s (startBringUp w k o s) :=
  (resetPulse_traced s).trans (traced_of_same (by simp) (by simp) (by simp) (by simp) (by simp))

theorem execInitialise_traced (w k : Half) (o : Byte) (s : State) :
    ∃ r, execInitialise w k o s = complete r ∧ r.Ends Traced Traced s := by
  have flags : ∀ {o : Fin 4} {t u : State}, Traced (startBringUp w k o s) t → Traced t u → Traced s u :=
    fun ht hu => (startBringUp_traced w k _ s).trans (ht.trans hu)
  exact initialise_ends traced_liftsBringUp w k o s (fun f _ => withFault_traced f s)
    (fun _ _ _ _ ht => flags ht (traced_of_same rfl rfl rfl rfl rfl))
    (fun _ _ _ _ ht => flags ht (traced_of_same rfl rfl rfl rfl rfl)) (fun _ _ _ _ ht => flags ht (.refl _))

theorem exec_traced {i : Instr} {s t : State} (h : exec i s = .next t) : Traced s t := by
  obtain ⟨r, hr, rfl⟩ := traced_lifts.next h (fun _ _ => sendFrame_traced ..)
    (fun _ _ _ _ => traced_of_same rfl rfl rfl rfl rfl) (fun w k o _ => execInitialise_traced w k o s)
  exact hr.next rfl

/-- Taking the message from the queue has no event. -/
theorem Traced.ofPending {s t : State} {q : List Inbound} (h : Traced { s with pending := q } t) : Traced s t :=
  Traced.trans (t := { s with pending := q }) (traced_of_same rfl rfl rfl rfl rfl) h

/-- Settles O54: each operation of a step appends the events that explain it. -/
theorem traceDecides : Obligations.TraceDecides := by
  intro s t h
  obtain ⟨-, ⟨i, q, hi⟩ | ⟨bytes, q, hb⟩ | rfl⟩ := step_next h
  · exact (exec_traced hi).ofPending.events
  · exact (Traced.ofPending ((sendFrame_traced ..).next hb)).events
  · exact (withFault_traced ..).events

end Sys2Proof.Machine
end

section
/-! SUPPORT. The session flags mirror the controller (O28): a bring-up that completes is the whole sequence, and a command
frame that completes has the effect of its command. -/

namespace Sys2Proof.Machine

/-! ### The bring-up -/

/-- Steps the controller takes without a fault all complete, or the bus fails (R135, R137). -/
theorem bringUp_ok_or_fail {steps : List BringUpStep} {s : State} (hc : CodesDistinct s.par.cmd)
    (hd : s.dev.Clean s.par.cmd) (hs : ∀ st ∈ steps, stepOk st) :
    bringUp steps s = .ok (steps.foldl afterStep s) ∨ ∃ t, bringUp steps s = .fail t := by
  by_cases hb : ∃ m, s.xfers ≤ m ∧ m < s.xfers + (steps.map stepTransfers).sum ∧ busOk s.par m = false
  · obtain ⟨h1, h2, h3⟩ := Nat.find_spec hb
    obtain ⟨t, ht, _⟩ := bringUp_fail steps hc hd hs h1 h2
      (fun n hn hlt => by
        have := Nat.find_min hb hlt
        by_contra hbad
        exact this ⟨hn, by omega, by simpa using hbad⟩) h3
    exact .inr ⟨t, ht⟩
  · refine .inl (bringUp_ok steps hc hd hs fun m h1 h2 => ?_)
    by_contra hbad
    exact hb ⟨m, h1, h2, by simpa using hbad⟩

/-- With four-byte window blocks the controller takes every step of the sequence (R136). -/
theorem initSeq_ok {init : InitParams} (hcol : init.caset.length = 4) (hrow : init.raset.length = 4) (o : Fin 4) :
    ∀ st ∈ initSeq init o, stepOk st := by
  simp [initSeq, stepOk, hcol, hrow]

/-- The sequence leaves the display on and not inverted (steps 13 and 21 of R136). -/
theorem initSeq_modes (cmd : CmdTable) (init : InitParams) (o : Fin 4) (d : Dev) :
    ((initSeq init o).foldl (stepEffect cmd) d).dispOn = some true ∧
    ((initSeq init o).foldl (stepEffect cmd) d).invOn = some false := ⟨rfl, rfl⟩

/-- An INITIALIZE that answers `Status(ok)` ran the whole sequence over a reset controller (R135). -/
theorem execInitialise_ok_dev {w k : Half} {orient : Byte} {s t : State} (hc : CodesDistinct s.par.cmd)
    (hcol : s.par.init.caset.length = 4) (hrow : s.par.init.raset.length = 4)
    (h : execInitialise w k orient s = .next t) (hf : t.faults = []) (hr : t.ret = .status true) :
    t.powerOn = some true ∧ t.inverted = some false ∧
    ∃ o, t.dev = (initSeq s.par.init o).foldl (stepEffect s.par.cmd) s.dev.forget := by
  unfold execInitialise at h
  split at h
  · cases h; simp at hf
  split at h
  · cases h; simp at hf
  split at h
  · cases h; simp at hf
  rename_i o _
  have hok := bringUp_ok_or_fail (s := startBringUp w k o s) (by simpa using hc)
    (by simpa using Dev.clean_of (d := s.dev.forget) rfl (.inl rfl)) (initSeq_ok hcol hrow o)
  obtain hok | ⟨u, hfail⟩ := hok
  · rw [hok] at h; cases h
    exact ⟨rfl, rfl, o, by simp [foldl_afterStep]⟩
  · rw [hfail] at h; cases h; cases hr

/-! ### Command frames -/

/-- A command byte taken without a fault has its command's effect (R172). -/
theorem devByte_command_ok {par : Params} (hc : CodesDistinct par.cmd) {name : WireName} {d d' : Dev}
    (h : devByte par false (par.cmd.code name) d = .ok d') :
    onLatch (par.cmd.code name) (d.latched (par.cmd.code name)) name = .ok d' := by
  have hd : d.Clean par.cmd := by
    simp only [devByte, devCommand, Bool.false_eq_true, if_false] at h
    split at h
    · cases h
    · split at h
      · cases h
      · exact ⟨by simp_all, by simp_all⟩
  rwa [devByte_command hc hd] at h

/-- A command of a request whose transfer completes has its effect on the controller, and writes no session flag. -/
theorem wcmd_ok_latched {name : WireName} {s u : State} (hc : CodesDistinct s.par.cmd) (h : wcmd name s = .ok u) :
    onLatch (s.par.cmd.code name) (s.dev.latched (s.par.cmd.code name)) name = .ok u.dev ∧
    u.powerOn = s.powerOn ∧ u.inverted = s.inverted := by
  by_cases hb : busOk s.par s.xfers = true
  · cases hf : (devFrame s.par false [s.par.cmd.code name] s.dev).fault with
    | some f => rw [wcmd, send_raised hb hf] at h; cases h
    | none =>
      rw [wcmd, send_ok hb hf] at h; cases h
      refine ⟨devByte_command_ok hc ?_, rfl, rfl⟩
      rw [afterFrame_dev]
      cases hd : devByte s.par false (s.par.cmd.code name) s.dev with
      | ok d => simp [devFrame, hd]
      | error fd => simp [devFrame, hd] at hf
  · rw [wcmd, send_fail (by simpa using hb)] at h; cases h

/-- A gated request that sends one command and ends with no fault recorded sent it whole. -/
theorem gated_wcmd_ok {name : WireName} {g : State → State} {s t : State} (ht : t.faults = [])
    (h : complete (do let s ← readyGate s; let s ← wcmd name s; .ok (g s)) = .next t) :
    ∃ u, wcmd name s = .ok u ∧ t = g u := by
  by_cases hs : s.life = .ready
  · have hw := unfaulted_lifts.wcmd name s
    rw [readyGate_ready hs, bind_ok] at h
    cases hr : wcmd name s with
    | ok u => rw [hr] at h; cases h; exact ⟨u, rfl, rfl⟩
    | error u => rw [hr] at h hw; cases h; exact absurd ht hw.faults_ne_nil
  · obtain ⟨f, hg⟩ := readyGate_closed hs
    rw [hg] at h; cases h; simp at ht

/-- The session's display and inversion flags are the controller's (R44). -/
def Mirrors (s : State) : Prop := s.powerOn = s.dev.dispOn ∧ s.inverted = s.dev.invOn

theorem onLatch_display {on : Bool} {b : Byte} {d d' : Dev}
    (h : onLatch b d (if on then .dispon else .dispoff) = .ok d') : d'.dispOn = some on ∧ d'.invOn = d.invOn := by
  cases on <;> cases h <;> exact ⟨rfl, rfl⟩

theorem onLatch_inversion {on : Bool} {b : Byte} {d d' : Dev}
    (h : onLatch b d (if on then .invon else .invoff) = .ok d') : d'.invOn = some on ∧ d'.dispOn = d.dispOn := by
  cases on <;> cases h <;> exact ⟨rfl, rfl⟩

theorem execPower_mirrors {on : Bool} {s t : State} (hc : CodesDistinct s.par.cmd) (ht : t.faults = [])
    (hs : Mirrors s) (h : execPower on s = .next t) : Mirrors t := by
  obtain ⟨u, hu, rfl⟩ := gated_wcmd_ok ht h
  obtain ⟨hl, _, hi⟩ := wcmd_ok_latched hc hu
  obtain ⟨hon, hkept⟩ := onLatch_display hl
  exact ⟨hon.symm, hi.trans (hs.2.trans hkept.symm)⟩

theorem execInvert_mirrors {on : Bool} {s t : State} (hc : CodesDistinct s.par.cmd) (ht : t.faults = [])
    (hs : Mirrors s) (h : execInvert on s = .next t) : Mirrors t := by
  obtain ⟨u, hu, rfl⟩ := gated_wcmd_ok ht h
  obtain ⟨hl, hp, _⟩ := wcmd_ok_latched hc hu
  obtain ⟨hon, hkept⟩ := onLatch_inversion hl
  exact ⟨hp.trans (hs.1.trans hkept.symm), hon.symm⟩

/-- Settles O28: INITIALIZE writes both flags with what its last mode commands set; POWER and INVERT write the flag of the
mode their command sets. -/
theorem sessionMirrorsController : Obligations.SessionMirrorsController := by
  intro s t hc _ ht
  refine ⟨fun ⟨w, k, o, h⟩ hcol hrow hr _ => ?_, fun ⟨on, h⟩ hp hi => ?_⟩
  · obtain ⟨hpow, hinv, o, hdev⟩ := execInitialise_ok_dev hc hcol hrow h ht hr
    obtain ⟨hd, hv⟩ := initSeq_modes s.par.cmd s.par.init o s.dev.forget
    exact ⟨by rw [hpow, hdev, hd], by rw [hinv, hdev, hv]⟩
  · rcases h with h | h
    · exact execPower_mirrors hc ht ⟨hp, hi⟩ h
    · exact execInvert_mirrors hc ht ⟨hp, hi⟩ h

end Sys2Proof.Machine
end

section
/-! SUPPORT. The fault list, the lifecycle, the failed session and the decoded step (O4, O55, O20, O3), from what an
instruction can do to fault list and lifecycle (`exec_course`) and from the gate. -/

namespace Sys2Proof.Machine

theorem step_stopped {s : State} (h : s.faults ≠ []) : step s = .fault .blockStopped := by simp [step, fetch, h]

theorem Course.faults_grow {s t : State} (h : Course s t) : s.faults <+: t.faults := by
  obtain ⟨_, h | ⟨f, h⟩⟩ | ⟨_, _, h⟩ := h
  · rw [h]
  · exact ⟨_, h.symm⟩
  · exact ⟨_, h.symm⟩

theorem InitCourse.faults_grow {s t : State} (h : InitCourse s t) : s.faults <+: t.faults := by
  obtain ⟨_, ⟨_, _, h⟩ | ⟨_, _, h⟩ | ⟨_, f, h⟩⟩ := h
  · rw [h]
  · rw [h]
  · exact ⟨_, h.symm⟩

theorem exec_faults_grow {i : Instr} {s t : State} (h : exec i s = .next t) : s.faults <+: t.faults := by
  obtain hc | ⟨_, _, hf⟩ | ⟨_, hi⟩ := exec_course i h
  · exact hc.faults_grow
  · rw [hf]
  · exact hi.faults_grow

/-- Settles O4: a step appends at most one fault, and a block with a fault takes no step. -/
theorem faultsAreSticky : Obligations.FaultsAreSticky :=
  ⟨rfl, fun _ _ _ h => exec_faults_grow h, fun _ _ _ h => ((sendFrame_course ..).next h).faults_grow,
    fun _ _ _ _ => ⟨_, rfl, rfl⟩, fun _ h => step_stopped h⟩

theorem Course.life {s t : State} (h : Course s t) :
    t.life = s.life ∨ (s.life = .ready ∧ t.life = .failed ∧ t.faults = s.faults ++ [.busFailure]) :=
  h.imp_left And.left

/-- Settles O55: apart from CREATE and INITIALIZE only a bus failure moves the lifecycle, and only from `Ready`. -/
theorem lifecycleTransitions : Obligations.LifecycleTransitions := by
  refine ⟨fun i s t h => ?_, fun bytes s t h => ((sendFrame_course ..).next h).life⟩
  obtain hc | ⟨hi, hl, _⟩ | ⟨hi, hs, hc⟩ := exec_course i h
  · exact hc.life.imp_right fun hb => .inr (.inr hb)
  · exact .inr (.inl ⟨hi, hl⟩)
  · exact .inr (.inr (.inl ⟨hi, hs, hc⟩))

/-- Settles O20: the gate of a failed session, and the same check of RESET and INITIALIZE, turn a request away. -/
theorem failedSession : Obligations.FailedSession := by
  intro s hs
  refine ⟨fun i => ?_, fun r g b => rfl, fun rm cm bl => ⟨_, rfl, rfl⟩⟩
  induction i using instr_by_gate with
  | gated i hi => exact fun _ _ _ => exec_gated_closed hi (readyGate_failed hs)
  | frame name => exact fun hw => by rw [WireName.wireName_instr] at hw; cases hw
  | create rm cm bl => exact fun _ hn => absurd rfl (hn rm cm bl)
  | reset => exact fun _ _ _ => congrArg complete (if_pos hs)
  | initialise w k o => exact fun _ _ _ => congrArg complete (if_pos hs)
  | packColor r g b => exact fun _ _ hn => absurd rfl (hn r g b)

/-- Settles O3: each answer of the decoder has its own outcome of `fetch`. -/
theorem stepRunsWhatItDecodes : Obligations.StepRunsWhatItDecodes := by
  intro s m q hf hq
  refine ⟨fun i rest hd => ?_, fun bytes hm => ?_, fun hd => ?_, fun hd => ?_, fun hd => ?_⟩
  · simp [step, fetch, hf, hq, hd]
  · simp [step, fetch, hf, hq, hm, decode]
  · simp [step, fetch, hf, hq, hd, complete]
  · simp [step, fetch, hf, hq, hd]
  · simp [step, fetch, hf, hq, hd]

end Sys2Proof.Machine
end

section
/-! SUPPORT. What a run is given, its font memory, its parameters and its queue of messages, is kept by every instruction
(O57): a transfer writes none of it, and neither does any other operation. -/

namespace Sys2Proof.Machine

/-- The font memory, the parameters and the queue of `t` are those of `s`. -/
structure SameRun (s t : State) : Prop where
  font : t.font = s.font
  par : t.par = s.par
  pending : t.pending = s.pending

theorem SameRun.refl (s : State) : SameRun s s := ⟨rfl, rfl, rfl⟩

theorem SameRun.trans {s t u : State} (h1 : SameRun s t) (h2 : SameRun t u) : SameRun s u :=
  ⟨h2.font.trans h1.font, h2.par.trans h1.par, h2.pending.trans h1.pending⟩

theorem BusOnly.sameRun {s t : State} (h : BusOnly s t) : SameRun s t := by
  obtain ⟨_, _, _, _, _, rfl⟩ := h
  exact ⟨rfl, rfl, rfl⟩

/-- A frame by itself that fails writes the lifecycle as well (log 2). -/
theorem sendFrame_sameRun (dc : Level) (bytes : List Byte) (s : State) :
    (sendFrame dc bytes s).Ends SameRun SameRun s :=
  sendFrame_cases (P := Run.Ends _ _ s) dc bytes s (fun _ _ => (afterFrame_transferred dc bytes s).session.sameRun)
    (fun f _ _ => (afterFault_interrupted dc bytes _ f s).session.sameRun) (fun _ => ⟨rfl, rfl, rfl⟩)

theorem sameRun_lifts : LiftsExec SameRun SameRun SameRun where
  refl := .refl
  trans := .trans
  transE := .trans
  fault := fun _ _ _ => ⟨rfl, rfl, rfl⟩
  send := fun dc bytes s => send_cases (P := Run.Ends _ _ s) dc bytes s
    (fun _ _ => (afterFrame_transferred dc bytes s).session.sameRun)
    (fun f _ _ => (afterFault_interrupted dc bytes _ f s).session.sameRun) (fun _ => ⟨rfl, rfl, rfl⟩)
  answer := fun _ _ _ h => h.trans ⟨rfl, rfl, rfl⟩
  power := fun _ _ _ h _ => h.trans ⟨rfl, rfl, rfl⟩
  inverted := fun _ _ _ h _ => h.trans ⟨rfl, rfl, rfl⟩
  backlight := fun _ _ _ => ⟨rfl, rfl, rfl⟩
  pulse := fun s _ => (resetPulse_busOnly s).sameRun.trans ⟨rfl, rfl, rfl⟩

theorem startBringUp_sameRun (w k : Half) (o : Fin 4) (s : State) : SameRun s (startBringUp w k o s) :=
  ⟨startBringUp_font .., startBringUp_par .., startBringUp_pending ..⟩

theorem execInitialise_sameRun (w k : Half) (o : Byte) (s : State) :
    ∃ r, execInitialise w k o s = complete r ∧ r.Ends SameRun SameRun s := by
  have broughtUp : ∀ {o : Fin 4} {t : State}, BusOnly (startBringUp w k o s) t → SameRun s t :=
    fun ht => (startBringUp_sameRun w k _ s).trans ht.sameRun
  exact initialise_ends transferred_lifts w k o s (fun _ _ => ⟨rfl, rfl, rfl⟩)
    (fun _ _ _ _ ht => (broughtUp ht.session).trans ⟨rfl, rfl, rfl⟩)
    (fun _ _ _ _ ht => (broughtUp ht.session).trans ⟨rfl, rfl, rfl⟩) (fun _ _ _ _ ht => broughtUp ht.session)

theorem exec_sameRun {i : Instr} {s t : State} (h : exec i s = .next t) : SameRun s t := by
  obtain ⟨r, hr, rfl⟩ := sameRun_lifts.next h (fun _ _ => sendFrame_sameRun ..) (fun _ _ _ _ => ⟨rfl, rfl, rfl⟩)
    (fun w k o _ => execInitialise_sameRun w k o s)
  exact hr.next rfl

/-- Settles O57: every operation of an instruction keeps what the run is given. -/
theorem runIsFixed : Obligations.RunIsFixed := by
  intro i s t h
  obtain ⟨hfont, hpar, hpending⟩ := exec_sameRun h
  exact ⟨hfont, hpar, hpending⟩

end Sys2Proof.Machine
end

section
/-! SUPPORT. The request decoder against the encoder: everything a complete request can be read as, one lemma for each
row of the field tables (`decodeFields_reads`), and what the encoding of a request is read as
(`decodeRequest_encodeRequest`). -/

namespace Sys2Proof.Machine

/-! ### Reading one field and going on (R91, R94) -/

section
variable {α : Type} {bs : List Byte} {y : α} {n : Nat}

theorem readByte_bind {k : Byte × List Byte → Option α} :
    (readByte bs >>= k) = some y ↔ ∃ b r, bs = b :: r ∧ k (b, r) = some y := by
  simp [Option.bind_eq_some_iff, readByte_iff]

theorem readHalf_bind {k : Half × List Byte → Option α} :
    (readHalf bs >>= k) = some y ↔ ∃ v r, bs = putHalf v ++ r ∧ k (v, r) = some y := by
  simp [Option.bind_eq_some_iff, readHalf_iff]

theorem readWord_bind {k : Word × List Byte → Option α} :
    (readWord bs >>= k) = some y ↔ ∃ v r, bs = putWord v ++ r ∧ k (v, r) = some y := by
  simp [Option.bind_eq_some_iff, readWord_iff]

theorem readBytes_bind {k : List Byte × List Byte → Option α} :
    (readBytes n bs >>= k) = some y ↔ ∃ xs r, (bs = xs ++ r ∧ xs.length = n) ∧ k (xs, r) = some y := by
  simp [Option.bind_eq_some_iff, readBytes_iff]

theorem readByte_bind_isSome {k : Byte × List Byte → Option α} (h : n + 1 ≤ bs.length)
    (hk : ∀ b r, n ≤ r.length → (k (b, r)).isSome) : (readByte bs >>= k).isSome :=
  match bs, h with
  | b :: r, h => hk b r (Nat.le_of_succ_le_succ h)

theorem readHalf_bind_isSome {k : Half × List Byte → Option α} (h : n + 2 ≤ bs.length)
    (hk : ∀ v r, n ≤ r.length → (k (v, r)).isSome) : (readHalf bs >>= k).isSome :=
  match bs, h with
  | a :: b :: r, h => hk (be16 a b) r (by simpa using h)

theorem readWord_bind_isSome {k : Word × List Byte → Option α} (h : n + 4 ≤ bs.length)
    (hk : ∀ v r, n ≤ r.length → (k (v, r)).isSome) : (readWord bs >>= k).isSome :=
  match bs, h with
  | a :: b :: c :: d :: r, h => hk (be32 (be16 a b) (be16 c d)) r (by simpa using h)

end

/-! ### What a complete request can be read as (R96, R98, R99) -/

/-- The operation code and the bytes after it are the one encoding of the well-formed request `i`, followed by `rest`. -/
structure Spells (op : Nat) (bs : List Byte) (i : Instr) (rest : List Byte) : Prop where
  wf : i.wf = true
  request : i.wireName = none
  bytes : BitVec.ofNat 8 op :: bs = encodeRequest i ++ rest

/-- What it means that the bytes after `op` are read as `x` with `rest` left: they are the encoding of a request and
none of their fields is illegal, or one is (R98). -/
def Reads (op : Nat) (bs rest : List Byte) : Option Instr → Prop
  | some i => Spells op bs i rest ∧ ¬IllegalField op bs
  | none => IllegalField op bs

section
variable {op : Nat} {bs rest : List Byte} {x : Option Instr}

/-- A row whose one checked field is the `bool` byte `b` (R92, R98). -/
theorem reads_flag {b : Byte} {f : Bool → Instr} (hill : IllegalField op bs ↔ 2 ≤ b.toNat)
    (hf : ∀ v, b = putBool v → Spells op bs (f v) rest) : Reads op bs rest ((asBool b).map f) := by
  rw [← asBool_none_iff] at hill
  cases hb : asBool b with
  | none => exact hill.2 hb
  | some v => exact ⟨hf v (asBool_some hb), fun h => by simp [hill.1 h] at hb⟩

theorem fieldsCreate_reads : fieldsCreate bs = some (x, rest) → Reads 0x00 bs rest x := by
  simp only [fieldsCreate, readHalf_bind, readByte_bind]
  rintro ⟨rm, _, rfl, cm, _, rfl, bl, _, rfl, ⟨⟩⟩
  exact reads_flag ⟨And.right, .intro (by simp; omega)⟩ fun v hv => ⟨rfl, rfl, hv ▸ rfl⟩

theorem fieldsInitialise_reads : fieldsInitialise bs = some (x, rest) → Reads 0x02 bs rest x := by
  simp only [fieldsInitialise, readHalf_bind, readByte_bind]
  rintro ⟨width, _, rfl, height, _, rfl, orient, _, rfl, ⟨⟩⟩
  exact ⟨⟨rfl, rfl, rfl⟩, id⟩

theorem fieldsWriteCommand_reads : fieldsWriteCommand bs = some (x, rest) → Reads 0x03 bs rest x := by
  simp only [fieldsWriteCommand, readByte_bind]
  rintro ⟨code, _, rfl, ⟨⟩⟩
  exact ⟨⟨rfl, rfl, rfl⟩, id⟩

theorem fieldsWriteData_reads : fieldsWriteData bs = some (x, rest) → Reads 0x04 bs rest x := by
  simp only [fieldsWriteData, readHalf_bind, readBytes_bind]
  rintro ⟨n, _, rfl, data, _, ⟨rfl, hn⟩, ⟨⟩⟩
  exact ⟨⟨by simpa [Instr.wf, hn] using n.isLt, rfl, by simp [encodeRequest, hn]⟩, id⟩

theorem fieldsSetAddressWindow_reads : fieldsSetAddressWindow bs = some (x, rest) → Reads 0x05 bs rest x := by
  simp only [fieldsSetAddressWindow, readWord_bind]
  rintro ⟨x0, _, rfl, y0, _, rfl, x1, _, rfl, y1, _, rfl, ⟨⟩⟩
  exact ⟨⟨rfl, rfl, rfl⟩, id⟩

theorem fieldsPower_reads : fieldsPower bs = some (x, rest) → Reads 0x06 bs rest x := by
  simp only [fieldsPower, readByte_bind]
  rintro ⟨on, _, rfl, ⟨⟩⟩
  exact reads_flag ⟨And.right, .intro (by simp)⟩ fun v hv => ⟨rfl, rfl, hv ▸ rfl⟩

theorem fieldsBacklight_reads : fieldsBacklight bs = some (x, rest) → Reads 0x07 bs rest x := by
  simp only [fieldsBacklight, readByte_bind]
  rintro ⟨on, _, rfl, ⟨⟩⟩
  exact reads_flag ⟨And.right, .intro (by simp)⟩ fun v hv => ⟨rfl, rfl, hv ▸ rfl⟩

theorem fieldsInvert_reads : fieldsInvert bs = some (x, rest) → Reads 0x09 bs rest x := by
  simp only [fieldsInvert, readByte_bind]
  rintro ⟨on, _, rfl, ⟨⟩⟩
  exact reads_flag ⟨And.right, .intro (by simp)⟩ fun v hv => ⟨rfl, rfl, hv ▸ rfl⟩

theorem fieldsPackColor_reads : fieldsPackColor bs = some (x, rest) → Reads 0x0A bs rest x := by
  simp only [fieldsPackColor, readByte_bind]
  rintro ⟨r, _, rfl, g, _, rfl, b, _, rfl, ⟨⟩⟩
  exact ⟨⟨rfl, rfl, rfl⟩, id⟩

theorem fieldsSetPixel_reads : fieldsSetPixel bs = some (x, rest) → Reads 0x10 bs rest x := by
  simp only [fieldsSetPixel, readWord_bind, readHalf_bind]
  rintro ⟨px, _, rfl, py, _, rfl, color, _, rfl, ⟨⟩⟩
  exact ⟨⟨rfl, rfl, rfl⟩, id⟩

theorem fieldsFillRect_reads : fieldsFillRect bs = some (x, rest) → Reads 0x11 bs rest x := by
  simp only [fieldsFillRect, readWord_bind, readHalf_bind]
  rintro ⟨px, _, rfl, py, _, rfl, w, _, rfl, h, _, rfl, color, _, rfl, ⟨⟩⟩
  exact ⟨⟨rfl, rfl, rfl⟩, id⟩

theorem fieldsHline_reads : fieldsHline bs = some (x, rest) → Reads 0x12 bs rest x := by
  simp only [fieldsHline, readWord_bind, readHalf_bind]
  rintro ⟨px, _, rfl, py, _, rfl, len, _, rfl, color, _, rfl, ⟨⟩⟩
  exact ⟨⟨rfl, rfl, rfl⟩, id⟩

theorem fieldsVline_reads : fieldsVline bs = some (x, rest) → Reads 0x13 bs rest x := by
  simp only [fieldsVline, readWord_bind, readHalf_bind]
  rintro ⟨px, _, rfl, py, _, rfl, len, _, rfl, color, _, rfl, ⟨⟩⟩
  exact ⟨⟨rfl, rfl, rfl⟩, id⟩

theorem fieldsLine_reads : fieldsLine bs = some (x, rest) → Reads 0x14 bs rest x := by
  simp only [fieldsLine, readWord_bind, readHalf_bind]
  rintro ⟨x0, _, rfl, y0, _, rfl, x1, _, rfl, y1, _, rfl, color, _, rfl, ⟨⟩⟩
  exact ⟨⟨rfl, rfl, rfl⟩, id⟩

theorem fieldsCircle_reads : fieldsCircle bs = some (x, rest) → Reads 0x15 bs rest x := by
  simp only [fieldsCircle, readWord_bind, readHalf_bind]
  rintro ⟨cx, _, rfl, cy, _, rfl, r, _, rfl, color, _, rfl, ⟨⟩⟩
  exact ⟨⟨rfl, rfl, rfl⟩, id⟩

theorem fieldsCircleFilled_reads : fieldsCircleFilled bs = some (x, rest) → Reads 0x16 bs rest x := by
  simp only [fieldsCircleFilled, readWord_bind, readHalf_bind, readByte_bind]
  rintro ⟨cx, _, rfl, cy, _, rfl, r, _, rfl, color, _, rfl, hasFill, _, rfl, fillColor, _, rfl, ⟨⟩⟩
  exact reads_flag ⟨And.right, .intro (by simp; omega)⟩ fun v hv => ⟨rfl, rfl, hv ▸ rfl⟩

theorem fieldsCircleSegment_reads : fieldsCircleSegment bs = some (x, rest) → Reads 0x17 bs rest x := by
  simp only [fieldsCircleSegment, readWord_bind, readHalf_bind, readByte_bind]
  rintro ⟨cx, _, rfl, cy, _, rfl, r, _, rfl, color, _, rfl, quads, _, rfl, fill, _, rfl, hasFill, _, rfl,
    fillColor, _, rfl, ⟨⟩⟩
  split
  case isFalse hq => exact ⟨by simp; omega, .inl (Nat.not_lt.1 fun h => hq (decide_eq_true h))⟩
  case isTrue hq =>
    cases hf : asBool fill with
    | none => exact ⟨by simp; omega, .inr (.inl (asBool_none_iff.1 hf))⟩
    | some f =>
      refine reads_flag ⟨fun h => ?_, fun h => ⟨by simp; omega, .inr (.inr h)⟩⟩
        fun v hv => ⟨hq, rfl, asBool_some hf ▸ hv ▸ rfl⟩
      obtain ⟨_, hquads | hfill | hhas⟩ := h
      · exact absurd (of_decide_eq_true hq) (Nat.not_lt.2 hquads)
      · cases hf.symm.trans (asBool_none_iff.2 hfill)
      · exact hhas

theorem fieldsText_reads : fieldsText bs = some (x, rest) → Reads 0x18 bs rest x := by
  simp only [fieldsText, readWord_bind, readHalf_bind, readByte_bind, readBytes_bind]
  rintro ⟨px, _, rfl, py, _, rfl, color, _, rfl, scale, _, rfl, fontW, _, rfl, fontH, _, rfl, fontStart, _, rfl,
    fontEnd, _, rfl, fontBase, _, rfl, n, _, rfl, codes, _, ⟨rfl, hn⟩, ⟨⟩⟩
  exact ⟨⟨by simpa [Instr.wf, hn] using n.isLt, rfl, by simp [encodeRequest, hn]⟩, id⟩

end

/-! ### What an operation code and the bytes after it are read as (R95, R97) -/

theorem decodeFields_unassigned {op : Nat} (h : (0x0B ≤ op ∧ op ≤ 0x0F) ∨ 0x19 ≤ op) (bs : List Byte) :
    decodeFields op bs = some (none, bs) := by
  unfold decodeFields
  split
  case h_21 => rfl
  all_goals omega

/-- The decoder reads an assigned operation code by its row. -/
theorem decodeFields_reads {op : Nat} {bs rest : List Byte} {x : Option Instr}
    (hop : ¬((0x0B ≤ op ∧ op ≤ 0x0F) ∨ 0x19 ≤ op)) (h : decodeFields op bs = some (x, rest)) : Reads op bs rest x := by
  unfold decodeFields at h
  split at h
  · exact fieldsCreate_reads h
  · cases h; exact ⟨⟨rfl, rfl, rfl⟩, id⟩
  · exact fieldsInitialise_reads h
  · exact fieldsWriteCommand_reads h
  · exact fieldsWriteData_reads h
  · exact fieldsSetAddressWindow_reads h
  · exact fieldsPower_reads h
  · exact fieldsBacklight_reads h
  · cases h; exact ⟨⟨rfl, rfl, rfl⟩, id⟩
  · exact fieldsInvert_reads h
  · exact fieldsPackColor_reads h
  · exact fieldsSetPixel_reads h
  · exact fieldsFillRect_reads h
  · exact fieldsHline_reads h
  · exact fieldsVline_reads h
  · exact fieldsLine_reads h
  · exact fieldsCircle_reads h
  · exact fieldsCircleFilled_reads h
  · exact fieldsCircleSegment_reads h
  · exact fieldsText_reads h
  · exfalso; grind

/-- Only a string long enough for all fields of its row is illegal (R94, R98; log 17). -/
theorem IllegalField.complete {op : Nat} {bs : List Byte} (h : IllegalField op bs) : (decodeFields op bs).isSome := by
  unfold IllegalField at h
  split at h
  · exact readHalf_bind_isSome h.1 fun _ _ h => readHalf_bind_isSome h fun _ _ h => readByte_bind_isSome h fun _ _ _ => rfl
  · exact readByte_bind_isSome h.1 fun _ _ _ => rfl
  · exact readByte_bind_isSome h.1 fun _ _ _ => rfl
  · exact readByte_bind_isSome h.1 fun _ _ _ => rfl
  · exact readWord_bind_isSome h.1 fun _ _ h => readWord_bind_isSome h fun _ _ h => readWord_bind_isSome h fun _ _ h =>
      readHalf_bind_isSome h fun _ _ h => readByte_bind_isSome h fun _ _ h => readHalf_bind_isSome h fun _ _ _ => rfl
  · exact readWord_bind_isSome h.1 fun _ _ h => readWord_bind_isSome h fun _ _ h => readWord_bind_isSome h fun _ _ h =>
      readHalf_bind_isSome h fun _ _ h => readByte_bind_isSome h fun _ _ h => readByte_bind_isSome h fun _ _ h =>
      readByte_bind_isSome h fun _ _ h => readHalf_bind_isSome h fun _ _ _ => rfl
  · exact h.elim

theorem IllegalField.append {op : Nat} {bs : List Byte} (h : IllegalField op bs) (t : List Byte) :
    IllegalField op (bs ++ t) := by
  unfold IllegalField at h
  split at h
  case h_7 => exact h.elim
  all_goals
    obtain ⟨hlen, hv⟩ := h
    refine ⟨by simp; omega, ?_⟩
    simpa (disch := omega) only [List.getD_append] using hv

/-- The three answers of the request decoder. -/
theorem decodeRequest_cases (bytes : List Byte) : decodeRequest bytes = .incomplete ∨ decodeRequest bytes = .illegal ∨
    ∃ i rest, decodeRequest bytes = .instr i rest := by
  cases bytes with
  | nil => exact .inl rfl
  | cons op bs =>
    simp only [decodeRequest]
    split
    · exact .inl rfl
    · exact .inr (.inl rfl)
    · exact .inr (.inr ⟨_, _, rfl⟩)

theorem decodeRequest_instr_iff {op : Byte} {bs rest : List Byte} {i : Instr} :
    decodeRequest (op :: bs) = .instr i rest ↔ decodeFields op.toNat bs = some (some i, rest) := by
  simp only [decodeRequest]
  split <;> simp [*]

theorem decodeRequest_illegal_iff {op : Byte} {bs : List Byte} :
    decodeRequest (op :: bs) = .illegal ↔ ∃ rest, decodeFields op.toNat bs = some (none, rest) := by
  simp only [decodeRequest]
  split <;> simp [*]

/-- An illegal string has an unassigned operation code or an illegal field (R97, R98). -/
theorem decodeRequest_illegal {op : Byte} {bs : List Byte} (hop : ¬UnassignedOp op) :
    decodeRequest (op :: bs) = .illegal ↔ IllegalField op.toNat bs := by
  rw [decodeRequest_illegal_iff]
  refine ⟨fun ⟨_, h⟩ => decodeFields_reads hop h, fun h => ?_⟩
  obtain ⟨⟨x, rest⟩, hx⟩ := Option.isSome_iff_exists.1 h.complete
  cases x with
  | none => exact ⟨rest, hx⟩
  | some i => exact absurd h (decodeFields_reads hop hx).2

theorem decodeRequest_unassigned {op : Byte} (hop : UnassignedOp op) (bs : List Byte) :
    decodeRequest (op :: bs) = .illegal := decodeRequest_illegal_iff.2 ⟨bs, decodeFields_unassigned hop bs⟩

/-- Bytes after an illegal request do not make it legal. -/
theorem decodeRequest_append_illegal {bytes : List Byte} (h : decodeRequest bytes = .illegal) (t : List Byte) :
    decodeRequest (bytes ++ t) = .illegal := by
  cases bytes with
  | nil => cases h
  | cons op bs =>
    by_cases hop : UnassignedOp op
    · exact decodeRequest_unassigned hop _
    · exact (decodeRequest_illegal hop).2 (((decodeRequest_illegal hop).1 h).append t)

/-- A string read as an instruction is that instruction's encoding, then what is left (R99). -/
theorem decodeRequest_sound {bytes rest : List Byte} {i : Instr} (h : decodeRequest bytes = .instr i rest) :
    i.wf = true ∧ i.wireName = none ∧ bytes = encodeRequest i ++ rest := by
  cases bytes with
  | nil => cases h
  | cons op bs =>
    rw [decodeRequest_instr_iff] at h
    by_cases hop : UnassignedOp op
    · rw [decodeFields_unassigned hop] at h; cases h
    · obtain ⟨⟨hwf, hreq, hbytes⟩, _⟩ := decodeFields_reads hop h
      exact ⟨hwf, hreq, by simpa using hbytes⟩

/-! ### What the encoding of a request is read as -/

/-- The bytes of an encoded request, then any others, are read as that request, and the others are left: every reader
reads back what its writer wrote, and well-formedness is what the length fields and `quads` need for it. -/
theorem decodeRequest_encodeRequest {i : Instr} (hreq : i.wireName = none) (hwf : i.wf = true) (rest : List Byte) :
    decodeRequest (encodeRequest i ++ rest) = .instr i rest := by
  cases i with
  | writeData data =>
    have hlen : data.length % 65536 = data.length := Nat.mod_eq_of_lt (of_decide_eq_true hwf)
    simp [encodeRequest, decodeRequest, decodeFields, fieldsWriteData, hlen]
  | circleSegment cx cy r color quads fill hasFill fillColor =>
    have hquads : quadsLegal quads = true := hwf
    simp [encodeRequest, decodeRequest, decodeFields, fieldsCircleSegment, hquads]
  | text x y color scale fontW fontH fontStart fontEnd fontBase codes =>
    have hlen : codes.length % 65536 = codes.length := Nat.mod_eq_of_lt (of_decide_eq_true hwf)
    simp [encodeRequest, decodeRequest, decodeFields, fieldsText, hlen]
  | _ =>
    simp [encodeRequest, decodeRequest, decodeFields, Instr.wireName, fieldsCreate, fieldsInitialise, fieldsWriteCommand,
      fieldsSetAddressWindow, fieldsPower, fieldsBacklight, fieldsInvert, fieldsPackColor, fieldsSetPixel, fieldsFillRect,
      fieldsHline, fieldsVline, fieldsLine, fieldsCircle, fieldsCircleFilled] at hreq ⊢

theorem encodedLength (i : Instr) : Laws.EncodedLength.Statement i := by
  cases i with
  | writeData data => exact Laws.EncodedLength.writeData data
  | text => exact Laws.EncodedLength.text ..
  | _ => rfl

theorem encodeRequest_length {i : Instr} (hreq : i.wireName = none) : (encodeRequest i).length = i.length := by
  simpa only [Laws.EncodedLength.Statement, hreq] using encodedLength i

/-- A string that ends before the request does is incomplete (R94): read as anything else, it would be read so with the
missing bytes after it as well. -/
theorem decodeRequest_truncated {i : Instr} (hreq : i.wireName = none) (hwf : i.wf = true) {bytes t : List Byte}
    (ht : t ≠ []) (h : encodeRequest i = bytes ++ t) : decodeRequest bytes = .incomplete := by
  have whole : decodeRequest (bytes ++ t) = .instr i [] := by
    simpa [← h] using decodeRequest_encodeRequest hreq hwf []
  obtain hd | hd | ⟨j, rest, hd⟩ := decodeRequest_cases bytes
  · exact hd
  · simp [decodeRequest_append_illegal hd] at whole
  · obtain ⟨hjwf, hjreq, rfl⟩ := decodeRequest_sound hd
    rw [List.append_assoc, decodeRequest_encodeRequest hjreq hjwf] at whole
    simp [ht] at whole

end Sys2Proof.Machine
end

section
/-! SUPPORT. The statements about encodings: the round trips (O8, O9), illegal and truncated requests (O5, O6, O7), the
words, the assembled lines and the results written out (O10, O11, O12). -/

namespace Sys2Proof.Machine

/-- Settles O8: a request by `decodeRequest_encodeRequest`, a command frame because distinct codes have distinct names. -/
theorem decodeOfEncode : Obligations.DecodeOfEncode := by
  intro cmd i hcodes hwf
  refine ⟨?_, fun hreq => decodeRequest_encodeRequest hreq hwf⟩
  cases hname : i.wireName with
  | none => simpa [encode, hname, decode] using decodeRequest_encodeRequest hname hwf []
  | some name =>
    obtain rfl := Instr.instr_of_wireName hname
    simp [encode, hname, decode, nameOf_code hcodes]

/-- Settles O9: each row of the field tables reads only the bytes that its encoding writes. -/
theorem oneSpelling : Obligations.OneSpelling := fun _ _ _ => decodeRequest_sound

/-- Settles O5: the decoder has no row for the code, so the string is illegal whatever follows. -/
theorem unassignedOperations : Obligations.UnassignedOperations := by
  intro s op bs q hop hf hq
  obtain ⟨_, _, illegal, _⟩ := stepRunsWhatItDecodes s _ q hf hq
  exact illegal (decodeRequest_unassigned hop bs)

/-- Settles O6: row by row, the checked fields are those that R98 names. -/
theorem illegalFields : Obligations.IllegalFields := by
  refine ⟨fun _ _ => decodeRequest_illegal, fun s bytes q hf hq hd => ?_⟩
  obtain ⟨_, _, illegal, _⟩ := stepRunsWhatItDecodes s _ q hf hq
  exact illegal hd

/-- Settles O7: the bytes cut off are not empty, and what is decoded has the length of its encoding. -/
theorem truncatedRequests : Obligations.TruncatedRequests := by
  refine ⟨fun i hreq hwf => ⟨encodeRequest_length hreq, fun n hn => ?_⟩, fun bytes i rest h => ?_,
    fun s bytes q hf hq hd => ?_⟩
  · exact decodeRequest_truncated hreq hwf (by simpa [encodeRequest_length hreq] using hn) (List.take_append_drop n _).symm
  · obtain ⟨_, hreq, rfl⟩ := decodeRequest_sound h
    rw [List.length_append, encodeRequest_length hreq]
  · obtain ⟨_, _, _, incomplete, _⟩ := stepRunsWhatItDecodes s _ q hf hq
    exact incomplete hd

/-- Settles O10: the decoder evaluated on the words. -/
theorem decodedWords : Obligations.DecodedWords := by
  unfold Obligations.DecodedWords
  decide

/-- Settles O11: the assembler evaluated on the lines. -/
theorem assembledRequests : Obligations.AssembledRequests := by
  unfold Obligations.AssembledRequests
  decide +kernel

/-- Settles O12: the byte form of each result, the colour's for every value. -/
theorem resultForms : Obligations.ResultForms := ⟨rfl, rfl, rfl, rfl, rfl, rfl, rfl, rfl, fun _ => rfl⟩

end Sys2Proof.Machine
end

section
/-! SUPPORT. A failed transfer outside INITIALIZE (O37): what an instruction can do to the fault list and the trace, and
what is left when the bus failed. -/

namespace Sys2Proof.Machine

/-! ### The failures in the trace (R29, R131) -/

/-- The events from `s` to `t` report no failed transfer. -/
def NoBusFail (s t : State) : Prop := ∃ es, t.trace = s.trace ++ es ∧ .busFail ∉ es

/-- No fault is raised and no transfer fails. -/
structure BusHeld (s t : State) : Prop where
  faults : t.faults = s.faults
  trace : NoBusFail s t

/-- The last of the transfers from `s` to `t` failed and `BusFailure` is recorded; the session is `Failed` where `request`
holds (R131, R132). -/
structure BusFailed (request : Prop) (s t : State) : Prop where
  faults : t.faults = s.faults ++ [.busFailure]
  life : request → t.life = .failed
  dev : t.dev.Unknown
  chipSelect : t.lvl.cs = none
  trace : ∃ es, t.trace = s.trace ++ es ++ [.busFail] ∧ .busFail ∉ es

/-- A fault ended the instruction: the bus failed, or no transfer did and the fault is another. -/
def EndedByFault (request : Prop) (s t : State) : Prop :=
  BusFailed request s t ∨ NoBusFail s t ∧ ∃ f, f ≠ .busFailure ∧ t.faults = s.faults ++ [f]

theorem noBusFail_of_same {s t : State} (h : t.trace = s.trace) : NoBusFail s t := ⟨[], by simpa using h, by simp⟩

theorem NoBusFail.trans {s t u : State} (h1 : NoBusFail s t) (h2 : NoBusFail t u) : NoBusFail s u := by
  obtain ⟨es, he, hes⟩ := h1
  obtain ⟨fs, hf, hfs⟩ := h2
  exact ⟨es ++ fs, by rw [hf, he, List.append_assoc], by simp [hes, hfs]⟩

theorem NoBusFail.busFail_notMem {s t : State} (h : NoBusFail s t) {es : List Event} (he : t.trace = s.trace ++ es) :
    .busFail ∉ es := by
  obtain ⟨fs, hf, hfs⟩ := h
  obtain rfl : es = fs := List.append_cancel_left (he.symm.trans hf)
  exact hfs

theorem BusHeld.trans {s t u : State} (h1 : BusHeld s t) (h2 : BusHeld t u) : BusHeld s u :=
  ⟨h2.faults.trans h1.faults, h1.trace.trans h2.trace⟩

theorem busHeld_of_same {s t : State} (faults : t.faults = s.faults) (trace : t.trace = s.trace) : BusHeld s t :=
  ⟨faults, noBusFail_of_same trace⟩

theorem BusHeld.busFailed {request : Prop} {s t u : State} (h1 : BusHeld s t) (h2 : BusFailed request t u) :
    BusFailed request s u where
  faults := h1.faults ▸ h2.faults
  life := h2.life
  dev := h2.dev
  chipSelect := h2.chipSelect
  trace := by
    obtain ⟨es, he, hes⟩ := h1.trace
    obtain ⟨fs, hf, hfs⟩ := h2.trace
    exact ⟨es ++ fs, by simp [hf, he], by simp [hes, hfs]⟩

theorem BusHeld.endedByFault {request : Prop} {s t u : State} (h1 : BusHeld s t) (h2 : EndedByFault request t u) :
    EndedByFault request s u := by
  obtain hb | ⟨htr, f, hf, hfs⟩ := h2
  · exact .inl (h1.busFailed hb)
  · exact .inr ⟨h1.trace.trans htr, f, hf, h1.faults ▸ hfs⟩

/-! ### The ends of a transfer -/

theorem afterFrame_busHeld (dc : Level) (bytes : List Byte) (d : Dev) (s : State) :
    BusHeld s (afterFrame dc bytes d s) :=
  ⟨rfl, frameEvents dc bytes, rfl, by simp [frameEvents]⟩

theorem afterFault_endedByFault {request : Prop} {dc : Level} {sent : List Byte} {d : Dev} {f : FaultCode} {s : State}
    (hf : f ≠ .busFailure) : EndedByFault request s (afterFault dc sent d f s) :=
  .inr ⟨⟨_, rfl, by simp⟩, f, hf, rfl⟩

theorem afterBusFailure_busFailed (request : Prop) (dc : Level) (s : State) :
    BusFailed request s (afterBusFailure dc s.dev.forget s) :=
  ⟨rfl, fun _ => rfl, forget_unknown _, rfl, [.drive .dc dc, .drive .cs false],
    by simp [afterBusFailure, afterBusFail], by simp⟩

/-- A frame by itself stands in no request (log 2). -/
theorem afterFrameFailure_busFailed {request : Prop} (hr : ¬request) (dc : Level) (s : State) :
    BusFailed request s (afterFrameFailure dc s.dev.forget s) :=
  ⟨rfl, fun h => absurd h hr, forget_unknown _, rfl, [.drive .dc dc, .drive .cs false],
    by simp [afterFrameFailure, afterBusFail], by simp⟩

theorem sendFrame_endedByFault {request : Prop} (hr : ¬request) (dc : Level) (bytes : List Byte) (s : State) :
    (sendFrame dc bytes s).Ends BusHeld (EndedByFault request) s :=
  sendFrame_cases (P := Run.Ends _ _ s) dc bytes s (fun _ _ => afterFrame_busHeld ..)
    (fun _ _ hf => afterFault_endedByFault (devFrame_not_busFailure hf)) (fun _ => .inl (afterFrameFailure_busFailed hr ..))

/-! ### Every instruction but INITIALIZE -/

theorem endedByFault_lifts (request : Prop) : LiftsExec BusHeld BusHeld (EndedByFault request) where
  refl := fun _ => busHeld_of_same rfl rfl
  trans := .trans
  transE := BusHeld.endedByFault
  fault := fun f _ hf => .inr ⟨noBusFail_of_same rfl, f, hf.1, rfl⟩
  send := fun dc bytes s => send_cases (P := Run.Ends _ _ s) dc bytes s (fun _ _ => afterFrame_busHeld ..)
    (fun _ _ hf => afterFault_endedByFault (devFrame_not_busFailure hf)) (fun _ => .inl (afterBusFailure_busFailed ..))
  answer := fun _ _ _ h => h.trans (busHeld_of_same rfl rfl)
  power := fun _ _ _ h _ => h.trans (busHeld_of_same rfl rfl)
  inverted := fun _ _ _ h _ => h.trans (busHeld_of_same rfl rfl)
  backlight := fun on _ _ => ⟨rfl, [.drive .bl on], rfl, by simp⟩
  pulse := fun s _ => ⟨resetPulse_faults s, pulseEvents, resetPulse_trace s, by simp [pulseEvents]⟩

/-- Everything an instruction but INITIALIZE can do to the fault list and the failures in the trace. -/
theorem exec_bus {i : Instr} (hi : ∀ w h o, i ≠ .initialise w h o) {s t : State} (h : exec i s = .next t) :
    BusHeld s t ∨ EndedByFault (i.wireName = none) s t := by
  obtain ⟨r, hr, rfl⟩ := (endedByFault_lifts (i.wireName = none)).next h
    (fun name hn => sendFrame_endedByFault (by rw [hn, WireName.wireName_instr]; nofun) ..)
    (fun _ _ _ _ => busHeld_of_same rfl rfl) (fun w k o hn => absurd hn (hi w k o))
  cases r with
  | ok u => exact .inl hr
  | error u => exact .inr hr

/-- Settles O37: a transfer that fails records `BusFailure` and ends the instruction, and nothing else records it. -/
theorem busFailureEndsTheRequest : Obligations.BusFailureEndsTheRequest := by
  refine ⟨fun i s t hi h => ⟨fun hf => ?_, fun ⟨es, he, hes⟩ => ?_⟩, fun s name bytes hb => ?_⟩
  · obtain hheld | hbus | ⟨_, f, hne, hf'⟩ := exec_bus hi h
    · simp [hheld.faults] at hf
    · exact ⟨hbus.life, hbus.dev, hbus.chipSelect, hbus.trace⟩
    · simp [hf', hne] at hf
  · obtain hheld | hbus | ⟨htrace, _⟩ := exec_bus hi h
    · exact absurd hes (hheld.trace.busFail_notMem he)
    · exact hbus.faults
    · exact absurd hes (htrace.busFail_notMem he)
  · refine ⟨s.dev.forget, forget_unknown _, ?_, ?_⟩
    · rw [exec_wire, wireCommand, sendFrame_fail hb]; rfl
    · rw [sendDataFrame, sendFrame_fail hb]; rfl

end Sys2Proof.Machine
end

section
/-! SUPPORT. RESET and INITIALIZE (O14, O17, O18): whom they turn away, what the pulse leaves, and where a bring-up stops. -/

namespace Sys2Proof.Machine

/-! ### RESET (R138) -/

theorem resetPulse_eq (s : State) : resetPulse s =
    { s with lvl := { s.lvl with rst := some true }, trace := s.trace ++ pulseEvents, dev := s.dev.forget } := by
  simp [resetPulse, hold, emit, drive, Levels.drive, Dev.onDrive, pulseEvents]

/-- Settles O14: in `Uninitialized` RESET is the pulse; the lifecycle check comes before it. -/
theorem resetPulses : Obligations.ResetPulses := by
  intro s
  refine ⟨fun hs => ⟨s.dev.forget, forget_unknown _, ?_⟩, fun hs => congrArg complete (if_pos hs), fun hf hu => ?_⟩
  · rw [exec, execReset, if_neg (by simp [hs]), if_neg (by simp [hs]), resetPulse_eq]; rfl
  · rw [exec, execReset, if_neg hf, if_pos hu]; rfl

/-! ### Whom INITIALIZE takes (R135) -/

/-- A session whose size fits 16 bits with its margins is taken, with the orientation index given. -/
theorem sessionParameters_some {s : State} {rm cm w h : Half} {o : Fin 4} (hrm : s.rm = some rm) (hcm : s.cm = some cm)
    (hw : 1 ≤ w.toNat) (hh : 1 ≤ h.toNat) (hwc : w.toNat - 1 + cm.toNat ≤ 0xFFFF)
    (hhr : h.toNat - 1 + rm.toNat ≤ 0xFFFF) : sessionParameters w h (BitVec.ofNat 8 o) s = some o := by
  have ho : (BitVec.ofNat 8 o).toNat = o := by revert o; decide
  simp only [sessionParameters, hrm, hcm, ho]
  rw [if_neg (by omega), if_neg (by omega), dif_pos o.isLt]

/-- What the check of the session's parameters turns away. -/
theorem sessionParameters_none {s : State} {w h : Half} {o : Byte}
    (hbad : s.rm = none ∨ s.cm = none ∨ w.toNat < 1 ∨ h.toNat < 1 ∨ 3 < o.toNat ∨
      (∃ cm, s.cm = some cm ∧ 0xFFFF < w.toNat - 1 + cm.toNat) ∨
      (∃ rm, s.rm = some rm ∧ 0xFFFF < h.toNat - 1 + rm.toNat)) : sessionParameters w h o s = none := by
  unfold sessionParameters
  split
  next rm cm hrm hcm =>
    simp only [hrm, hcm, reduceCtorEq, Option.some.injEq, exists_eq_left', false_or] at hbad
    split
    · rfl
    · split
      · rfl
      · rw [dif_neg (by omega)]
  next => rfl

/-- Settles O17: the lifecycle is checked first, then the session's parameters. -/
theorem initialiseAdmission : Obligations.InitialiseAdmission := by
  intro s w h o
  refine ⟨fun hs => congrArg complete (if_pos hs), fun hf hu => ?_, fun hs hbad => ?_⟩
  · rw [exec, execInitialise, if_neg hf, if_pos hu]; rfl
  · rw [exec, execInitialise, if_neg (by simp [hs]), if_neg (by simp [hs]), sessionParameters_none hbad]; rfl

/-! ### A bring-up that fails (R137) -/

theorem startBringUp_eq (w h : Half) (o : Fin 4) (s : State) : startBringUp w h o s =
    { s with
      life := .configuring, W := some w.toNat, H := some h.toNat, orient := some o,
      lvl := { s.lvl with rst := some true }, trace := s.trace ++ pulseEvents, dev := s.dev.forget } := by
  rw [startBringUp, resetPulse_eq]

/-- A session that INITIALIZE takes, and whose bring-up fails, is `Failed`. -/
theorem execInitialise_fail {s t : State} {w h : Half} {orient : Byte} {o : Fin 4} (hs : s.life = .uninitialized)
    (hp : sessionParameters w h orient s = some o)
    (hb : bringUp (initSeq s.par.init o) (startBringUp w h o s) = .fail t) :
    execInitialise w h orient s = .next (({ t with life := .failed } : State).answer (.status false)) := by
  rw [execInitialise, if_neg (by simp [hs]), if_neg (by simp [hs]), hp]
  simp only [hb]
  rfl

/-- Settles O18: the pulse comes first, and the sequence stops at the frame of the transfer that fails. -/
theorem bringUpFailure : Obligations.BringUpFailure := by
  intro s rm cm w h o m hs hrm hcm hw hh hwc hhr hcodes hcol hrow hm hm2 hok hfail
  have hp := sessionParameters_some (o := o) hrm hcm hw hh hwc hhr
  have hlast : m < (startBringUp w h o s).xfers + ((initSeq s.par.init o).map stepTransfers).sum := by
    rw [startBringUp_xfers]; exact hm2
  obtain ⟨t, ht, ⟨es, dc, b, more, hes, hcount, heq⟩, hdev⟩ :=
    bringUp_fail (initSeq s.par.init o) (s := startBringUp w h o s) (m := m) (by simpa using hcodes)
      (Dev.clean_of (by simp) (by simp)) (initSeq_ok hcol hrow o) (by simpa using hm) hlast
      (by simpa using hok) (by simpa using hfail)
  refine ⟨t.dev, dc, b, pulseEvents ++ es, more, ?_, ?_, hdev, ?_⟩
  · simpa [initEvents] using hes
  · simpa [pulseEvents, Event.startsTransfer] using hcount
  · rw [exec, execInitialise_fail hs hp ht]
    generalize t.dev = d at heq
    subst heq
    simp [startBringUp_eq, State.answer]

end Sys2Proof.Machine
end

section
/-! SUPPORT. The gated requests of the protocol engine (O19, O21 to O27): the gate once, then each request in a ready session
from the ends of its transfers. -/

namespace Sys2Proof.Machine

/-- Settles O19: the gate stands first in each of these requests. -/
theorem readyGate_holds : Obligations.ReadyGate := fun _ _ hi =>
  ⟨fun hf => exec_gated_closed hi (readyGate_failed hf), fun hf hr => exec_gated_closed hi (readyGate_other hf hr)⟩

/-! ### Through the gate -/

theorem gated_ready {s : State} (hs : s.life = .ready) (k : State → Run) :
    complete (readyGate s >>= k) = complete (k s) := by rw [Run.bind_ok (readyGate_ready hs)]

/-- A gated request that sends its frames and then writes its flag and result, when the frames are sent. -/
theorem gated_ok {r : State → Run} {g : State → State} {s t : State} (hs : s.life = .ready) (h : r s = .ok t) :
    complete (do let s ← readyGate s; let s ← r s; .ok (g s)) = .next (g t) := by
  rw [gated_ready hs, Run.bind_ok h]; rfl

/-- The same, when a fault ends its frames. -/
theorem gated_error {r : State → Run} {g : State → State} {s t : State} (hs : s.life = .ready) (h : r s = .error t) :
    complete (do let s ← readyGate s; let s ← r s; .ok (g s)) = .next t := by
  rw [gated_ready hs, Run.bind_error h]; rfl

/-! ### The two bus primitives (R133, R134) -/

theorem devFrame_single_error {par : Params} {dc : Level} {b : Byte} {d d' : Dev} {f : FaultCode}
    (h : devByte par dc b d = .error (f, d')) : devFrame par dc [b] d = ⟨[b], d', some f⟩ := by simp [devFrame, h]

/-- The bytes shifted out are a beginning of the frame's (R131, R280). -/
theorem devFrame_sent_begins (par : Params) (dc : Level) (bytes : List Byte) : ∀ d : Dev,
    (devFrame par dc bytes d).sent <+: bytes := by
  induction bytes with
  | nil => exact fun _ => ⟨[], rfl⟩
  | cons b bs ih =>
    intro d
    rw [devFrame]
    split
    next d' _ =>
      obtain ⟨unsent, h⟩ := ih d'
      exact ⟨unsent, congrArg (b :: ·) h⟩
    next => exact ⟨bs, rfl⟩

/-- WRITE_COMMAND of a command's code is the gated frame of that code. -/
theorem exec_writeCommand_known {s : State} {code : Byte} {name : WireName} (hn : s.par.cmd.nameOf code = some name)
    (hs : s.life = .ready) : exec (.writeCommand code) s =
      complete (do let s ← readyGate s; let s ← send false [code] s; .ok (s.answer .unit)) := by
  rw [exec, execWriteCommand, gated_ready hs, gated_ready hs, if_neg (by simp [hn])]

/-- Settles O21: an unknown code is refused behind the gate; a known one is one frame of one byte. -/
theorem writeCommand : Obligations.WriteCommand := by
  intro s code hs
  refine ⟨fun hn => ?_, fun name hn => ?_⟩
  · rw [exec, execWriteCommand, gated_ready hs, if_pos (by simp [hn])]; rfl
  rw [exec_writeCommand_known hn hs]
  refine ⟨fun d hb hd => gated_ok hs (send_consumes hb (Consumes.single hd)), fun f d hb hd => ?_, fun hb => ?_⟩
  · have hframe := devFrame_single_error hd
    rw [gated_error hs (send_raised hb (by rw [hframe])), hframe]
  · exact ⟨_, forget_unknown _, gated_error hs (send_fail hb)⟩

/-- Settles O22: the three ends of the one data frame. -/
theorem writeData : Obligations.WriteData := by
  intro s data hs
  refine ⟨fun hb hf => gated_ok hs (send_ok hb hf), fun f hb hf => ⟨gated_error hs (send_raised hb hf), ?_⟩, fun hb => ?_⟩
  · exact devFrame_sent_begins ..
  · exact ⟨_, forget_unknown _, gated_error hs (send_fail hb)⟩

/-! ### Window, power, inversion, backlight (R139 to R143) -/

/-- Settles O23: bounds inside the panel keep their order when the margins are added, so the memory write opens. -/
theorem setAddressWindow : Obligations.SetAddressWindow := by
  intro p s x0 y0 x1 y1 hs hp
  refine ⟨fun ⟨_, _, hcols, hrows⟩ hcodes hbus hclean hx0 hx hx1 hy0 hy hy1 => ?_, fun hbad => ?_⟩
  · have c0 := toNat_physical (v := sext32 x0) (m := p.cm) hx0 (by omega)
    have c1 := toNat_physical (v := sext32 x1) (m := p.cm) (by omega) (by omega)
    have r0 := toNat_physical (v := sext32 y0) (m := p.rm) hy0 (by omega)
    have r1 := toNat_physical (v := sext32 y1) (m := p.rm) (by omega) (by omega)
    have hwindow := window_ok (p := p) hcodes hbus hclean (x0 := sext32 x0) (y0 := sext32 y0) (x1 := sext32 x1)
      (y1 := sext32 y1) (by omega) (by omega)
    rw [exec, execSetAddressWindow, withPanel_ready hs hp, if_pos ⟨hx0, hx, hx1, hy0, hy, hy1⟩, Run.bind_ok hwindow]
    rfl
  · rw [exec, execSetAddressWindow, withPanel_ready hs hp, if_neg (by omega)]; rfl

/-- Settles O24: the operand chooses the command, and the command's effect is the operand. -/
theorem power : Obligations.Power := by
  intro s on hs hr
  cases on
  · exact gated_ok hs (wcmd_ok (name := .dispoff) hr rfl)
  · exact gated_ok hs (wcmd_ok (name := .dispon) hr rfl)

/-- Settles O25: as for POWER. -/
theorem invert : Obligations.Invert := by
  intro s on hs hr
  cases on
  · exact gated_ok hs (wcmd_ok (name := .invoff) hr rfl)
  · exact gated_ok hs (wcmd_ok (name := .invon) hr rfl)

/-- With a line wired BACKLIGHT is the drive of that line (R141). -/
theorem execBacklight_wired {s : State} (hs : s.life = .ready) (hw : s.blPresent = some true) (on : Bool) :
    execBacklight on s = .next (((drive .bl on s).setBacklight on).answer (.backlight true)) := by
  rw [execBacklight, gated_ready hs, hw]; rfl

/-- Settles O26: behind the gate only the wiring decides. -/
theorem backlight : Obligations.Backlight := by
  intro s on
  obtain ⟨failed, notReady⟩ := readyGate_holds s (.backlight on) rfl
  refine ⟨failed, notReady, fun hs hw => ?_, fun hs hw => execBacklight_wired hs hw on⟩
  rw [exec, execBacklight, gated_ready hs, hw]; rfl

/-- Settles O27: behind the gate the wiring decides, and then whether a state was ever set. -/
theorem backlightQuery : Obligations.BacklightQuery := by
  intro s
  obtain ⟨failed, notReady⟩ := readyGate_holds s .backlightQuery rfl
  refine ⟨failed, notReady, fun hs hw => ?_, fun hs hw hb => ?_, fun hs hw hb => ?_, fun hs hw hb => ?_⟩
  · rw [exec, execBacklightQuery, gated_ready hs, hw]; rfl
  · rw [exec, execBacklightQuery, gated_ready hs, hw, hb]; rfl
  · rw [exec, execBacklightQuery, gated_ready hs, hw, hb]; rfl
  · rw [exec, execBacklightQuery, gated_ready hs, hw, hb]; rfl

end Sys2Proof.Machine
end

section
/-! SUPPORT. The display controller (O15, O29 to O36): what each byte of the wire does, the command and data frames put
on the bus by themselves, then the reset line. -/

namespace Sys2Proof.Machine

/-! ### Command bytes (R172) -/

section
variable {par : Params} {d : Dev}

theorem devByte_command_overHalfPixel (hd : d.pend ≠ none) (b : Byte) :
    devByte par false b d = .error (.partialPixel, d) :=
  if_pos (Option.isSome_iff_ne_none.2 hd)

theorem Dev.cutShort_of {cmd : CmdTable} (hd : d.cmd = some cmd.caset ∨ d.cmd = some cmd.raset)
    (h1 : 1 ≤ d.params.length) (h3 : d.params.length ≤ 3) : d.cutShort cmd = true := by
  simp [Dev.cutShort, hd, h1, h3]

theorem devByte_command_overCutBlock (hp : d.pend = none) (hd : d.cutShort par.cmd = true) (b : Byte) :
    devByte par false b d = .error (.incompleteParameters, d) := by
  simp [devByte, devCommand, hp, hd]

end

/-- A command frame that is sent and received has its command's own effect (R103, R172). -/
theorem exec_wire_ok {s : State} {name : WireName} {d : Dev} (hr : FrameReady s)
    (h : onLatch (s.par.cmd.code name) (s.dev.latched (s.par.cmd.code name)) name = .ok d) :
    exec name.instr s = .next (afterFrame false [s.par.cmd.code name] d s) := by
  rw [exec_wire, wireCommand_ok hr h]; rfl

/-- A command frame that is sent, and whose byte the controller faults (R280). -/
theorem exec_wire_raised {s : State} {name : WireName} {f : FaultCode} {d : Dev} (hb : busOk s.par s.xfers = true)
    (h : devByte s.par false (s.par.cmd.code name) s.dev = .error (f, d)) :
    exec name.instr s = .next (afterFault false [s.par.cmd.code name] d f s) := by
  have hframe := devFrame_single_error h
  rw [exec_wire, wireCommand, sendFrame_eq_send hb, send_raised hb (by rw [hframe]), hframe]; rfl

/-- Settles O34: the two faults come first, in the order of R172; a clean controller latches the byte. -/
theorem commandBytes : Obligations.CommandBytes := by
  intro s name hc hb
  refine ⟨fun hpend => ?_, fun hpend hcmd h1 h3 => ?_, fun hclean => devByte_command hc hclean name⟩
  · exact exec_wire_raised hb (devByte_command_overHalfPixel hpend _)
  · exact exec_wire_raised hb (devByte_command_overCutBlock hpend (Dev.cutShort_of hcmd h1 h3) _)

/-! ### Data bytes (R173) -/

section
variable {par : Params} {d : Dev}

theorem devByte_data_unlatched (hd : d.cmd = none) (b : Byte) :
    devByte par true b d = .error (.dataWithoutCommand, d) := by
  simp [devByte, devData, hd]

theorem devByte_data_pixel (hd : d.cmd ≠ none) (hr : d.ramwr = true) (b : Byte) :
    devByte par true b d = pixelByte par b d := by
  obtain ⟨c, hc⟩ := Option.ne_none_iff_exists'.1 hd
  simp [devByte, devData, hc, hr]

end

/-- A data frame that is sent, and whose bytes the controller takes (R103, R131). -/
theorem sendDataFrame_consumes {s : State} {bytes : List Byte} {d : Dev} (hb : busOk s.par s.xfers = true)
    (h : Consumes s.par true bytes s.dev d) : sendDataFrame bytes s = .next (afterFrame true bytes d s) := by
  rw [sendDataFrame, sendFrame_consumes hb h]; rfl

/-- Settles O35: the latch decides, then the open memory write. -/
theorem dataBytes : Obligations.DataBytes := fun _ _ b hc =>
  ⟨fun hd => devByte_data_unlatched hd b, fun hd hr => devByte_data_pixel hd hr b,
    fun _ hd hr => devByte_param hc hd hr b⟩

/-! ### Commands that take no parameter (R182, R183, R195, R196, R201 to R203) -/

theorem devByte_param_excess {par : Params} (hc : CodesDistinct par.cmd) {d : Dev} {name : WireName}
    (hn : ∀ b d, onParam b d name = paramNone d) (hd : d.cmd = some (par.cmd.code name)) (hr : d.ramwr = false)
    (b : Byte) : devByte par true b d = .error (.excessParameter, { d with params := d.params ++ [b] }) :=
  (devByte_param hc hd hr b).trans (hn ..)

/-- The commands that set one mode field. -/
def modeNames : List WireName := [.slpout, .noron, .invoff, .invon, .dispoff, .dispon]

theorem onParam_mode {name : WireName} (h : name ∈ modeNames) (b : Byte) (d : Dev) : onParam b d name = paramNone d := by
  simp only [modeNames, List.mem_cons, List.not_mem_nil, or_false] at h
  rcases h with rfl | rfl | rfl | rfl | rfl | rfl <;> rfl

/-- Settles O29: each frame's effect is its command's; a data byte after it is one parameter too many. -/
theorem modeCommands : Obligations.ModeCommands := by
  refine ⟨fun s hr => ⟨?slpout, ?noron, ?invoff, ?invon, ?dispoff, ?dispon⟩, fun par d b hc hr hd => ?excess⟩
  case slpout => exact exec_wire_ok (name := .slpout) hr rfl
  case noron => exact exec_wire_ok (name := .noron) hr rfl
  case invoff => exact exec_wire_ok (name := .invoff) hr rfl
  case invon => exact exec_wire_ok (name := .invon) hr rfl
  case dispoff => exact exec_wire_ok (name := .dispoff) hr rfl
  case dispon => exact exec_wire_ok (name := .dispon) hr rfl
  case excess =>
    have hmem : d.cmd ∈ modeNames.map fun name => some (par.cmd.code name) := hd
    obtain ⟨name, hname, hcmd⟩ := List.mem_map.1 hmem
    exact devByte_param_excess hc (onParam_mode hname) hcmd.symm hr b

/-- Settles O30: the controller is as after a reset, but for the latch. -/
theorem softwareReset : Obligations.SoftwareReset := by
  refine ⟨fun s hr => ?_, fun par d b hc hr hd => devByte_param_excess (name := .swreset) hc (fun _ _ => rfl) hd hr b⟩
  obtain ⟨_, _, ⟨hcolS, hcolE, hrowS, hrowE⟩, hramwr, hpend, ⟨hsleep, hdisp, hinv, hnormal, hmad⟩, hcfg, hgram⟩ :=
    forget_unknown (s.dev.latched s.par.cmd.swreset)
  exact ⟨_, exec_wire_ok (name := .swreset) hr rfl, rfl, rfl, hcolS, hcolE, hrowS, hrowE, hramwr, hpend, hsleep, hdisp,
    hinv, hnormal, hmad, hcfg, hgram⟩

/-! ### The window and the memory-access byte (R175, R176, R197) -/

section
variable {name : WireName} {d : Dev} (hn : name = .caset ∨ name = .raset)
include hn

theorem onParam_block_waits (h : d.params.length < 4) (b : Byte) : onParam b d name = .ok d := by
  rcases hn with rfl | rfl
  · exact (if_neg (by omega)).trans (if_neg (by omega))
  · exact (if_neg (by omega)).trans (if_neg (by omega))

theorem onParam_block_excess (h : 4 < d.params.length) (b : Byte) :
    onParam b d name = .error (.excessParameter, d) := by
  rcases hn with rfl | rfl
  · exact (if_neg (by omega)).trans (if_pos h)
  · exact (if_neg (by omega)).trans (if_pos h)

end

theorem paramMadctl_first {d : Dev} {m : Byte} (h : d.params = [m]) : paramMadctl d = .ok { d with madctl := some m } := by
  simp [paramMadctl, h]

theorem paramMadctl_excess {d : Dev} (h : 1 < d.params.length) : paramMadctl d = .error (.excessParameter, d) :=
  (if_neg (by omega)).trans (if_pos h)

/-- The latched command is CASET or RASET, by name. -/
theorem block_latched {cmd : CmdTable} {d : Dev} (h : d.cmd = some cmd.caset ∨ d.cmd = some cmd.raset) :
    ∃ name, (name = .caset ∨ name = .raset) ∧ d.cmd = some (cmd.code name) :=
  h.elim (fun h => ⟨.caset, .inl rfl, h⟩) (fun h => ⟨.raset, .inr rfl, h⟩)

/-- MADCTL's first data byte is the memory-access byte (R197). -/
theorem devByte_madctl_first {par : Params} (hc : CodesDistinct par.cmd) {d : Dev} (hd : d.cmd = some par.cmd.madctl)
    (hr : d.ramwr = false) (hp : d.params = []) (m : Byte) :
    devByte par true m d = .ok { d with params := [m], madctl := some m } := by
  rw [devByte_param (name := .madctl) hc hd hr m, hp]
  exact paramMadctl_first rfl

/-- Settles O31: each parameter byte meets the command's own count of them. -/
theorem addressCommands : Obligations.AddressCommands := by
  refine ⟨fun s hr => ⟨?caset, ?raset, ?madctl⟩,
    fun s a b hc hb hr hp => ⟨fun hd => ?columns, fun hd => ?rows, fun m hd => ?access⟩,
    fun par d b hc hr => ⟨fun hd hlen => ?waits, fun a1 a0 b1 hp => ?fourth, fun hd hp => ?accessByte,
      fun hd hlen => ?excess, fun hd hlen => ?accessExcess⟩⟩
  case caset => exact exec_wire_ok (name := .caset) hr rfl
  case raset => exact exec_wire_ok (name := .raset) hr rfl
  case madctl => exact exec_wire_ok (name := .madctl) hr rfl
  case columns => exact sendDataFrame_consumes hb (consumes_caset hc hd hr hp a b)
  case rows => exact sendDataFrame_consumes hb (consumes_raset hc hd hr hp a b)
  case access => exact sendDataFrame_consumes hb (Consumes.single (devByte_madctl_first hc hd hr hp m))
  case waits =>
    obtain ⟨name, hname, hcmd⟩ := block_latched hd
    rw [devByte_param hc hcmd hr b]
    exact onParam_block_waits hname (by simp; omega) _
  case fourth =>
    refine ⟨be16 a1 a0, be16 b1 b, toNat_be16 a1 a0, toNat_be16 b1 b, fun hd => ?_, fun hd => ?_⟩
    · rw [devByte_param (name := .caset) hc hd hr b, hp]; rfl
    · rw [devByte_param (name := .raset) hc hd hr b, hp]; rfl
  case accessByte => exact devByte_madctl_first hc hd hr hp b
  case excess =>
    obtain ⟨name, hname, hcmd⟩ := block_latched hd
    rw [devByte_param hc hcmd hr b]
    exact onParam_block_excess hname (by simp; omega) _
  case accessExcess =>
    rw [devByte_param (name := .madctl) hc hd hr b]
    exact paramMadctl_excess (by simp; omega)

/-! ### The memory write (R177 to R181) -/

theorem latchRamwr_opens {d : Dev} {colS colE rowS rowE : Half} (h1 : d.colS = some colS) (h2 : d.colE = some colE)
    (h3 : d.rowS = some rowS) (h4 : d.rowE = some rowE) (hcol : colS.toNat ≤ colE.toNat)
    (hrow : rowS.toNat ≤ rowE.toNat) :
    latchRamwr d = .ok { d with ramwr := true, ptrC := colS.toNat, ptrR := rowS.toNat, pend := none } := by
  simp only [latchRamwr, h1, h2, h3, h4]
  rw [if_neg (by omega)]

/-- The window lacks a bound, or its bounds are out of order (R177). -/
def Dev.WindowUnset (d : Dev) : Prop :=
  d.colS = none ∨ d.colE = none ∨ d.rowS = none ∨ d.rowE = none ∨
    (∃ a b, d.colS = some a ∧ d.colE = some b ∧ b.toNat < a.toNat) ∨
    (∃ a b, d.rowS = some a ∧ d.rowE = some b ∧ b.toNat < a.toNat)

theorem latchRamwr_unset {d : Dev} (h : d.WindowUnset) : latchRamwr d = .error (.windowUnset, d) := by
  unfold latchRamwr
  split
  next colS colE rowS rowE h1 h2 h3 h4 =>
    have hout : colE.toNat < colS.toNat ∨ rowE.toNat < rowS.toNat := by simpa [Dev.WindowUnset, h1, h2, h3, h4] using h
    exact if_pos hout
  next => rfl

/-- Settles O32: RAMWR is latched, and then only the window decides. -/
theorem memoryWriteOpens : Obligations.MemoryWriteOpens := by
  intro s hr
  refine ⟨fun colS colE rowS rowE h1 h2 h3 h4 hcol hrow => ?_, fun hw => ?_⟩
  · exact exec_wire_ok (name := .ramwr) hr (latchRamwr_opens h1 h2 h3 h4 hcol hrow)
  · have hlatched : (s.dev.latched s.par.cmd.ramwr).WindowUnset := hw
    exact exec_wire_raised (name := .ramwr) hr.2.1
      ((devByte_command hr.1 hr.2.2 .ramwr).trans (latchRamwr_unset hlatched))

section
variable {par : Params} {d : Dev}

theorem pixelByte_first (hp : d.pend = none) (b : Byte) : pixelByte par b d = .ok { d with pend := some b } := by
  simp [pixelByte, hp]

theorem pixelByte_second {high : Byte} (hp : d.pend = some high) (b : Byte) :
    pixelByte par b d = pixelWrite par (be16 high b) { d with pend := none } := by
  simp [pixelByte, hp]

theorem madIndex_none {m : Byte} (h : ∀ o, madTable o ≠ m) : madIndex m = none :=
  List.find?_eq_none.2 fun o _ => by simpa using h o

theorem extent_none (h : d.madctl = none ∨ ∃ m, d.madctl = some m ∧ ∀ o, madTable o ≠ m) : d.extent par = none := by
  rcases h with h | ⟨m, h, hm⟩
  · simp [Dev.extent, h]
  · simp [Dev.extent, h, madIndex_none hm]

theorem extent_madTable {o : Fin 4} (h : d.madctl = some (madTable o)) :
    d.extent par = some (gramLimitOf par.gramLimit o) := by simp [Dev.extent, h]

variable {colS colE rowE : Half} (h1 : d.colS = some colS) (h2 : d.colE = some colE) (h3 : d.rowE = some rowE)
include h1 h2 h3

theorem pixelWrite_pastLastRow (hr : rowE.toNat < d.ptrR) (v : Half) :
    pixelWrite par v d = .error (.windowOverrun, d) := by
  rw [pixelWrite_of h1 h2 h3, if_pos hr]

theorem pixelWrite_noExtent (hr : d.ptrR ≤ rowE.toNat) (he : d.extent par = none) (v : Half) :
    pixelWrite par v d = .error (.outOfGram, d) := by
  rw [pixelWrite_of h1 h2 h3, if_neg (by omega), he]

theorem pixelWrite_outside (hr : d.ptrR ≤ rowE.toNat) {lim : Extent} (he : d.extent par = some lim)
    (hout : lim.cols ≤ d.ptrC ∨ lim.rows ≤ d.ptrR) (v : Half) : pixelWrite par v d = .error (.outOfGram, d) := by
  rw [pixelWrite_of h1 h2 h3, if_neg (by omega), he]
  exact if_pos hout

theorem pixelWrite_inside (hr : d.ptrR ≤ rowE.toNat) {lim : Extent} (he : d.extent par = some lim)
    (hcol : d.ptrC < lim.cols) (hrow : d.ptrR < lim.rows) (v : Half) :
    pixelWrite par v d = .ok (Dev.advance colS colE { d with gram := d.gram.write d.ptrC d.ptrR v }) := by
  rw [pixelWrite_of h1 h2 h3, if_neg (by omega), he]
  exact if_neg (by omega)

end

theorem Dev.advance_eq (colS colE : Half) (d : Dev) : d.advance colS colE =
    { d with
      ptrC := if d.ptrC < colE.toNat then d.ptrC + 1 else colS.toNat,
      ptrR := if d.ptrC < colE.toNat then d.ptrR else d.ptrR + 1 } := by
  unfold Dev.advance; split <;> rfl

/-- Settles O36: the second byte's fate is the pixel write's, whose checks come in the order of R179 and R181. -/
theorem pixelBytes_holds : Obligations.PixelBytes := by
  intro par d b hcmd hramwr
  refine ⟨fun hp => (devByte_data_pixel hcmd hramwr b).trans (pixelByte_first hp b),
    fun high colS colE rowE hp h1 h2 h3 => ?_⟩
  rw [devByte_data_pixel hcmd hramwr b, pixelByte_second hp b]
  refine ⟨fun hrow => ?overrun, fun hrow hmad => ?noExtent,
    fun o hrow hmad => ⟨fun hout => ?outside, fun hc hr hg => ?inside⟩⟩
  case overrun => exact pixelWrite_pastLastRow (d := { d with pend := none }) h1 h2 h3 hrow _
  case noExtent => exact pixelWrite_noExtent (d := { d with pend := none }) h1 h2 h3 hrow (extent_none hmad) _
  case outside => exact pixelWrite_outside (d := { d with pend := none }) h1 h2 h3 hrow (extent_madTable hmad) hout _
  case inside =>
    have hw := pixelWrite_inside (d := { d with pend := none }) h1 h2 h3 hrow (extent_madTable hmad) hc hr (be16 high b)
    exact ⟨be16 high b, d.gram.write d.ptrC d.ptrR (be16 high b), toNat_be16 high b, hw.trans (by rw [Dev.advance_eq]),
      Frame.write_wf hg .., Frame.get_write hg _ _ _⟩

/-! ### The opaque commands (R184) -/

theorem exec_opaque {s : State} (hr : FrameReady s) {name : WireName} (ho : isOpaque name = true) :
    exec name.instr s = opaqueNext (s.par.cmd.code name) s := exec_wire_ok hr (onLatch_opaque ho ..)

/-- The parameter bytes of an opaque command join those it has had, and all of them are its configuration (R184). -/
theorem consumes_opaque_params {par : Params} (hc : CodesDistinct par.cmd) {name : WireName} (ho : isOpaque name = true)
    {d : Dev} (hd : d.cmd = some (par.cmd.code name)) (hr : d.ramwr = false) {xs : List Byte} (hxs : xs ≠ []) :
    Consumes par true xs d
      { d with params := d.params ++ xs, cfg := Sparse.set (par.cmd.code name).toNat (d.params ++ xs) d.cfg } := by
  obtain ⟨x, xs, rfl⟩ := List.exists_cons_of_ne_nil hxs
  have hfirst : devByte par true x d = .ok
      { d with params := d.params ++ [x], cfg := Sparse.set (par.cmd.code name).toNat (d.params ++ [x]) d.cfg } := by
    rw [devByte_param hc hd hr x, onParam_opaque ho]; rfl
  have hrest := Consumes.cons hfirst (consumes_opaque hc ho xs hd hr rfl rfl)
  simpa only [List.append_assoc, List.singleton_append] using hrest

/-- Settles O33: the latch empties the configuration, and each data byte writes the parameters so far to it. -/
theorem opaqueCommands : Obligations.OpaqueCommands := by
  refine ⟨fun s hr => ?_, fun s name xs ho hc hb hd hr hwf hxs => ?_⟩
  · have frame := fun name ho => exec_opaque hr (name := name) ho
    exact ⟨frame .frmctr1 rfl, frame .frmctr2 rfl, frame .frmctr3 rfl, frame .invctr rfl, frame .pwctr1 rfl,
      frame .pwctr2 rfl, frame .pwctr3 rfl, frame .pwctr4 rfl, frame .pwctr5 rfl, frame .vmctr1 rfl, frame .colmod rfl,
      frame .gmctrp1 rfl, frame .gmctrn1 rfl⟩
  · exact ⟨_, sendDataFrame_consumes hb (consumes_opaque_params hc ho hd hr hxs), fun c => Sparse.get_set _ c _ hwf⟩

/-! ### The reset line (R171) -/

/-- Settles O15: driven to 0 it makes the controller forget; no other drive reaches it. -/
theorem hardwareReset : Obligations.HardwareReset := fun s => ⟨forget_unknown s.dev, rfl⟩

end Sys2Proof.Machine
end

section
/-! SUPPORT. The drawing requests (O38 to O43, O45, O46, O52): each runs its list of fills, and a bad operand or a bad fill
stops it. -/

namespace Sys2Proof.Machine

/-! ### PACK_COLOR (R221) -/

/-- The three channels lie side by side: none reaches into another (R110). -/
theorem channels_or_eq_add (r g b : Byte) :
    ((r.toNat >>> 3) <<< 11) ||| ((g.toNat >>> 2) <<< 5) ||| (b.toNat >>> 3) =
      r.toNat / 8 * 2 ^ 11 + (g.toNat / 4 * 2 ^ 5 + b.toNat / 8) := by
  have hg := g.isLt
  have hb := b.isLt
  rw [Nat.lor_assoc, ← Nat.shiftLeft_add_eq_or_of_lt (b := b.toNat >>> 3) (by omega),
    ← Nat.shiftLeft_add_eq_or_of_lt (by omega)]
  omega

/-- Settles O38: side by side the three channels fit 16 bits, and each can be read back. -/
theorem packColor_holds : Obligations.PackColor := by
  refine ⟨fun s r g b => ⟨packColor r g b, rfl, ?_⟩, by decide, by decide, by decide⟩
  have hr := r.isLt
  have hg := g.isLt
  have hb := b.isLt
  rw [packColor, BitVec.toNat_ofNat, channels_or_eq_add]
  omega

/-! ### The fault of a fill (R220, R234) -/

section
variable {par : Params} {p : Panel} {f : Fill}

theorem Fill.fault_negative (h : f.x < 0 ∨ f.y < 0) : f.fault par p = some .negativeCoordinate := if_pos h

theorem Fill.fault_extent (hx : 0 ≤ f.x) (hy : 0 ≤ f.y) (h : f.w ≤ 0 ∨ f.h ≤ 0) :
    f.fault par p = some .nonPositiveExtent := by
  rw [Fill.fault, if_neg (by omega), if_pos h]

theorem Fill.fault_overshoot (hl : f.Legal) (hc : par.clip = .fault) (h : ¬f.Inside p) :
    f.fault par p = some .outOfRange := by
  obtain ⟨hx, hy, hw, hh⟩ := hl
  rw [Fill.fault, if_neg (by omega), if_neg (by omega), if_pos ⟨hc, h⟩]

theorem admissible_single (hl : f.Legal) (ha : f.Admitted par p) : Admissible par p [f] := by
  simpa [Admissible] using And.intro hl ha

end

/-! ### Pixels and rectangles (R222 to R225) -/

theorem exec_setPixel_faulted {p : Panel} {s : State} {x y : Word} {c : Half} {k : FaultCode} (hd : Drawable p s)
    (h : (Fill.pixel (sext32 x) (sext32 y) c).fault s.par p = some k) :
    exec (.setPixel x y c) s = .next (s.withFault k) :=
  session_error hd.ready hd.panel ((plot_eq_rect ..).trans (rect_stops h))

theorem exec_fillRect_faulted {p : Panel} {s : State} {x y w h : Word} {c : Half} {k : FaultCode} (hd : Drawable p s)
    (hf : Fill.fault s.par p ⟨sext32 x, sext32 y, sext32 w, sext32 h, c⟩ = some k) :
    exec (.fillRect x y w h c) s = .next (s.withFault k) :=
  session_error hd.ready hd.panel (rect_stops hf)

/-- Settles O39: the request is its one fill, and a fill's fault is the request's. -/
theorem setPixel : Obligations.SetPixel := by
  intro p s x y c hd
  refine ⟨fun hx hy ha => ?_, fun hneg => ?_, fun hx hy hc hoff => ?_⟩
  · exact draws_of_fills hd (plot_eq_drawFills ..) (admissible_single ⟨hx, hy, le_refl _, le_refl _⟩ ha)
  · exact exec_setPixel_faulted hd (Fill.fault_negative hneg)
  · exact exec_setPixel_faulted hd (Fill.fault_overshoot ⟨hx, hy, le_refl _, le_refl _⟩ hc (by
      simp only [Fill.Inside, Fill.pixel]; omega))

theorem exec_fillRect_draws {p : Panel} {s : State} {x y w h : Word} {c : Half} (hd : Drawable p s)
    (hl : Fill.Legal ⟨sext32 x, sext32 y, sext32 w, sext32 h, c⟩)
    (ha : Fill.Admitted s.par p ⟨sext32 x, sext32 y, sext32 w, sext32 h, c⟩) :
    Draws p [⟨sext32 x, sext32 y, sext32 w, sext32 h, c⟩] s (exec (.fillRect x y w h c) s) :=
  draws_of_fills hd (drawFills_single p ⟨_, _, _, _, _⟩ s).symm (admissible_single hl ha)

/-- Settles O40: as for SET_PIXEL. -/
theorem fillRect : Obligations.FillRect := by
  intro p s x y w h c hd
  refine ⟨fun hx hy hw hh ha => ?_, fun hneg => ?_, fun hx hy hext => ?_, fun hx hy hw hh hc hover => ?_⟩
  · exact exec_fillRect_draws hd ⟨hx, hy, hw, hh⟩ ha
  · exact exec_fillRect_faulted hd (Fill.fault_negative hneg)
  · exact exec_fillRect_faulted hd (Fill.fault_extent hx hy hext)
  · exact exec_fillRect_faulted hd (Fill.fault_overshoot ⟨hx, hy, hw, hh⟩ hc (by simp only [Fill.Inside]; omega))

/-- The operand 1 is the extent of a run across its axis (R224, R225). -/
theorem sext32_one : sext32 1 = 1 := by decide

theorem exec_hline (s : State) (x y len : Word) (c : Half) : exec (.hline x y len c) s = exec (.fillRect x y len 1 c) s := by
  rw [exec, exec, execFillRect, sext32_one]; rfl

theorem exec_vline (s : State) (x y len : Word) (c : Half) : exec (.vline x y len c) s = exec (.fillRect x y 1 len c) s := by
  rw [exec, exec, execFillRect, sext32_one]; rfl

/-- Settles O41: a run is the rectangle whose other extent is the operand 1. -/
theorem axisRuns : Obligations.AxisRuns := by
  refine ⟨fun s x y len c => ⟨exec_hline .., exec_vline ..⟩, fun p s x y len c hd hx hy hlen =>
    ⟨fun ha => ?_, fun ha => ?_⟩⟩
  · rw [← sext32_one] at ha ⊢
    rw [exec_hline]
    exact exec_fillRect_draws hd ⟨hx, hy, hlen, sext32_one.ge⟩ ha
  · rw [← sext32_one] at ha ⊢
    rw [exec_vline]
    exact exec_fillRect_draws hd ⟨hx, hy, sext32_one.ge, hlen⟩ ha

/-! ### Lines (R226, R227) -/

/-- Settles O42: the request is its list of fills; the check of the endpoints comes before it. -/
theorem line : Obligations.Line := by
  intro p s x0 y0 x1 y1 c hd
  refine ⟨fun hx0 hy0 hx1 hy1 ha => ?_, fun hneg => ?_⟩
  · exact draws_of_fills hd (drawLine_eq ⟨hx0, hy0, hx1, hy1⟩ s) ha
  · exact session_error hd.ready hd.panel (if_pos hneg)

theorem bresenhamSwap_comm (p : Panel) (steep : Bool) {x0 x1 : Int} (hx : x0 ≠ x1) (y0 y1 : Int) (c : Half) (s : State) :
    bresenhamSwap p steep x0 y0 x1 y1 c s = bresenhamSwap p steep x1 y1 x0 y0 c s := by
  unfold bresenhamSwap
  rcases lt_or_gt_of_ne hx with h | h
  · rw [if_neg h.not_gt, if_pos h]
  · rw [if_pos h, if_neg (not_lt.2 h.le)]

theorem bresenham_comm (p : Panel) {x0 y0 x1 y1 : Int} (hx : x0 ≠ x1) (hy : y0 ≠ y1) (c : Half) (s : State) :
    bresenham p x0 y0 x1 y1 c s = bresenham p x1 y1 x0 y0 c s := by
  rw [bresenham, bresenham, bresenhamSwap_comm p true hy, bresenhamSwap_comm p false hx, abs_sub_comm x1, abs_sub_comm y1]

/-- Each of the three ways of R226 takes the endpoints in either order. -/
theorem drawLine_comm (p : Panel) (x0 y0 x1 y1 : Int) (c : Half) (s : State) :
    drawLine p x0 y0 x1 y1 c s = drawLine p x1 y1 x0 y0 c s := by
  have hneg : (x1 < 0 ∨ y1 < 0 ∨ x0 < 0 ∨ y0 < 0) = (x0 < 0 ∨ y0 < 0 ∨ x1 < 0 ∨ y1 < 0) := propext (by omega)
  simp only [drawLine, hneg, eq_comm (a := x1) (b := x0), eq_comm (a := y1) (b := y0), min_comm x1, min_comm y1,
    abs_sub_comm x0, abs_sub_comm y0]
  split
  · rfl
  split
  next _ hx => rw [hx]
  next _ hx =>
    split
    next hy => rw [hy]
    next hy => exact bresenham_comm p hx hy c s

/-- Settles O43: behind the gate the two requests draw alike. -/
theorem lineSymmetry : Obligations.LineSymmetry := by
  intro s x0 y0 x1 y1 c
  simp only [exec, execLine, drawLine_comm _ (sext32 x0)]

/-! ### Circles (R228 to R233) -/

theorem checkedCircle_negativeCentre {cx cy : Int} (h : cx < 0 ∨ cy < 0) (p : Panel) (r : Int) (c : Half) (quads : Byte)
    (fill : Bool) (f : Half) (s : State) :
    checkedCircle p cx cy r c quads fill f s = .error (s.withFault .negativeCoordinate) := if_pos h

theorem checkedCircle_negativeRadius {cx cy r : Int} (hx : 0 ≤ cx) (hy : 0 ≤ cy) (hr : r < 0) (p : Panel) (c : Half)
    (quads : Byte) (fill : Bool) (f : Half) (s : State) :
    checkedCircle p cx cy r c quads fill f s = .error (s.withFault .negativeRadius) := by
  rw [checkedCircle, if_neg (by omega), if_pos hr]; rfl

/-- A fault of the core, whatever the mask and the fill, is the fault of each of the three requests. -/
theorem exec_circles_faulted {p : Panel} {s : State} (hd : Drawable p s) {cx cy r : Word} {c : Half} {k : FaultCode}
    (h : ∀ quads fill f, checkedCircle p (sext32 cx) (sext32 cy) (sext32 r) c quads fill f s = .error (s.withFault k))
    (quads : Byte) (fill hasFill : Bool) (fc : Half) :
    exec (.circle cx cy r c) s = .next (s.withFault k) ∧
    exec (.circleFilled cx cy r c hasFill fc) s = .next (s.withFault k) ∧
    exec (.circleSegment cx cy r c quads fill hasFill fc) s = .next (s.withFault k) :=
  ⟨session_error hd.ready hd.panel (h ..), session_error hd.ready hd.panel (h ..), session_error hd.ready hd.panel (h ..)⟩

/-- Settles O45: the three requests share one core, which is a list of fills behind two checks. -/
theorem circles : Obligations.Circles := by
  intro p s cx cy r c fc quads fill hasFill hd
  refine ⟨fun hx hy hr => ?_, fun hneg => ?_, fun hx hy hr => ?_⟩
  · have draws := fun quads fill f => checkedCircle_eq ⟨hx, hy, hr⟩ p c quads fill f s
    exact ⟨draws_of_fills hd (draws ..), draws_of_fills hd (draws ..), draws_of_fills hd (draws ..)⟩
  · exact exec_circles_faulted hd (fun _ _ _ => checkedCircle_negativeCentre hneg ..) ..
  · exact exec_circles_faulted hd (fun _ _ _ => checkedCircle_negativeRadius hx hy hr ..) ..

/-- A circle that is not filled does not read the fill colour. -/
theorem checkedCircle_unfilled (p : Panel) (cx cy r : Int) (c : Half) (quads : Byte) (f f' : Half) (s : State) :
    checkedCircle p cx cy r c quads false f s = checkedCircle p cx cy r c quads false f' s := by
  simp [checkedCircle, drawCircle, circleLoop_eq]

theorem circleFills_noQuadrant (cx cy r : Int) (c : Half) (fill : Bool) (f : Half) :
    circleFills cx cy r c 0x00 fill f = [] := by
  refine List.flatMap_eq_nil_iff.2 fun xy _ => ?_
  cases fill <;> simp [stepSpans, stepPixels, spanFills]

/-- Settles O46: the whole mask is the mask of the other two requests; the empty one has no fills. -/
theorem segmentForms : Obligations.SegmentForms := by
  refine ⟨fun s cx cy r c fc hasFill => ⟨?_, rfl⟩, fun p s cx cy r c fc fill hasFill hr hp hx hy hrad => ?_⟩
  · simp only [exec, execCircleSegment, checkedCircle_unfilled _ _ _ _ _ _ (fillChoice c hasFill fc) c]
    rfl
  · have hnone : checkedCircle p (sext32 cx) (sext32 cy) (sext32 r) c 0x00 fill (fillChoice c hasFill fc) s = .ok s := by
      rw [checkedCircle_eq ⟨hx, hy, hrad⟩, circleFills_noQuadrant]; rfl
    exact session_ok hr hp hnone

/-! ### The first bad fill -/

theorem fontOf_valid {fw fh fs fe : Byte} (hw : 1 ≤ fw.toNat) (hh : 1 ≤ fh.toNat) (hh8 : fh.toNat ≤ 8)
    (hse : fs.toNat ≤ fe.toNat) (fb : Word) : (fontOf fw fh fs fe fb).valid = true := by
  simp [Font.valid, fontOf, hw, hh, hh8, hse]

/-- Settles O52: each request runs its list of fills, and a list stops at its first bad fill. -/
theorem shapesStopAtTheFirstBadFill : Obligations.ShapesStopAtTheFirstBadFill := by
  intro p s pre post bad k hd ha hbad
  refine ⟨?line, ?circle, ?circleFilled, ?circleSegment, ?text⟩
  case line =>
    intro x0 y0 x1 y1 c hx0 hy0 hx1 hy1 hfills
    exact stops_of_fills hd (hfills ▸ drawLine_eq ⟨hx0, hy0, hx1, hy1⟩ s) ha hbad
  case circle =>
    intro cx cy r c hx hy hr hfills
    exact stops_of_fills hd (hfills ▸ checkedCircle_eq ⟨hx, hy, hr⟩ p c _ _ _ s) ha hbad
  case circleFilled =>
    intro cx cy r c hasFill fc hx hy hr hfills
    exact stops_of_fills hd (hfills ▸ checkedCircle_eq ⟨hx, hy, hr⟩ p c _ _ _ s) ha hbad
  case circleSegment =>
    intro cx cy r c quads fill hasFill fc hx hy hr hfills
    exact stops_of_fills hd (hfills ▸ checkedCircle_eq ⟨hx, hy, hr⟩ p c _ _ _ s) ha hbad
  case text =>
    intro x y c scale fw fh fs fe fb codes hx hy hs hw hh hh8 hse hread hfills
    exact stops_of_fills hd (hfills ▸ drawText_eq hx hy hs (fontOf_valid hw hh hh8 hse fb) hread c) ha hbad

end Sys2Proof.Machine
end

section
/-! SUPPORT. The pixels of a slanted line (O44): proved for the endpoints in order with `x` dominant, and carried over to
the other lines by exchanging the endpoints and the axes. -/

namespace Sys2Proof.Machine

/-- The minor coordinate is the exact one rounded to the nearest: off by at most half (R227). -/
theorem minorOffset_near {dx dy : Int} (hdx : 0 < dx) (k : Nat) : 2 * |k * dy - minorOffset dx dy k * dx| ≤ dx := by
  obtain ⟨h0, h1⟩ := minorOffset_spec (dy := dy) hdx k
  have habs : |k * dy - minorOffset dx dy k * dx| ≤ dx / 2 := abs_le.2 ⟨by omega, by omega⟩
  omega

theorem minorOffset_nonneg {dx dy : Int} (hdx : 0 < dx) (hdy : 0 ≤ dy) (k : Nat) : 0 ≤ minorOffset dx dy k :=
  Int.ediv_nonneg (by have := mul_nonneg (Int.natCast_nonneg k) hdy; omega) hdx.le

theorem minorOffset_last {dx : Int} (hdx : 0 < dx) (dy : Int) : minorOffset dx dy dx.toNat = dy := by
  have hk : ((dx.toNat : Nat) : Int) = dx := Int.toNat_of_nonneg hdx.le
  refine (minorOffset_unique (dy := dy) hdx _ ?_ ?_).symm <;> rw [hk, mul_comm dy] <;> omega

theorem minorOffset_le {dx dy : Int} (hdx : 0 < dx) (hdy : 0 ≤ dy) {k : Nat} (hk : (k : Int) ≤ dx) :
    minorOffset dx dy k ≤ dy := by
  calc minorOffset dx dy k ≤ minorOffset dx dy dx.toNat := by
        refine Int.ediv_le_ediv hdx ?_
        have := mul_le_mul_of_nonneg_right (show (k : Int) ≤ (dx.toNat : Nat) by omega) hdy
        omega
    _ = dy := minorOffset_last hdx dy

/-- The fills trace the segment between two points: what R227 says of a slanted line. -/
structure Traces (x0 y0 x1 y1 : Int) (c : Half) (fills : List Fill) : Prop where
  length : (fills.length : Int) = max |x1 - x0| |y1 - y0| + 1
  first : Fill.pixel x0 y0 c ∈ fills
  last : Fill.pixel x1 y1 c ∈ fills
  near : ∀ f ∈ fills, f = Fill.pixel f.x f.y c ∧
    min x0 x1 ≤ f.x ∧ f.x ≤ max x0 x1 ∧ min y0 y1 ≤ f.y ∧ f.y ≤ max y0 y1 ∧
    2 * |(f.x - x0) * (y1 - y0) - (f.y - y0) * (x1 - x0)| ≤ max |x1 - x0| |y1 - y0|

/-- A segment is the same from either end. -/
theorem Traces.reverse {x0 y0 x1 y1 : Int} {c : Half} {fills : List Fill} (h : Traces x1 y1 x0 y0 c fills) :
    Traces x0 y0 x1 y1 c fills where
  length := by rw [abs_sub_comm x1, abs_sub_comm y1]; exact h.length
  first := h.last
  last := h.first
  near := by
    intro f hf
    obtain ⟨hpix, hx0, hx1, hy0, hy1, hnear⟩ := h.near f hf
    have hcross : (f.x - x0) * (y1 - y0) - (f.y - y0) * (x1 - x0) =
        -((f.x - x1) * (y0 - y1) - (f.y - y1) * (x0 - x1)) := by ring
    rw [hcross, abs_neg, abs_sub_comm x1, abs_sub_comm y1, min_comm x0, max_comm x0, min_comm y0, max_comm y0]
    exact ⟨hpix, hx0, hx1, hy0, hy1, hnear⟩

/-- The fill with the axes exchanged. -/
def Fill.transpose (f : Fill) : Fill := { f with x := f.y, y := f.x, w := f.h, h := f.w }

theorem Fill.transpose_pixel (x y : Int) (c : Half) : (Fill.pixel x y c).transpose = Fill.pixel y x c := rfl

theorem Traces.transpose {x0 y0 x1 y1 : Int} {c : Half} {fills : List Fill} (h : Traces y0 x0 y1 x1 c fills) :
    Traces x0 y0 x1 y1 c (fills.map Fill.transpose) where
  length := by rw [List.length_map, max_comm]; exact h.length
  first := List.mem_map.2 ⟨_, h.first, rfl⟩
  last := List.mem_map.2 ⟨_, h.last, rfl⟩
  near := by
    intro f hf
    obtain ⟨g, hg, rfl⟩ := List.mem_map.1 hf
    obtain ⟨hpix, hx0, hx1, hy0, hy1, hnear⟩ := h.near g hg
    have hcross : (g.y - x0) * (y1 - y0) - (g.x - y0) * (x1 - x0) =
        -((g.x - y0) * (x1 - x0) - (g.y - x0) * (y1 - y0)) := by ring
    refine ⟨congrArg Fill.transpose hpix, hy0, hy1, hx0, hx1, ?_⟩
    rw [Fill.transpose, hcross, abs_neg, max_comm]
    exact hnear

/-- A steep line is the flat one with the axes exchanged (R227). -/
theorem linePixelsOrdered_steep (x0 y0 x1 y1 : Int) (c : Half) :
    linePixelsOrdered true x0 y0 x1 y1 c = (linePixelsOrdered false x0 y0 x1 y1 c).map Fill.transpose := by
  simp [linePixelsOrdered, linePixels, apply_ite (List.map Fill.transpose), Function.comp_def, Fill.transpose_pixel]

/-! ### The flat ordered line -/

/-- Which way the minor coordinate goes (R227). -/
abbrev minorStep (y0 y1 : Int) : Int := if y0 < y1 then 1 else -1

theorem minorStep_mul_abs (y0 y1 : Int) : minorStep y0 y1 * |y1 - y0| = y1 - y0 := by
  unfold minorStep
  split
  next h => rw [abs_of_pos (by omega), one_mul]
  next h => rw [abs_of_nonpos (by omega), neg_one_mul, neg_neg]

theorem minorStep_mul_between {y0 y1 m : Int} (h0 : 0 ≤ m) (h1 : m ≤ |y1 - y0|) :
    min y0 y1 ≤ y0 + minorStep y0 y1 * m ∧ y0 + minorStep y0 y1 * m ≤ max y0 y1 := by
  unfold minorStep
  split
  next h => rw [abs_of_pos (by omega)] at h1; omega
  next h => rw [abs_of_nonpos (by omega)] at h1; omega

theorem abs_minorStep_mul (y0 y1 z : Int) : |minorStep y0 y1 * z| = |z| := by
  unfold minorStep
  split
  · rw [one_mul]
  · rw [neg_one_mul, abs_neg]

/-- How far a pixel of the line is off it, multiplied out, is what the rounding of its minor coordinate left (R227). -/
theorem cross_minorStep (x0 y0 y1 dx m : Int) (k : Nat) :
    |(x0 + k - x0) * (y1 - y0) - (y0 + minorStep y0 y1 * m - y0) * dx| = |k * |y1 - y0| - m * dx| := by
  rw [← abs_minorStep_mul y0 y1 (k * |y1 - y0| - m * dx)]
  congr 1
  conv_lhs => rw [← minorStep_mul_abs y0 y1]
  ring

theorem mem_linePixels_flat {x0 y0 x1 y1 : Int} (hx : x0 < x1) {c : Half} {f : Fill} :
    f ∈ linePixels false x0 y0 x1 y1 c ↔ ∃ k : Nat, (k : Int) ≤ x1 - x0 ∧
      Fill.pixel (x0 + k) (y0 + minorStep y0 y1 * minorOffset (x1 - x0) |y1 - y0| k) c = f := by
  have hlt : ∀ k : Nat, k < (x1 - x0 + 1).toNat ↔ (k : Int) ≤ x1 - x0 := fun k => by omega
  simp [linePixels, hlt]

/-- A line along its dominant axis, from the smaller dominant coordinate on, traces its segment (R227). -/
theorem linePixels_traces {x0 y0 x1 y1 : Int} (hx : x0 < x1) (hy : |y1 - y0| ≤ x1 - x0) (c : Half) :
    Traces x0 y0 x1 y1 c (linePixels false x0 y0 x1 y1 c) := by
  have hdx : 0 < x1 - x0 := by omega
  have hmax : max |x1 - x0| |y1 - y0| = x1 - x0 := by rw [abs_of_pos hdx, max_eq_left hy]
  constructor
  case length => rw [hmax, linePixels, List.length_map, List.length_range]; omega
  case first =>
    refine (mem_linePixels_flat hx).2 ⟨0, by omega, ?_⟩
    rw [minorOffset_zero hdx, mul_zero, add_zero, Nat.cast_zero, add_zero]
  case last =>
    refine (mem_linePixels_flat hx).2 ⟨(x1 - x0).toNat, by omega, ?_⟩
    rw [minorOffset_last hdx, minorStep_mul_abs, Int.toNat_of_nonneg hdx.le, add_sub_cancel, add_sub_cancel]
  case near =>
    intro f hf
    obtain ⟨k, hk, rfl⟩ := (mem_linePixels_flat hx).1 hf
    obtain ⟨hlow, hhigh⟩ := minorStep_mul_between (minorOffset_nonneg hdx (abs_nonneg (y1 - y0)) k)
      (minorOffset_le hdx (abs_nonneg _) hk)
    refine ⟨rfl, ?_, ?_, hlow, hhigh, ?_⟩
    · simp only [Fill.pixel]; omega
    · simp only [Fill.pixel]; omega
    · rw [hmax, Fill.pixel, cross_minorStep]
      exact minorOffset_near hdx k

theorem linePixelsOrdered_traces {x0 y0 x1 y1 : Int} (hx : x0 ≠ x1) (hy : |y1 - y0| ≤ |x1 - x0|) (c : Half) :
    Traces x0 y0 x1 y1 c (linePixelsOrdered false x0 y0 x1 y1 c) := by
  unfold linePixelsOrdered
  split
  next h =>
    rw [abs_sub_comm y1, abs_of_neg (show x1 - x0 < 0 by omega), neg_sub] at hy
    exact (linePixels_traces h hy c).reverse
  next h =>
    rw [abs_of_pos (show 0 < x1 - x0 by omega)] at hy
    exact linePixels_traces (by omega) hy c

theorem lineFills_traces {x0 y0 x1 y1 : Int} (hx : x0 ≠ x1) (hy : y0 ≠ y1) (c : Half) :
    Traces x0 y0 x1 y1 c (lineFills x0 y0 x1 y1 c) := by
  rw [lineFills, if_neg hx, if_neg hy]
  split
  next h => rw [linePixelsOrdered_steep]; exact (linePixelsOrdered_traces hy h.le c).transpose
  next h => exact linePixelsOrdered_traces hx (not_lt.1 h) c

/-- Settles O44: every slanted line is the flat ordered one, up to the order of its endpoints and of the axes. -/
theorem lineGeometry : Obligations.LineGeometry := by
  intro x0 y0 x1 y1 c hx hy
  obtain ⟨hlength, hfirst, hlast, hnear⟩ := lineFills_traces hx hy c
  exact ⟨hlength, hfirst, hlast, hnear⟩

end Sys2Proof.Machine
end

section
/-! SUPPORT. The midpoint circle (O47, O48): the loop's invariant, its points, and the outline points they give. -/

namespace Sys2Proof.Machine

/-! ### The loop's end (R228) -/

/-- With a step for each value of `y` up to `x` the loop ends by itself: `y` grows at each step and `x` does not. -/
theorem octantSteps_enough (n : Nat) : ∀ {x y err : Int}, x - y < n → ∀ k,
    octantSteps (n + k) x y err = octantSteps n x y err := by
  induction n with
  | zero =>
    intro x y err h k
    cases k with
    | zero => rfl
    | succ k => rw [Nat.zero_add]; exact if_pos (by omega)
  | succ n ih =>
    intro x y err h k
    rw [Nat.succ_add, octantSteps, octantSteps]
    split
    · rfl
    split
    · rw [ih (by omega)]
    · rw [ih (by omega)]

/-- One point for each `y`, in order. -/
theorem octantSteps_rows (n : Nat) : ∀ x y err : Int, (octantSteps n x y err).map Prod.snd =
    (List.range (octantSteps n x y err).length).map (fun k : Nat => y + k) := by
  induction n with
  | zero => intro x y err; rfl
  | succ n ih =>
    intro x y err
    have hrest : ∀ x' err' : Int, y :: (octantSteps n x' (y + 1) err').map Prod.snd =
        (List.range ((octantSteps n x' (y + 1) err').length + 1)).map (fun k : Nat => y + k) := by
      intro x' err'
      rw [ih, List.range_succ_eq_map, List.map_cons, List.map_map]
      simp [Function.comp_def, add_assoc, add_comm (1 : Int)]
    rw [octantSteps]
    split
    · rfl
    split
    · exact hrest ..
    · exact hrest ..

/-! ### The loop's invariant (R228) -/

/-- Where the loop stands: `err` is `(x - 1/2)² + (y + 1)² - r²` without the quarter, so its sign says whether the point one
row on is within half a pixel of the circle at this `x`; the point itself is, as long as it is in the octant. -/
structure MidpointInv (r x y err : Int) : Prop where
  row : 0 ≤ y
  col : x ≤ r
  err : err = x * x - x + (y + 1) * (y + 1) - r * r
  outer : r * r ≤ x * x + x + y * y
  inner : 1 ≤ r → y ≤ x → x * x - x + y * y < r * r

theorem midpointInv_start {r : Int} (hr : 0 ≤ r) : MidpointInv r r 0 (1 - r) where
  row := le_refl _
  col := le_refl _
  err := by ring
  outer := by linarith
  inner := fun h1 _ => by linarith

/-- The midpoint is inside the circle: `x` stays. -/
theorem MidpointInv.stay {r x y err : Int} (h : MidpointInv r x y err) (he : err < 0) :
    MidpointInv r x (y + 1) (err + 2 * (y + 1) + 1) where
  row := by linarith [h.row]
  col := h.col
  err := by rw [h.err]; ring
  outer := by linarith [h.outer, h.row]
  inner := fun _ _ => by linarith [h.err]

/-- The midpoint is on the circle or outside: `x` goes down. -/
theorem MidpointInv.down {r x y err : Int} (h : MidpointInv r x y err) (hxy : y ≤ x) (he : 0 ≤ err) :
    MidpointInv r (x - 1) (y + 1) (err + 2 * ((y + 1) - (x - 1)) + 1) where
  row := by linarith [h.row]
  col := by linarith [h.col]
  err := by rw [h.err]; ring
  outer := by linarith [h.err]
  inner := fun h1 _ => by linarith [h.inner h1 hxy]

/-- What every point of the loop meets. -/
def OctantPoint (r : Int) (q : Int × Int) : Prop :=
  0 ≤ q.2 ∧ q.2 ≤ q.1 ∧ q.1 ≤ r ∧
    (1 ≤ r → q.1 * q.1 - q.1 + q.2 * q.2 < r * r) ∧ r * r ≤ q.1 * q.1 + q.1 + q.2 * q.2

theorem octantSteps_points {r : Int} (n : Nat) : ∀ {x y err : Int}, MidpointInv r x y err →
    ∀ q ∈ octantSteps n x y err, OctantPoint r q := by
  induction n with
  | zero => intro x y err _ q hq; cases hq
  | succ n ih =>
    intro x y err h q hq
    rw [octantSteps] at hq
    split at hq
    next => cases hq
    next hxy =>
      have hxy : y ≤ x := not_lt.1 hxy
      obtain rfl | hq := List.mem_cons.1 hq
      · exact ⟨h.row, hxy, h.col, fun h1 => h.inner h1 hxy, h.outer⟩
      split at hq
      next he => exact ih (h.stay he) q hq
      next he => exact ih (h.down hxy (not_lt.1 he)) q hq

/-- Settles O48: the loop's invariant gives the bounds, the fuel is one step for each value of `y`. -/
theorem octantPoints : Obligations.OctantPoints := by
  refine ⟨fun r hr => ⟨fun k => ?_, ?_, ?_⟩, by decide, by decide, by decide, by decide⟩
  · exact octantSteps_enough _ (by omega) k
  · simpa only [zero_add] using octantSteps_rows (r + 1).toNat r 0 (1 - r)
  · exact octantSteps_points _ (midpointInv_start hr)

/-! ### The outline points of a segment (R93, R229) -/

/-- The fill lies in the quadrant, relative to the centre. -/
def Quadrant.holds (cx cy : Int) (f : Fill) : Quadrant → Prop
  | .ul => f.x ≤ cx ∧ f.y ≤ cy
  | .ur => cx ≤ f.x ∧ f.y ≤ cy
  | .ll => f.x ≤ cx ∧ cy ≤ f.y
  | .lr => cx ≤ f.x ∧ cy ≤ f.y

/-- Each of the eight symmetric points lies in the quadrant it is listed with (R229). -/
theorem symmetricPoints_quadrant {cx cy x y : Int} (hx : 0 ≤ x) (hy : 0 ≤ y) (c : Half) :
    ∀ q ∈ symmetricPoints cx cy x y, q.1.holds cx cy (Fill.pixel q.2.1 q.2.2 c) := by
  simp [symmetricPoints, Quadrant.holds, Fill.pixel, hx, hy]

theorem stepPixels_quadrant {cx cy x y : Int} (hx : 0 ≤ x) (hy : 0 ≤ y) {quads : Byte} {c : Half} {f : Fill}
    (hf : f ∈ stepPixels cx cy quads c (x, y)) :
    f = Fill.pixel f.x f.y c ∧ ∃ q, selects quads q = true ∧ q.holds cx cy f := by
  rw [stepPixels_eq] at hf
  obtain ⟨q, hq, hsel⟩ := List.mem_filterMap.1 hf
  split at hsel
  next hs =>
    cases hsel
    exact ⟨rfl, q.1, hs, symmetricPoints_quadrant hx hy c q hq⟩
  next => cases hsel

/-- Settles O47: a fill of an unfilled segment is an outline point of some octant point, which has no negative
coordinate. -/
theorem quadrantFilter : Obligations.QuadrantFilter := by
  intro cx cy r c fc quads hr f hf
  obtain ⟨⟨x, y⟩, hxy, hmem⟩ := List.mem_flatMap.1 hf
  obtain ⟨hy, hyx, -⟩ := octantSteps_points _ (midpointInv_start hr) _ hxy
  obtain ⟨hpixel, q, hsel, hquad⟩ := stepPixels_quadrant (le_trans hy hyx) hy hmem
  refine ⟨hpixel, ?_⟩
  cases q with
  | ul => exact .inl ⟨hsel, hquad⟩
  | ur => exact .inr (.inl ⟨hsel, hquad⟩)
  | ll => exact .inr (.inr (.inl ⟨hsel, hquad⟩))
  | lr => exact .inr (.inr (.inr ⟨hsel, hquad⟩))

end Sys2Proof.Machine
end

section
/-! SUPPORT. TEXT (O49, O50, O51): its fills character by character, its operand checks, and the glyph byte that cannot be
read. -/

namespace Sys2Proof.Machine

/-! ### The fills of a string (R261, R264, R265) -/

section
variable {p : Panel} {fn : Font} {scale : Nat} {x : Int} {ch : Byte} {cursor : Int × Int}

theorem glyphOrigin_fits (h : cursor.1 + scale * fn.width ≤ p.width) : glyphOrigin p fn scale x cursor = cursor :=
  if_neg (not_lt.2 h)

theorem glyphOrigin_wraps (h : (p.width : Int) < cursor.1 + scale * fn.width) :
    glyphOrigin p fn scale x cursor = (x, cursor.2 + scale * fn.height + 1) := if_pos h

theorem textFills_skipped (h : ch.toNat < fn.first ∨ fn.last < ch.toNat) (font : Memory) (c : Half) (rest : List Byte) :
    textFills p font fn scale c x (ch :: rest) cursor = textFills p font fn scale c x rest cursor := by
  have hskip : ¬(fn.first ≤ ch.toNat ∧ ch.toNat ≤ fn.last) := by omega
  rw [textFills, textCursor, if_neg hskip, if_neg hskip, List.nil_append, textCursor]

/-- A covered character: its glyph where the wrap rule puts it, and the rest one pixel past that glyph. -/
theorem textFills_covered (h : fn.first ≤ ch.toNat ∧ ch.toNat ≤ fn.last) {gx gy : Int}
    (ho : glyphOrigin p fn scale x cursor = (gx, gy)) (font : Memory) (c : Half) (rest : List Byte) :
    textFills p font fn scale c x (ch :: rest) cursor =
      glyphFills font fn scale c gx gy ch fn.width ++
        textFills p font fn scale c x rest (gx + scale * fn.width + 1, gy) := by
  rw [textFills, textCursor, if_pos h, if_pos h, textCursor, ho]

/-- A string without a covered character has no fills. -/
theorem textFills_uncovered (font : Memory) (c : Half) {codes : List Byte}
    (h : ∀ ch ∈ codes, ch.toNat < fn.first ∨ fn.last < ch.toNat) :
    textFills p font fn scale c x codes cursor = [] := by
  induction codes with
  | nil => rfl
  | cons ch rest ih =>
    rw [textFills_skipped (h ch (List.mem_cons_self ..))]
    exact ih fun ch' hch' => h ch' (List.mem_cons_of_mem _ hch')

end

/-- No glyph byte of a string without a covered character is read. -/
theorem fontReadable_uncovered (font : Memory) {fn : Font} {codes : List Byte}
    (h : ∀ ch ∈ codes, ch.toNat < fn.first ∨ fn.last < ch.toNat) : FontReadable font fn codes := by
  intro ch hch hfirst hlast
  have := h ch hch
  omega

/-- Settles O49: the request is its list of fills, and the list is read off one character at a time. -/
theorem text : Obligations.Text := by
  intro p s x y c scale fw fh fs fe fb codes
  constructor
  · rintro _ _ _ rfl rfl rfl
    refine ⟨fun ch i => rfl, fun ch rest cx cy hout => ?_, fun ch rest cx cy hfirst hlast hfit => ?_,
      fun ch rest cx cy hfirst hlast hover => ?_⟩
    · exact textFills_skipped hout ..
    · exact textFills_covered ⟨hfirst, hlast⟩ (glyphOrigin_fits hfit) ..
    · exact textFills_covered ⟨hfirst, hlast⟩ (glyphOrigin_wraps hover) ..
  · intro hd hx hy hs hw hh hh8 hse hread ha
    exact draws_of_fills hd (drawText_eq hx hy hs (fontOf_valid hw hh hh8 hse fb) hread c) ha

/-! ### The operand checks (R260, R261) -/

section
variable {x y : Int} {scale : Nat} {fn : Font}

theorem drawText_negative (h : x < 0 ∨ y < 0) (p : Panel) (c : Half) (codes : List Byte) (s : State) :
    drawText p x y c scale fn codes s = .error (s.withFault .negativeCoordinate) := if_pos h

theorem drawText_badScale (hx : 0 ≤ x) (hy : 0 ≤ y) (hs : scale = 0) (p : Panel) (c : Half) (codes : List Byte)
    (s : State) : drawText p x y c scale fn codes s = .error (s.withFault .badScale) := by
  rw [drawText, if_neg (by omega), if_pos hs]; rfl

theorem drawText_badFont (hx : 0 ≤ x) (hy : 0 ≤ y) (hs : 1 ≤ scale) (hv : fn.valid = false) (p : Panel) (c : Half)
    (codes : List Byte) (s : State) : drawText p x y c scale fn codes s = .error (s.withFault .badFont) := by
  rw [drawText, if_neg (by omega), if_neg (by omega), if_pos hv]; rfl

theorem drawText_uncovered (hx : 0 ≤ x) (hy : 0 ≤ y) (hs : 1 ≤ scale) (hv : fn.valid = true) {codes : List Byte}
    (h : ∀ ch ∈ codes, ch.toNat < fn.first ∨ fn.last < ch.toNat) (p : Panel) (c : Half) (s : State) :
    drawText p x y c scale fn codes s = .ok s := by
  rw [drawText_eq hx hy hs hv (fontReadable_uncovered s.font h), textFills_uncovered s.font c h, drawFills]

end

theorem fontOf_invalid {fw fh fs fe : Byte}
    (h : fw.toNat = 0 ∨ fh.toNat = 0 ∨ 8 < fh.toNat ∨ fe.toNat < fs.toNat) (fb : Word) :
    (fontOf fw fh fs fe fb).valid = false :=
  decide_eq_false (by simp only [fontOf]; omega)

/-- Settles O50: the checks stand before the characters, and a string with nothing to draw has no fills. -/
theorem textOperandChecks : Obligations.TextOperandChecks := by
  intro p s x y c scale fw fh fs fe fb codes hr hp
  refine ⟨fun hneg => ?_, fun hx hy hs => ?_, fun hx hy hs hfont => ?_, fun hx hy hs hw hh hh8 hse hout => ?_⟩
  · exact session_error hr hp (drawText_negative hneg ..)
  · exact session_error hr hp (drawText_badScale hx hy hs ..)
  · exact session_error hr hp (drawText_badFont hx hy hs (fontOf_invalid hfont fb) ..)
  · exact session_ok hr hp (drawText_uncovered hx hy hs (fontOf_valid hw hh hh8 hse fb) hout ..)

/-! ### A glyph byte that cannot be read (R262) -/

/-- A drawing request whose run is a list of fills and then a fault ends with that fault, the fills drawn. -/
theorem stopsAfter_of_fills {p : Panel} {fills : List Fill} {s : State} {f : FaultCode} {k : Panel → State → Run}
    (hd : Drawable p s) (h : k p s = (drawFills p fills s >>= raise f)) (ha : Admissible s.par p fills) :
    StopsAfter p fills f s (complete (withPanel (fun p s => do let s ← k p s; .ok (s.answer .unit)) s)) := by
  obtain ⟨t, ht, hdr⟩ := drawFills_draws fills hd ha
  exact ⟨t, session_error hd.ready hd.panel (h.trans (Run.bind_ok ht)), hdr⟩

/-- Settles O51: up to the unreadable byte the request is its list of fills, and then it raises. -/
theorem unreadableGlyph : Obligations.UnreadableGlyph := by
  intro p s x y c scale fw fh fs fe fb pre ch post i hd hx hy hs hh hh8 hfirst hlast hread hi hbefore hnone ha
  have hwidth : 1 ≤ fw.toNat := by omega
  have hvalid := fontOf_valid hwidth hh hh8 (hfirst.trans hlast) fb
  exact stopsAfter_of_fills hd (drawText_stops hx hy hs hvalid ⟨hfirst, hlast⟩ hread hi hbefore hnone c) ha

end Sys2Proof.Machine
end

section
/-! SUPPORT. A brought-up session over a controller that takes its drawing stays one (O58): a rectangle is drawn or is
stopped by a fault of its own, and what is built from rectangles, frames and line drives keeps that. -/

namespace Sys2Proof.Machine

/-! ### A session that can draw -/

/-- The session can draw on `p`, and no fault is recorded. -/
structure Drawing (p : Panel) (s : State) : Prop where
  drawable : Drawable p s
  faults : s.faults = []

/-- One fault is recorded, neither the controller's nor the bus's. -/
def StoppedByBlock (t : State) : Prop := ∃ f, t.faults = [f] ∧ f.isController = false ∧ f ≠ .busFailure

/-- A session that can draw still can. -/
def KeepsDrawing (p : Panel) (s t : State) : Prop := Drawing p s → Drawing p t

/-- A session that can draw is stopped, by a fault of the block's own. -/
def StopsDrawing (p : Panel) (s t : State) : Prop := Drawing p s → StoppedByBlock t

section
variable {p : Panel} {s t : State}

/-- What the ability to draw rests on: the session, the parameters, the memory-access byte, frame memory in canonical form,
and a controller between two commands. -/
theorem Drawing.of_same (hs : Drawing p s) (life : t.life = s.life) (panel : t.panel = s.panel) (par : t.par = s.par)
    (faults : t.faults = s.faults) (madctl : t.dev.madctl = s.dev.madctl) (gram : t.dev.gram = s.dev.gram)
    (clean : t.dev.Clean s.par.cmd) : Drawing p t := by
  obtain ⟨hd, hf⟩ := hs
  obtain ⟨e, he, hcover⟩ := hd.gram
  have hextent : t.dev.extent t.par = some e := by rw [Dev.extent, madctl, par]; exact he
  exact ⟨⟨life ▸ hd.ready, panel ▸ hd.panel, hd.fits, par ▸ hd.codes, par ▸ hd.bus, ⟨e, hextent, hcover⟩, par ▸ clean,
    gram ▸ hd.frame⟩, faults ▸ hf⟩

theorem Drawing.answer (hs : Drawing p s) (r : Result) : Drawing p (s.answer r) :=
  hs.of_same rfl rfl rfl rfl rfl rfl hs.drawable.clean

/-- A line drive but for reset does not reach the controller (R141, R170). -/
theorem Drawing.backlight (hs : Drawing p s) (on : Bool) :
    Drawing p (((drive .bl on s).setBacklight on).answer (.backlight true)) :=
  hs.of_same rfl rfl rfl rfl rfl rfl hs.drawable.clean

theorem drawn_faults {fills : List Fill} (h : Drawn p fills s t) : t.faults = s.faults := by
  obtain ⟨g, _, rfl, _⟩ := h
  unfold afterFills
  split <;> rfl

theorem Drawing.drawn (hs : Drawing p s) {fills : List Fill} (h : Drawn p fills s t) : Drawing p t :=
  ⟨drawable_of_drawn hs.drawable h, (drawn_faults h).trans hs.faults⟩

theorem Drawing.frameReady (hs : Drawing p s) : FrameReady s := ⟨hs.drawable.codes, hs.drawable.bus _, hs.drawable.clean⟩

end

/-! ### Rectangles -/

/-- A fill that raises no fault is legal and admitted (R220, R234). -/
theorem Fill.legal_admitted_of_fault_none {par : Params} {p : Panel} {f : Fill} (h : f.fault par p = none) :
    f.Legal ∧ f.Admitted par p := by
  have hl : f.Legal := by
    by_contra hl
    unfold Fill.fault at h
    split at h
    · cases h
    · split at h
      · cases h
      · exact hl (by simp only [Fill.Legal]; omega)
  refine ⟨hl, ?_⟩
  cases hc : par.clip with
  | silent => exact .inl hc
  | fault =>
    refine .inr (by_contra fun hout => ?_)
    rw [Fill.fault_overshoot hl hc hout] at h; cases h

/-- A fill's own faults are the block's (R220, R234). -/
theorem Fill.fault_isBlock {par : Params} {p : Panel} {f : Fill} {k : FaultCode} (h : f.fault par p = some k) :
    k ≠ .busFailure ∧ k.isController = false := by
  unfold Fill.fault at h
  split at h
  · cases h; decide
  split at h
  · cases h; decide
  split at h
  · cases h; decide
  · cases h

theorem withFault_stopsDrawing {p : Panel} {f : FaultCode} (hf : f ≠ .busFailure ∧ f.isController = false) (s : State) :
    StopsDrawing p s (s.withFault f) := fun hs => ⟨f, by simp [hs.faults], hf.2, hf.1⟩

/-- A rectangle is drawn, clipped to the panel, or is stopped by its own fault. -/
theorem rect_keepsDrawing (p : Panel) (f : Fill) (s : State) :
    (rect p f.x f.y f.w f.h f.color s).Ends (KeepsDrawing p) (StopsDrawing p) s := by
  by_cases hs : Drawing p s
  · cases hf : f.fault s.par p with
    | some k => rw [rect_stops hf]; exact withFault_stopsDrawing (Fill.fault_isBlock hf) s
    | none =>
      obtain ⟨hl, ha⟩ := Fill.legal_admitted_of_fault_none hf
      obtain ⟨t, ht, hdrawn⟩ := rect_draws hs.drawable hl ha
      rw [ht]; exact fun _ => hs.drawn hdrawn
  · cases rect p f.x f.y f.w f.h f.color s with
    | ok t => exact fun h => absurd h hs
    | error t => exact fun h => absurd h hs

theorem keepsDrawing_lifts (p : Panel) : LiftsDraw p (KeepsDrawing p) (StopsDrawing p) where
  refl := fun _ => id
  trans := fun h1 h2 => h2 ∘ h1
  transE := fun h1 h2 => h2 ∘ h1
  fault := fun _ s hf => withFault_stopsDrawing hf s
  rect := fun x y w k c s => rect_keepsDrawing p ⟨x, y, w, k, c⟩ s

/-! ### Requests -/

/-- A request ends able to draw, or stopped by a fault of the block's own. -/
def EndsDrawing (p : Panel) (o : Host.Outcome State Fault Refusal) : Prop :=
  ∃ t, o = .next t ∧ (Drawing p t ∨ StoppedByBlock t)

section
variable {p : Panel} {s : State}

theorem Run.Ends.endsDrawing {r : Run} (hr : r.Ends (KeepsDrawing p) (StopsDrawing p) s) (hs : Drawing p s) :
    EndsDrawing p (complete r) := by
  cases r with
  | ok t => exact ⟨t, rfl, .inl (hr hs)⟩
  | error t => exact ⟨t, rfl, .inr (hr hs)⟩

theorem Drawing.gated (hs : Drawing p s) {k : State → Run} (hk : (k s).Ends (KeepsDrawing p) (StopsDrawing p) s) :
    EndsDrawing p (complete (readyGate s >>= k)) := by
  rw [gated_ready hs.drawable.ready]; exact hk.endsDrawing hs

theorem Drawing.session (hs : Drawing p s) {k : Panel → State → Run}
    (hk : (k p s).Ends (KeepsDrawing p) (StopsDrawing p) s) :
    EndsDrawing p (complete (withPanel (fun p s => do let s ← k p s; .ok (s.answer .unit)) s)) := by
  rw [withPanel_ready hs.drawable.ready hs.drawable.panel]
  exact (hk.finish fun _ _ ht h => (ht h).answer .unit).endsDrawing hs

/-- The window leaves the memory write open and every other field the session rests on as it was (R139). -/
theorem Drawing.exec_setAddressWindow (hs : Drawing p s) (x0 y0 x1 y1 : Word) :
    EndsDrawing p (exec (.setAddressWindow x0 y0 x1 y1) s) := by
  obtain ⟨inside, outside⟩ := setAddressWindow p s x0 y0 x1 y1 hs.drawable.ready hs.drawable.panel
  by_cases hbad : sext32 x0 < 0 ∨ sext32 x1 < sext32 x0 ∨ p.width ≤ sext32 x1 ∨ sext32 y0 < 0 ∨ sext32 y1 < sext32 y0 ∨
      p.height ≤ sext32 y1
  · exact ⟨_, outside hbad, .inr (withFault_stopsDrawing (by decide) s hs)⟩
  · refine ⟨_, inside hs.drawable.fits hs.drawable.codes hs.drawable.bus hs.drawable.clean (by omega) (by omega)
      (by omega) (by omega) (by omega) (by omega), .inl ?_⟩
    exact hs.of_same rfl rfl rfl rfl rfl rfl (Dev.clean_of rfl (.inl rfl))

theorem Drawing.exec_power (hs : Drawing p s) (on : Bool) : EndsDrawing p (exec (.power on) s) :=
  ⟨_, power s on hs.drawable.ready hs.frameReady,
    .inl (hs.of_same rfl rfl rfl rfl rfl rfl (Dev.clean_of hs.drawable.clean.1 (.inl rfl)))⟩

theorem Drawing.exec_invert (hs : Drawing p s) (on : Bool) : EndsDrawing p (exec (.invert on) s) :=
  ⟨_, invert s on hs.drawable.ready hs.frameReady,
    .inl (hs.of_same rfl rfl rfl rfl rfl rfl (Dev.clean_of hs.drawable.clean.1 (.inl rfl)))⟩

theorem Drawing.exec_backlight (hs : Drawing p s) (on : Bool) : EndsDrawing p (exec (.backlight on) s) := by
  refine hs.gated ?_
  split
  · exact withFault_stopsDrawing (by decide) s
  · exact fun hs => hs.answer _
  · exact fun hs => hs.backlight on

theorem Drawing.exec_backlightQuery (hs : Drawing p s) : EndsDrawing p (exec .backlightQuery s) := by
  refine hs.gated ?_
  split
  · exact withFault_stopsDrawing (by decide) s
  · exact fun hs => hs.answer _
  · split
    · exact withFault_stopsDrawing (by decide) s
    · exact fun hs => hs.answer _

/-- A drawing request is built from rectangles; the window, the modes and the backlight have their rules above. -/
theorem Drawing.exec_ordinary (hs : Drawing p s) {i : Instr} (hi : ordinary i = true) : EndsDrawing p (exec i s) := by
  have draws := keepsDrawing_lifts p
  cases i with
  | setAddressWindow x0 y0 x1 y1 => exact hs.exec_setAddressWindow x0 y0 x1 y1
  | power on => exact hs.exec_power on
  | backlight on => exact hs.exec_backlight on
  | backlightQuery => exact hs.exec_backlightQuery
  | invert on => exact hs.exec_invert on
  | packColor r g b => exact ⟨_, rfl, .inl (hs.answer _)⟩
  | setPixel x y c => exact hs.session (draws.plot ..)
  | fillRect x y w k c => exact hs.session (draws.rect ..)
  | hline x y len c => exact hs.session (draws.rect ..)
  | vline x y len c => exact hs.session (draws.rect ..)
  | line x0 y0 x1 y1 c => exact hs.session (draws.drawLine ..)
  | circle cx cy r c => exact hs.session (draws.checkedCircle ..)
  | circleFilled cx cy r c hasFill fc => exact hs.session (draws.checkedCircle ..)
  | circleSegment cx cy r c quads fill hasFill fc => exact hs.session (draws.checkedCircle ..)
  | text x y c scale fw fh fs fe fb codes => exact hs.session (draws.drawText ..)
  | _ => cases hi

end

/-- Settles O58: a request ends able to draw with no fault recorded, or with one fault, which is the block's own. -/
theorem broughtUpBlockKeepsDrawing : Obligations.BroughtUpBlockKeepsDrawing := by
  intro p i s t hd hf hi h
  obtain ⟨u, hu, hend⟩ := Drawing.exec_ordinary ⟨hd, hf⟩ hi
  obtain rfl : u = t := Host.Outcome.next.inj (hu.symm.trans h)
  obtain hdrawing | ⟨f, hfault, hown⟩ := hend
  · exact ⟨fun _ => hdrawing.drawable, by simp [hdrawing.faults]⟩
  · exact ⟨fun hnone => by simp [hnone] at hfault, by simpa [hfault] using hown⟩

end Sys2Proof.Machine
end

section
/-! SUPPORT. The result across an instruction (O56): a fault that ends it leaves the result alone. What becomes of the fault
list and the lifecycle is `exec_course`. -/

namespace Sys2Proof.Machine

/-- Neither the fault list nor the result is written. -/
def UnderWay (s t : State) : Prop := t.faults = s.faults ∧ t.ret = s.ret

/-- No fault is recorded. -/
def SameFaults (s t : State) : Prop := t.faults = s.faults

/-- The result is not written. -/
def SameResult (s t : State) : Prop := t.ret = s.ret

theorem BusOnly.ret {s t : State} (h : BusOnly s t) : t.ret = s.ret := by
  obtain ⟨_, _, _, _, _, rfl⟩ := h; rfl

theorem sameResult_lifts : LiftsExec UnderWay SameFaults SameResult where
  refl := fun _ => ⟨rfl, rfl⟩
  trans := fun h1 h2 => ⟨h2.1.trans h1.1, h2.2.trans h1.2⟩
  transE := fun h1 h2 => Eq.trans h2 h1.2
  fault := fun _ _ _ => rfl
  send := fun dc bytes s => send_cases (P := Run.Ends _ _ s) dc bytes s (fun _ _ => ⟨rfl, rfl⟩) (fun _ _ _ => rfl)
    (fun _ => rfl)
  answer := fun _ _ _ h => h.1
  power := fun _ _ _ h _ => h.1
  inverted := fun _ _ _ h _ => h.1
  backlight := fun _ _ _ => rfl
  pulse := fun s _ => resetPulse_faults s

theorem sendFrame_sameResult (dc : Level) (bytes : List Byte) (s : State) :
    (sendFrame dc bytes s).Ends SameFaults SameResult s :=
  sendFrame_cases (P := Run.Ends _ _ s) dc bytes s (fun _ _ => rfl) (fun _ _ _ => rfl) (fun _ => rfl)

theorem execInitialise_sameResult (w k : Half) (o : Byte) (s : State) :
    ∃ r, execInitialise w k o s = complete r ∧ r.Ends SameFaults SameResult s :=
  initialise_ends transferred_lifts w k o s (fun _ _ => rfl)
    (fun _ _ _ _ ht => ht.faults.trans (startBringUp_faults ..))
    (fun _ _ _ _ ht => ht.faults.trans (startBringUp_faults ..))
    (fun _ _ _ _ ht => ht.session.ret.trans (startBringUp_ret ..))

/-- An instruction that writes the result records no fault. -/
theorem exec_faults_or_ret {i : Instr} {s t : State} (h : exec i s = .next t) : t.faults = s.faults ∨ t.ret = s.ret := by
  obtain ⟨r, hr, rfl⟩ := sameResult_lifts.next h (fun _ _ => sendFrame_sameResult ..) (fun _ _ _ _ => rfl)
    (fun w k o _ => execInitialise_sameResult w k o s)
  cases r with
  | ok u => exact .inl hr
  | error u => exact .inr hr

/-- Settles O56: with a fault recorded the result is as it was, and the course of the instruction gives fault and lifecycle. -/
theorem oneFaultPerRequest : Obligations.OneFaultPerRequest := by
  intro i s t h
  obtain hsame | hret := exec_faults_or_ret h
  · exact .inl hsame
  obtain (⟨hlife, hf | ⟨f, hf⟩⟩ | ⟨_, _, hf⟩) | ⟨_, _, hf⟩ | ⟨⟨w, k, o, hi⟩, _, hc⟩ := exec_course i h
  · exact .inl hf
  · exact .inr ⟨f, hf, hret, fun _ _ => hlife⟩
  · exact .inr ⟨_, hf, hret, fun hbus => absurd rfl hbus⟩
  · exact .inl hf
  · obtain ⟨_, _, hf⟩ | ⟨_, _, hf⟩ | ⟨_, f, hf⟩ := hc
    · exact .inl hf
    · exact .inl hf
    · exact .inr ⟨f, hf, hret, fun _ hn => absurd hi (hn w k o)⟩

end Sys2Proof.Machine
end

section
/-! SUPPORT. CREATE, power-up and a bring-up that completes (O1, O13, O16): what the requests find at power-up, and the
controller the whole sequence leaves. -/

namespace Sys2Proof.Machine

/-! ### CREATE and power-up (R130, R42) -/

/-- Settles O13: CREATE reads nothing of the state and has one outcome, R130's. -/
theorem createStartsASession : Obligations.CreateStartsASession := fun _ _ _ _ => rfl

/-- The controller at power-up is as a reset line leaves it (R42, R171). -/
theorem devPowerUp_unknown : Dev.powerUp.Unknown := forget_unknown Dev.powerUp

/-- Settles O1: the fields are those of R42; the requests find an `Uninitialized` session with no margins set. -/
theorem powerUpState : Obligations.PowerUpState := by
  refine ⟨⟨[], rfl⟩, fun par font => ⟨State.powerUp par font, rfl, ?_⟩⟩
  have hlife : (State.powerUp par font).life = .uninitialized := rfl
  obtain ⟨hcmd, hparams, ⟨hcs, hce, hrs, hre⟩, hramwr, hpend, ⟨hsleep, hdisp, hinv, hnormal, hmad⟩, hcfg, hgram⟩ :=
    devPowerUp_unknown
  have hreset : ∃ t, exec .reset (State.powerUp par font) = .next t ∧ t.trace = pulseEvents ∧ t.faults = [] := by
    obtain ⟨pulses, -, -⟩ := resetPulses (State.powerUp par font)
    obtain ⟨d, -, hd⟩ := pulses hlife
    exact ⟨_, hd, rfl, rfl⟩
  have hinit (w h : Half) (o : Byte) :
      exec (.initialise w h o) (State.powerUp par font) = .next ((State.powerUp par font).withFault .badSessionParameters) :=
    let ⟨_, _, refuses⟩ := initialiseAdmission (State.powerUp par font) w h o
    refuses hlife (.inl rfl)
  have hgate (i : Instr) (hi : needsReady i = true) :
      exec i (State.powerUp par font) = .next ((State.powerUp par font).withFault .notReady) :=
    exec_gated_closed hi (readyGate_other (by simp [hlife]) (by simp [hlife]))
  exact ⟨hlife, rfl, rfl, rfl, rfl, rfl, rfl, rfl, rfl, rfl, rfl, rfl, rfl, rfl, rfl, rfl, rfl, rfl,
    hcmd, hparams, hcs, hce, hrs, hre, hramwr, hpend, hsleep, hdisp, hinv, hnormal, hmad, hcfg, hgram,
    hreset, hinit, hgate⟩

/-! ### The configuration a bring-up writes (R136, R184) -/

/-- One opaque command's parameters written to its register (R184). -/
def configure (cmd : CmdTable) (m : Sparse (List Byte)) (np : WireName × List Byte) : Sparse (List Byte) :=
  Sparse.set (cmd.code np.1).toNat np.2 m

theorem configure_wf (cmd : CmdTable) {m : Sparse (List Byte)} (hm : Sparse.wf m = true) (np : WireName × List Byte) :
    Sparse.wf (configure cmd m np) = true := Sparse.set_wf _ _ hm

section
variable {cmd : CmdTable} (hc : CodesDistinct cmd)
include hc

/-- A register whose command is not among those configured keeps what it held. -/
theorem get_configure_other {name : WireName} (nps : List (WireName × List Byte)) :
    ∀ {m : Sparse (List Byte)}, Sparse.wf m = true → name ∉ nps.map Prod.fst →
      Sparse.get (cmd.code name).toNat (nps.foldl (configure cmd) m) = Sparse.get (cmd.code name).toNat m := by
  induction nps with
  | nil => intro m _ _; rfl
  | cons np rest ih =>
    intro m hm hname
    rw [List.map_cons, List.mem_cons, not_or] at hname
    have hkey : (cmd.code name).toNat ≠ (cmd.code np.1).toNat := fun h =>
      hname.1 (code_injective hc (BitVec.eq_of_toNat_eq h))
    rw [List.foldl_cons, ih (configure_wf cmd hm np) hname.2]
    exact Sparse.get_set_other hkey _ hm

/-- Commands configured once each hold their parameters. -/
theorem get_configure (nps : List (WireName × List Byte)) :
    ∀ {m : Sparse (List Byte)}, Sparse.wf m = true → (nps.map Prod.fst).Nodup →
      ∀ np ∈ nps, Sparse.get (cmd.code np.1).toNat (nps.foldl (configure cmd) m) = some np.2 := by
  induction nps with
  | nil => intro m _ _ np hnp; cases hnp
  | cons first rest ih =>
    intro m hm hnodup np hnp
    rw [List.map_cons, List.nodup_cons] at hnodup
    have hset := configure_wf cmd hm first
    obtain rfl | hrest := List.mem_cons.1 hnp
    · rw [List.foldl_cons, get_configure_other hc rest hset hnodup.1]
      exact Sparse.get_set_same ..
    · exact ih hset hnodup.2 np hrest

end

/-- What a step does to the configuration: SWRESET empties it, an opaque command writes its register (R182, R184). -/
theorem stepEffect_cfg (cmd : CmdTable) (d : Dev) (st : BringUpStep) : (stepEffect cmd d st).cfg =
    if st.name = .swreset then [] else if isOpaque st.name then configure cmd d.cfg (st.name, st.params) else d.cfg := by
  obtain ⟨k, name, params⟩ := st
  cases name <;> rfl

/-- After SWRESET, the configuration is what the opaque steps write. -/
theorem foldl_stepEffect_cfg (cmd : CmdTable) (steps : List BringUpStep) : ∀ d : Dev,
    (∀ st ∈ steps, st.name ≠ .swreset) → (steps.foldl (stepEffect cmd) d).cfg =
      ((steps.filter fun st => isOpaque st.name).map fun st => (st.name, st.params)).foldl (configure cmd) d.cfg := by
  induction steps with
  | nil => intro d _; rfl
  | cons st rest ih =>
    intro d hno
    rw [List.forall_mem_cons] at hno
    rw [List.foldl_cons, ih _ hno.2, stepEffect_cfg, if_neg hno.1]
    by_cases ho : isOpaque st.name = true <;> simp [ho]

/-- The sequence starts with SWRESET, and its opaque steps are those of R136. -/
theorem initSeq_cfg (cmd : CmdTable) (init : InitParams) (o : Fin 4) (d : Dev) :
    ((initSeq init o).foldl (stepEffect cmd) d).cfg = (opaqueParams init).foldl (configure cmd) [] :=
  foldl_stepEffect_cfg cmd (initSeq init o).tail (stepEffect cmd d ⟨1, .swreset, []⟩) (by simp [initSeq])

/-! ### The whole sequence (R136) -/

/-- The controller that the sequence leaves, from any it starts with: step 1 leaves nothing of what it held. -/
structure BroughtUp (t : CmdTable) (init : InitParams) (o : Fin 4) (d : Dev) : Prop where
  cmd : d.cmd = some t.dispon
  params : d.params = []
  ramwr : d.ramwr = false
  pend : d.pend = none
  modes : d.sleepOut = some true ∧ d.invOn = some false ∧ d.normal = some true ∧ d.dispOn = some true
  madctl : d.madctl = some (madTable o)
  cols : d.colS = some (paramBound init.caset 0) ∧ d.colE = some (paramBound init.caset 2)
  rows : d.rowS = some (paramBound init.raset 0) ∧ d.rowE = some (paramBound init.raset 2)
  cfg : d.cfg = (opaqueParams init).foldl (configure t) []
  gram : d.gram = []

theorem initSeq_broughtUp (cmd : CmdTable) (init : InitParams) (o : Fin 4) (d : Dev) :
    BroughtUp cmd init o ((initSeq init o).foldl (stepEffect cmd) d) where
  cmd := rfl
  params := rfl
  ramwr := rfl
  pend := rfl
  modes := ⟨rfl, rfl, rfl, rfl⟩
  madctl := rfl
  cols := ⟨rfl, rfl⟩
  rows := ⟨rfl, rfl⟩
  cfg := initSeq_cfg cmd init o d
  gram := rfl

/-- The last step, DISPON, has no parameters: DC is left at the command's level. -/
theorem initSeq_levels (init : InitParams) (o : Fin 4) (l : Levels) :
    (initSeq init o).foldl stepLevels l = { l with dc := some false, cs := some true } := rfl

/-- A session that INITIALIZE takes, and whose bring-up completes, is `Ready` (R135). -/
theorem execInitialise_ok {s t : State} {w h : Half} {orient : Byte} {o : Fin 4} (hs : s.life = .uninitialized)
    (hp : sessionParameters w h orient s = some o)
    (hb : bringUp (initSeq s.par.init o) (startBringUp w h o s) = .ok t) :
    execInitialise w h orient s = .next
      { t with life := .ready, powerOn := some true, inverted := some false, ret := .status true } := by
  rw [execInitialise, if_neg (by simp [hs]), if_neg (by simp [hs]), hp]
  simp only [hb]
  rfl

/-- An INITIALIZE whose transfers complete runs the 21 steps over a reset controller (R135, R136). -/
theorem exec_initialise_completes {s : State} {w h : Half} {o : Fin 4} (hs : s.life = .uninitialized)
    (hp : sessionParameters w h (BitVec.ofNat 8 o) s = some o) (hcodes : CodesDistinct s.par.cmd)
    (hcol : s.par.init.caset.length = 4) (hrow : s.par.init.raset.length = 4)
    (hbus : ∀ m, s.xfers ≤ m → m < s.xfers + initTransfers s.par o → busOk s.par m = true) :
    exec (.initialise w h (BitVec.ofNat 8 o)) s = .next
      { s with
        life := .ready, W := some w.toNat, H := some h.toNat, orient := some o, powerOn := some true,
        inverted := some false, ret := .status true, xfers := s.xfers + initTransfers s.par o,
        lvl := { s.lvl with dc := some false, cs := some true, rst := some true },
        trace := s.trace ++ initEvents s.par o,
        dev := (initSeq s.par.init o).foldl (stepEffect s.par.cmd) s.dev.forget } := by
  have hrun := bringUp_ok (initSeq s.par.init o) (s := startBringUp w h o s) (by simpa using hcodes)
    (Dev.clean_of (by simp) (by simp)) (initSeq_ok hcol hrow o)
    (by rw [startBringUp_xfers, startBringUp_par]; exact hbus)
  rw [exec, execInitialise_ok hs hp hrun, foldl_afterStep, initSeq_levels, startBringUp_eq]
  simp only [initEvents, List.append_assoc]
  rfl

/-- Settles O16: every step of the sequence completes, and the controller is what the 21 steps make of a reset one. -/
theorem initialiseBringsUp : Obligations.InitialiseBringsUp := by
  intro s rm cm w h o hs hrm hcm hw hh hwc hhr hcodes hcol hrow hbus
  have hexec := exec_initialise_completes hs (sessionParameters_some hrm hcm hw hh hwc hhr) hcodes hcol hrow hbus
  have hdev := initSeq_broughtUp s.par.cmd s.par.init o s.dev.forget
  generalize (initSeq s.par.init o).foldl (stepEffect s.par.cmd) s.dev.forget = d at hexec hdev
  obtain ⟨hcmd, hparams, hramwr, hpend, ⟨hsleep, hinv, hnormal, hdisp⟩, hmad, ⟨hcs, hce⟩, ⟨hrs, hre⟩, hcfg, hgram⟩ := hdev
  have hopaque := get_configure hcodes (opaqueParams s.par.init) (m := []) rfl (by simp [opaqueParams])
  exact ⟨d, hexec, hcmd, hparams, hramwr, hpend, hsleep, hinv, hnormal, hdisp, hmad, hcs, hce, hrs, hre,
    hcfg ▸ hopaque, fun c r => hgram ▸ Frame.get_empty c r, rfl, rfl⟩

end Sys2Proof.Machine
end
